-- ==== Sys2Proof/Word.lean ====
section
/-! DEFINITION. The word types of the RCTB: the byte of a chip register, a command, a response or an event (00_scope.md R9),
and the 7-bit address of a chip register (20_memory.md R73). -/

namespace Sys2Proof

/-- A byte: chip registers are 8 bits wide and the streams are byte streams (00_scope.md R9). -/
abbrev Byte := BitVec 8

/-- The address of a chip register, 0x00 to 0x7F (20_memory.md R73). -/
abbrev RegAddr := BitVec 7

end Sys2Proof
end

