-- ==== Sys2Proof/Config.lean ====
section
/-! DEFINITION. What an implementation of the RCTB fixes (00_scope.md R7, R8; 20_memory.md R73; 93_implementation_defined.md,
treatment `parameter`) as one structure, and the values the spec leaves open as constants without a body. The defaults of the
parameters are `Sys2Proof.Machine.config` (Machine/Params.lean). -/

namespace Sys2Proof

/-- The place of a field in a chip register: bits msb down to lsb (20_memory.md R66). -/
structure FieldPos where
  msb : Nat
  lsb : Nat
deriving DecidableEq, Repr

/-- Table 2 of 20_memory.md R73: the address of every chip register the spec names. -/
structure RegMap where
  fifo : RegAddr
  opMode : RegAddr
  frfMsb : RegAddr
  frfMid : RegAddr
  frfLsb : RegAddr
  paConfig : RegAddr
  ocp : RegAddr
  lna : RegAddr
  fifoAddrPtr : RegAddr
  fifoTxBaseAddr : RegAddr
  fifoRxBaseAddr : RegAddr
  irqFlags : RegAddr
  pktSnrValue : RegAddr
  pktRssiValue : RegAddr
  modemConfig1 : RegAddr
  modemConfig2 : RegAddr
  symbTimeoutLsb : RegAddr
  preambleMsb : RegAddr
  preambleLsb : RegAddr
  payloadLength : RegAddr
  modemConfig3 : RegAddr
  ppmCorrection : RegAddr
  feiMsb : RegAddr
  feiMid : RegAddr
  feiLsb : RegAddr
  detectOptimize : RegAddr
  invertIq : RegAddr
  highBwOpt1 : RegAddr
  detectionThreshold : RegAddr
  syncWord : RegAddr
  highBwOpt2 : RegAddr
  version : RegAddr
deriving DecidableEq, Repr

/-- The field positions of the chip's registers that the rules write (93_implementation_defined.md G20 to G23, G8). -/
structure FieldMap where
  /-- LNA boost (R134). -/
  lnaBoost : FieldPos
  /-- LowDataRateOptimize and AgcAutoOn in REG_MODEM_CONFIG_3 (R134). -/
  agc : FieldPos
  /-- The IQ-invert bit of REG_INVERT_IQ (R134). -/
  iqInvert : FieldPos
  /-- RxPayloadCrcOn in REG_MODEM_CONFIG_2 (R136). -/
  rxCrc : FieldPos
  /-- SpreadingFactor and TxContinuousMode in REG_MODEM_CONFIG_2 (R138). -/
  spreading : FieldPos
  /-- SymbTimeout's high bits in REG_MODEM_CONFIG_2 (R146). -/
  symbTimeoutHigh : FieldPos
  /-- The detection-optimize field (R138). -/
  detectOptimize : FieldPos
deriving DecidableEq, Repr

/-- Table 1 of 00_scope.md R8 (each field named after its `P_` parameter), Table 2 and the field and flag positions. -/
structure Config where
  /-- P_FXOSC, Hz. -/
  fxosc : Nat
  /-- P_FRF_SHIFT. -/
  frfShift : Nat
  /-- P_RSSI_OFFSET. -/
  rssiOffset : Int
  /-- P_CHIP_ID. -/
  chipId : Byte
  /-- P_PROBE_TRIES. -/
  probeTries : Nat
  /-- P_PROBE_DELAY_MS. -/
  probeDelayMs : Nat
  /-- P_PPM_NUM. -/
  ppmNum : Int
  /-- P_PPM_DEN. -/
  ppmDen : Int
  /-- P_SYNC_ALLOWED, 40_config.md R132. -/
  syncAllowed : List Byte
  /-- P_BW_HZ, indexed by the bandwidth code. -/
  bwHz : List Nat
  /-- P_FEI_NORM, indexed by the bandwidth code. -/
  feiNorm : List Int
  /-- P_PA_BOOST. -/
  paBoost : Bool
  /-- P_PA_CFG_BOOST. -/
  paCfgBoost : Byte
  /-- P_PA_CFG_RFO. -/
  paCfgRfo : Byte
  /-- P_HBW1_500. -/
  hbw1At500 : Byte
  /-- P_HBW1_DEF. -/
  hbw1Default : Byte
  /-- P_HBW2_500. -/
  hbw2At500 : Byte
  /-- P_DETOPT_SF6. -/
  detOptSf6 : Byte
  /-- P_DETOPT_SF7_12. -/
  detOptSf7to12 : Byte
  /-- P_DETTHR_SF6. -/
  detThrSf6 : Byte
  /-- P_DETTHR_SF7_12. -/
  detThrSf7to12 : Byte
  /-- P_FIFO_TX_BASE. -/
  fifoTxBase : Byte
  /-- P_FIFO_RX_BASE. -/
  fifoRxBase : Byte
  /-- P_PAYLOAD_DEFAULT. -/
  payloadDefault : Byte
  /-- P_PREAMBLE_DEFAULT. -/
  preambleDefault : Byte
  /-- P_SYNC_DEFAULT. -/
  syncDefault : Byte
  /-- The LNA boost field's value, R134 (G20). -/
  lnaBoostOn : Byte
  /-- The AGC field's value, R134 (G20). -/
  agcOn : Byte
  /-- The bits of REG_OP_MODE above the mode code: LongRangeMode on, R75 (G14). -/
  opModeBase : Byte
  /-- The place of TX_DONE in the interrupt-flags byte, R47 (G17). -/
  txDoneBit : Nat
  /-- The place of RX_DONE in the interrupt-flags byte, R47 (G17). -/
  rxDoneBit : Nat
  regs : RegMap
  fields : FieldMap
deriving DecidableEq, Repr

/-- P_PA_BOOST of the machine: the spec leaves it OPEN (00_scope.md R8, 92_eei_decisions.md D19), so it has no body here.
DESIGN CHOICE (log 4), safe. -/
opaque Config.openPaBoost : Bool

/-- The oracle (00_scope.md R15): the byte the chip answers to the model's n-th read byte for which the environment has laid out
no answer in `State.chipReads`. It has no body: any byte, under no law. DESIGN CHOICE (log 3), safe. -/
opaque Config.oracleByte : Nat → Byte

/-- What FREQ_HZ receives from SetFrequencyReg when RegToHz, the argument, does not fit its 32 bits, which a parameter table can
bring about and no rule settles (00_scope.md R9, 10_state.md R34, 40_config.md R149). It has no body: any value. DESIGN CHOICE (log
29), safe. -/
opaque Config.freeHz : Nat → BitVec 32

end Sys2Proof
end

