-- ==== Sys2Proof/Machine/Params.lean ====
section
/-! DEFINITION. The parameter values of the machine: the defaults of Table 1 (00_scope.md R8), of Table 2 (20_memory.md R73), and of
the field and flag positions the rules give (93_implementation_defined.md part 2). Log 5. -/

namespace Sys2Proof.Machine

/-- Table 2 of 20_memory.md R73. PRESUMED (log 5), unsafe: the spec itself takes these from general knowledge. -/
def regMap : RegMap where
  fifo := 0x00
  opMode := 0x01
  frfMsb := 0x06
  frfMid := 0x07
  frfLsb := 0x08
  paConfig := 0x09
  ocp := 0x0B
  lna := 0x0C
  fifoAddrPtr := 0x0D
  fifoTxBaseAddr := 0x0E
  fifoRxBaseAddr := 0x0F
  irqFlags := 0x12
  pktSnrValue := 0x19
  pktRssiValue := 0x1A
  modemConfig1 := 0x1D
  modemConfig2 := 0x1E
  symbTimeoutLsb := 0x1F
  preambleMsb := 0x20
  preambleLsb := 0x21
  payloadLength := 0x22
  modemConfig3 := 0x26
  ppmCorrection := 0x27
  feiMsb := 0x28
  feiMid := 0x29
  feiLsb := 0x2A
  detectOptimize := 0x31
  invertIq := 0x33
  highBwOpt1 := 0x36
  detectionThreshold := 0x37
  syncWord := 0x39
  highBwOpt2 := 0x3A
  version := 0x42

/-- The field positions of R134, R136, R138 and R146. PRESUMED (log 5), unsafe. -/
def fieldMap : FieldMap where
  lnaBoost := ⟨1, 0⟩
  agc := ⟨3, 2⟩
  iqInvert := ⟨6, 6⟩
  rxCrc := ⟨2, 2⟩
  spreading := ⟨7, 3⟩
  symbTimeoutHigh := ⟨1, 0⟩
  detectOptimize := ⟨2, 0⟩

/-- Table 3 of 40_config.md R132: the 105 permitted sync words. PRESUMED (log 5), unsafe: only the count and the member 255 are
the source's. -/
def syncTable : List Byte :=
  ([0, 5, 6, 7, 11, 12, 13, 15, 18, 21, 23, 26, 29, 30, 31] : List Byte)
    ++ [33, 34, 37, 38, 39, 40, 42, 44, 50, 51, 54, 55, 57, 58, 59]
    ++ [61, 63, 65, 67, 68, 71, 77, 78, 79, 80, 82, 84, 86, 89, 92]
    ++ [94, 96, 97, 99, 101, 102, 105, 106, 109, 111, 113, 115, 117, 118, 119]
    ++ [121, 122, 124, 126, 127, 129, 130, 138, 143, 161, 170, 172, 173, 175, 180]
    ++ [181, 182, 187, 190, 191, 192, 193, 196, 199, 201, 204, 205, 208, 209, 212]
    ++ [213, 219, 220, 221, 223, 227, 229, 235, 239, 240, 242, 243, 246, 247, 255]

/-- The configuration the machine runs with: every default of Table 1, and the OPEN P_PA_BOOST as the constant without a body. -/
def config : Config where
  fxosc := 32000000
  frfShift := 19
  rssiOffset := -157
  chipId := 0x12
  probeTries := 3
  probeDelayMs := 200
  ppmNum := 95
  ppmDen := 100
  syncAllowed := syncTable
  bwHz := [7800, 10400, 15600, 20800, 31250, 41700, 62500, 125000, 250000, 500000]
  feiNorm := [1026, 769, 513, 385, 256, 192, 128, 64, 32, 16]
  paBoost := Config.openPaBoost
  paCfgBoost := 0xF0
  paCfgRfo := 0x70
  hbw1At500 := 0x02
  hbw1Default := 0x03
  hbw2At500 := 0x64
  detOptSf6 := 0b101
  detOptSf7to12 := 0b011
  detThrSf6 := 0x0C
  detThrSf7to12 := 0x0A
  fifoTxBase := 0x00
  fifoRxBase := 0x00
  payloadDefault := 8
  preambleDefault := 8
  syncDefault := 0x12
  lnaBoostOn := 0b11
  agcOn := 0b01
  opModeBase := 0x80
  txDoneBit := 3
  rxDoneBit := 6
  regs := regMap
  fields := fieldMap

end Sys2Proof.Machine
end

