-- ==== Sys2Proof/Syntax.lean ====
section
/-! DEFINITION. The commands of the RCTB: one constructor for each row of spec/opcode_table.json (30_encoding.md R93). A command
carries EVERY operand bit of its format, reserved bits and reserved values included: whether they are legal is a check the
machine makes when it runs the command (R112, R220), not a matter of decoding (log 19). -/

namespace Sys2Proof

/-- The operands of CONFIG, format FC (30_encoding.md R99). -/
structure ConfigOperands where
  /-- Bandwidth code. -/
  bw : BitVec 4
  /-- Spreading factor. -/
  sf : BitVec 4
  /-- Coding-rate code. -/
  cr : BitVec 3
  /-- IQ-invert flag. -/
  iq : Bool
  /-- Frequency unit: true = Hz, false = register units. -/
  fu : Bool
  /-- Sync word present. -/
  swp : Bool
  /-- Byte 2 bits 1:0, must be zero. -/
  rsv : BitVec 2
  /-- Preamble length. -/
  pre : Byte
  /-- Sync word. -/
  sw : Byte
  /-- Payload length. -/
  plen : Byte
  /-- Carrier frequency. -/
  freq : BitVec 32
  /-- Receive timeout in microseconds. -/
  tout : BitVec 32
deriving DecidableEq, Repr

/-- The 17 commands of Table 5 (30_encoding.md R93). -/
inductive Instr where
  /-- BEGIN, 40_config.md R131. -/
  | begin
  /-- CONFIG, 40_config.md R135. -/
  | config (o : ConfigOperands)
  /-- SET_BW_CR, 40_config.md R137: B = BW, CR and a bit that must be 0. -/
  | setBwCr (bw : BitVec 4) (cr : BitVec 3) (rsv : BitVec 1)
  /-- SET_SF, 40_config.md R139. -/
  | setSf (sf : Byte)
  /-- SET_SYNC, 40_config.md R141. -/
  | setSync (sw : Byte)
  /-- SET_PREAMBLE, 40_config.md R143. -/
  | setPreamble (pre : Byte)
  /-- SET_POWER, 40_config.md R144: B = four bits that must be 0, and PWR. -/
  | setPower (rsv : BitVec 4) (pwr : BitVec 4)
  /-- SET_FREQ_HZ, 40_config.md R150. -/
  | setFreqHz (hz : BitVec 32)
  /-- SET_FREQ_REG, 40_config.md R151. -/
  | setFreqReg (frf : BitVec 24)
  /-- SET_RX_TIMEOUT, 40_config.md R147. -/
  | setRxTimeout (us : BitVec 32)
  /-- SET_HDR_CRC, 40_config.md R145: B = six bits that must be 0, HDR and CRC. -/
  | setHdrCrc (rsv : BitVec 6) (hdr crc : Bool)
  /-- SET_MODE, 41_mode.md R172. -/
  | setMode (mode : Byte)
  /-- TX, 42_txrx.md R181: L is the count of `data` (30_encoding.md R100). -/
  | tx (data : List Byte)
  /-- ARM_RX, 42_txrx.md R182. -/
  | armRx
  /-- GET_STATS, 43_telemetry.md R196. -/
  | getStats
  /-- GET_FEI, 43_telemetry.md R197. -/
  | getFei
  /-- SET_PPM, 43_telemetry.md R199: a signed 32-bit offset in Hz. -/
  | setPpm (off : BitVec 32)
deriving DecidableEq, Repr

/-- The pseudo-instructions of 30_encoding.md R117. -/
inductive Pseudo where
  /-- CONFIG_KEEPSYNC: its operands are CONFIG's, less the sync word. -/
  | configKeepSync (bw sf : BitVec 4) (cr : BitVec 3) (fu : Bool) (freq : BitVec 32) (pre : Byte) (iq : Bool)
      (plen : Byte) (tout : BitVec 32)
  | standby
  | sleep
  | rxContinuous
  /-- RX_SINGLE us, with us not 0. -/
  | rxSingle (us : BitVec 32)
deriving DecidableEq, Repr

end Sys2Proof
end

