-- ==== Sys2Proof/Machine/Types.lean ====
section
/-! DEFINITION. The plain data the state is made of: modes, statuses, responses, events, port transactions, the sequencer's
micro-operations and the dispatch's. -/

namespace Sys2Proof.Machine

/-- The values of CUR_MODE (10_state.md R22). `unknown` is the shadow-only value held from reset until the first SetMode. -/
inductive Mode where
  | sleep
  | standby
  | transmit
  | rxContinuous
  | rxSingle
  | unknown
deriving DecidableEq, Repr

/-- The status codes of Table 7 (60_exceptions.md R216). -/
inductive Status where
  | ok
  | illegalOpcode
  | illegalOperand
  | notDetected
  | notReady
  | freqZero
  | unconfigured
deriving DecidableEq, Repr

/-- A cached register with its valid bit: CUR_PRE, CUR_SYNC, CUR_PWR (10_state.md R26 to R28). -/
structure Cache (w : Nat) where
  valid : Bool
  val : BitVec w
deriving DecidableEq, Repr

/-- One response (30_encoding.md R114): the status, then the result bytes of Table 6. -/
structure Response where
  status : Status
  result : List Byte
deriving DecidableEq, Repr

/-- One event (30_encoding.md R115). -/
inductive Event where
  | txDone
  /-- RX_DONE with its status byte, n and the n data bytes. -/
  | rxDone (status : Byte) (n : Byte) (data : List Byte)
  | syncSubst (requested used : Byte)
deriving DecidableEq, Repr

/-- One transaction of the port trace (20_memory.md R61 to R72). -/
inductive PortOp where
  /-- `W a v`, R62. -/
  | write (a : RegAddr) (v : Byte)
  /-- `R a -> v`, R63. -/
  | read (a : RegAddr) (v : Byte)
  /-- `BW a [bytes]`, R64. -/
  | burstWrite (a : RegAddr) (bytes : List Byte)
  /-- `BR a n -> [bytes]`, R65. -/
  | burstRead (a : RegAddr) (n : Nat) (bytes : List Byte)
  /-- `F a msb:lsb f`, R66, with f right-aligned. -/
  | field (a : RegAddr) (msb lsb : Nat) (f : Byte)
  /-- `FW [bytes]`, R67. -/
  | fifoWrite (bytes : List Byte)
  /-- `FR n -> [bytes]`, R68. -/
  | fifoRead (n : Nat) (bytes : List Byte)
  /-- `TXEN`, R69. -/
  | txEnable
  /-- `RXEN`, R70. -/
  | rxEnable
  /-- `PDIS`, R71. -/
  | pathsDisable
  /-- `DLY ms`, R72. -/
  | delay (ms : Nat)
deriving DecidableEq, Repr

/-- One shadow-register or result-register write of the foreground (20_memory.md R80), CUR_MODE's apart. -/
inductive RegWrite where
  | curBw (v : BitVec 4)
  | curCr (v : BitVec 3)
  | curSf (v : BitVec 4)
  /-- CUR_PRE <- (V = 1, VAL = v), 40_config.md R142. -/
  | curPre (v : Byte)
  /-- CUR_SYNC <- (V = 1, VAL = v), 40_config.md R140. -/
  | curSync (v : Byte)
  /-- CUR_PWR <- (V = 1, VAL = v), 40_config.md R144. -/
  | curPwr (v : BitVec 4)
  | payloadLen (v : Byte)
  | iqInvert (v : Bool)
  | headerExpl (v : Bool)
  | crcEn (v : Bool)
  | timeoutSymbols (v : BitVec 10)
  | freqHz (v : BitVec 32)
  | freqReg (v : BitVec 24)
  | lastRssi (v : BitVec 16)
  | lastSnr (v : BitVec 8)
  | lastFeiHz (v : BitVec 32)
  | lastPpm (v : BitVec 8)
  | detected (v : Bool)
deriving DecidableEq, Repr

/-- The internal procedures of 40_config.md and 42_txrx.md, with their arguments. SetMode is not among them: its three steps are
micro-operations of their own (41_mode.md R171). -/
inductive Proc where
  /-- ERRATA_HBW(bw), R133. -/
  | errata (bw : BitVec 4)
  /-- BASELINE(pre, sw), R134. -/
  | baseline (pre sw : Byte)
  /-- SetBandwidthCodingRate(bw, cr), R136. -/
  | setBwCr (bw : BitVec 4) (cr : BitVec 3)
  /-- SetSpreadingFactor(sf), R138. -/
  | setSf (sf : BitVec 4)
  /-- SetSyncWord(req), R140. -/
  | setSync (req : Byte)
  /-- SetPreambleLength(n), R142. -/
  | setPreamble (n : Byte)
  /-- The body of SET_POWER, R144. -/
  | setPower (pwr : BitVec 4)
  /-- SetRxTimeoutUs(us), R146. -/
  | setRxTimeout (us : BitVec 32)
  /-- SetFrequencyHz(hz), R148. -/
  | setFreqHz (hz : BitVec 32)
  /-- SetFrequencyReg(frf), R149. -/
  | setFreqReg (frf : BitVec 24)
  /-- The last step of ARM_RX, R182: RECEIVE-SINGLE or RECEIVE-CONTINUOUS. -/
  | armMode
deriving DecidableEq, Repr

/-- What the sequencer has still to do: a micro-operation (20_memory.md R80), or a procedure call, which is none. -/
inductive Task where
  | portWrite (a : RegAddr) (v : Byte)
  | fieldWrite (a : RegAddr) (p : FieldPos) (f : Byte)
  | burstWrite (a : RegAddr) (bytes : List Byte)
  | fifoWrite (bytes : List Byte)
  | txEnable
  | rxEnable
  | delay (ms : Nat)
  /-- BEGIN's read of REG_VERSION, in attempt number `i` from 1 (R131). -/
  | probe (i : Nat)
  /-- GET_STATS's burst read (R196). -/
  | readStats
  /-- GET_FEI's burst read (R197). -/
  | readFei
  | regWrite (w : RegWrite)
  /-- SetMode step 1 (R171): the elision check. -/
  | modeCheck (m : Mode)
  /-- SetMode step 2 (R171): the write of REG_OP_MODE, with the FAULT_ABORT check. -/
  | modeWrite (m : Mode)
  /-- SetMode step 3 (R171): CUR_MODE <- m. -/
  | modeCache (m : Mode)
  | emit (e : Event)
  | respond (st : Status) (result : List Byte)
  /-- A procedure call: the sequencer goes on with the procedure's tasks. No micro-operation (log 6). -/
  | call (p : Proc)
deriving DecidableEq, Repr

/-- The sequencer (10_state.md R43): SEQ.IDLE = 1, or the current command, SEQ.STEP (log 7) and the tasks still to do. -/
inductive Seq where
  | idle
  | busy (cmd : Instr) (step : Nat) (todo : List Task)
deriving DecidableEq, Repr

/-- The dispatch's next micro-operation (60_exceptions.md R225), with its transients: the flags byte (10_state.md R47), and n and
the data of a receive completion (R230). Log 20. -/
inductive Phase where
  | readFlags
  | clearFlags (flags : Byte)
  /-- TX_COMPLETION (R229): PathsDisable. -/
  | txDisable (flags : Byte)
  /-- TX_COMPLETION: CUR_MODE <- STANDBY. -/
  | txStandby (flags : Byte)
  /-- TX_COMPLETION: Emit(TX_DONE). -/
  | txEmit (flags : Byte)
  /-- RX_COMPLETION (R230): PortFifoRead. -/
  | rxRead
  /-- RX_COMPLETION: RX_BUF[0..n-1]. -/
  | rxStore (n : Byte) (data : List Byte)
  /-- RX_COMPLETION: CUR_MODE <- STANDBY if a timeout is configured. -/
  | rxStandby (n : Byte) (data : List Byte)
  /-- RX_COMPLETION: Emit(RX_DONE). -/
  | rxEmit (n : Byte) (data : List Byte)
  /-- IN_DISPATCH <- 0 (R231). -/
  | leave
deriving DecidableEq, Repr

/-- A byte memory: (address, byte) pairs, addresses strictly rising; an address that is not listed holds no value (log 10). -/
abbrev Memory := List Host.Cell

end Sys2Proof.Machine
end

