-- ==== Sys2Proof/Machine/Operands.lean ====
section
/-! DEFINITION. Operands: byte order (30_encoding.md R94), the codes of modes and statuses, the frequency conversions
(40_config.md R152), and which operand values are legal (30_encoding.md R96 to R100, R107 to R110). -/

namespace Sys2Proof.Machine

/-- The 24-bit value of three bytes, most significant first (R97). -/
def be24 (b1 b2 b3 : Byte) : BitVec 24 := b1 ++ b2 ++ b3

/-- The 32-bit value of four bytes, most significant first (R98). -/
def be32 (b1 b2 b3 b4 : Byte) : BitVec 32 := b1 ++ b2 ++ b3 ++ b4

/-- The bytes of a 16-bit value, most significant first (R94). -/
def bytes16 (v : BitVec 16) : List Byte := [v.extractLsb' 8 8, v.extractLsb' 0 8]

/-- The bytes of a 24-bit value, most significant first (R94). -/
def bytes24 (v : BitVec 24) : List Byte := [v.extractLsb' 16 8, v.extractLsb' 8 8, v.extractLsb' 0 8]

/-- The bytes of a 32-bit value, most significant first (R94). -/
def bytes32 (v : BitVec 32) : List Byte :=
  [v.extractLsb' 24 8, v.extractLsb' 16 8, v.extractLsb' 8 8, v.extractLsb' 0 8]

/-- The mode codes of 10_state.md R22. -/
def Mode.code : Mode → BitVec 3
  | .sleep => 0b000
  | .standby => 0b001
  | .transmit => 0b011
  | .rxContinuous => 0b101
  | .rxSingle => 0b110
  | .unknown => 0b111

/-- The mode a SET_MODE operand asks for, or none for a reserved code (30_encoding.md R110). -/
def modeOfCode (b : Byte) : Option Mode :=
  if b = 0 then some .sleep
  else if b = 1 then some .standby
  else if b = 3 then some .transmit
  else if b = 5 then some .rxContinuous
  else if b = 6 then some .rxSingle
  else none

/-- Whether CUR_MODE is one of the two receive modes (60_exceptions.md R225). -/
def Mode.isReceive : Mode → Bool
  | .rxContinuous => true
  | .rxSingle => true
  | _ => false

/-- The code of a status (60_exceptions.md R216). -/
def Status.code : Status → Byte
  | .ok => 0x00
  | .illegalOpcode => 0x01
  | .illegalOperand => 0x02
  | .notDetected => 0x03
  | .notReady => 0x04
  | .freqZero => 0x05
  | .unconfigured => 0x06

/-- The bytes of a response (30_encoding.md R114). -/
def Response.bytes (r : Response) : List Byte := r.status.code :: r.result

/-- The bytes of an event (30_encoding.md R115). -/
def Event.bytes : Event → List Byte
  | .txDone => [0x80]
  | .rxDone status n data => 0x81 :: status :: n :: data
  | .syncSubst requested used => [0x82, requested, used]

/-- CUR_BW's INVALID (10_state.md R23). -/
def bwInvalid : BitVec 4 := 0xF

/-- CUR_SF's INVALID (10_state.md R25). -/
def sfInvalid : BitVec 4 := 0

/-- CUR_CR's INVALID (10_state.md R24). -/
def crInvalid : BitVec 3 := 0

/-- FreqToReg (40_config.md R152), in mathematical integers. -/
def freqToReg (c : Config) (hz : Nat) : Nat := hz * 2 ^ c.frfShift / c.fxosc

/-- RegToHz (40_config.md R152). -/
def regToHz (c : Config) (frf : Nat) : Nat := frf * c.fxosc / 2 ^ c.frfShift

/-- Bandwidth codes 0 to 9 (30_encoding.md R107). -/
def bwLegal (bw : BitVec 4) : Bool := decide (bw.toNat ≤ 9)

/-- Coding-rate codes 1 to 4 (R108). -/
def crLegal (cr : BitVec 3) : Bool := decide (1 ≤ cr.toNat) && decide (cr.toNat ≤ 4)

/-- Spreading factors 6 to 12 (R109). -/
def sfLegal (sf : Nat) : Bool := decide (6 ≤ sf) && decide (sf ≤ 12)

/-- A frequency in Hz is legal when its register value fits 24 bits (R98, R99). -/
def hzLegal (c : Config) (hz : BitVec 32) : Bool := decide (freqToReg c hz.toNat < 2 ^ 24)

/-- CONFIG's operand checks (30_encoding.md R99, 40_config.md R135). -/
def configLegal (c : Config) (o : ConfigOperands) : Bool :=
  bwLegal o.bw && sfLegal o.sf.toNat && crLegal o.cr && decide (o.rsv = 0) && (o.swp || decide (o.sw = 0))
    && decide (o.plen ≠ 0) && (if o.fu then hzLegal c o.freq else decide (o.freq.extractLsb' 24 8 = 0))

/-- Check 2 of 60_exceptions.md R220: every operand holds a legal value and every reserved bit is 0 (30_encoding.md R112). -/
def operandsLegal (c : Config) : Instr → Bool
  | .begin => true
  | .config o => configLegal c o
  | .setBwCr bw cr rsv => bwLegal bw && crLegal cr && decide (rsv = 0)
  | .setSf sf => sfLegal sf.toNat
  | .setSync _ => true
  | .setPreamble _ => true
  | .setPower rsv _ => decide (rsv = 0)
  | .setFreqHz hz => hzLegal c hz
  | .setFreqReg _ => true
  | .setRxTimeout _ => true
  | .setHdrCrc rsv _ _ => decide (rsv = 0)
  | .setMode mode => (modeOfCode mode).isSome
  | .tx data => decide (1 ≤ data.length) && decide (data.length ≤ 255)
  | .armRx => true
  | .getStats => true
  | .getFei => true
  | .setPpm _ => true

/-- The mnemonic of a command (30_encoding.md R93). -/
def mnemonic : Instr → String
  | .begin => "BEGIN"
  | .config _ => "CONFIG"
  | .setBwCr _ _ _ => "SET_BW_CR"
  | .setSf _ => "SET_SF"
  | .setSync _ => "SET_SYNC"
  | .setPreamble _ => "SET_PREAMBLE"
  | .setPower _ _ => "SET_POWER"
  | .setFreqHz _ => "SET_FREQ_HZ"
  | .setFreqReg _ => "SET_FREQ_REG"
  | .setRxTimeout _ => "SET_RX_TIMEOUT"
  | .setHdrCrc _ _ _ => "SET_HDR_CRC"
  | .setMode _ => "SET_MODE"
  | .tx _ => "TX"
  | .armRx => "ARM_RX"
  | .getStats => "GET_STATS"
  | .getFei => "GET_FEI"
  | .setPpm _ => "SET_PPM"

end Sys2Proof.Machine
end

