-- ==== Sys2Proof/WellFormed.lean ====
section
/-! DEFINITION. Well-formed commands: those whose operands are legal (30_encoding.md R112). The checks themselves are
`Machine.operandsLegal` (Machine/Operands.lean). A command that is not well formed still decodes and runs: it is rejected with
ILLEGAL_OPERAND (60_exceptions.md R219). -/

namespace Sys2Proof

/-- The command's operands hold no reserved value and no non-zero reserved bit, with the machine's parameters. -/
abbrev Instr.WellFormed (i : Instr) : Prop := Machine.operandsLegal Machine.config i = true

/-- The command has an encoding: TX's length byte can hold the count of its payload (30_encoding.md R100). Every command the
decoder answers has one. -/
def Instr.encodable : Instr → Bool
  | .tx data => decide (data.length ≤ 255)
  | .begin | .config _ | .setBwCr _ _ _ | .setSf _ | .setSync _ | .setPreamble _ | .setPower _ _ | .setFreqHz _
  | .setFreqReg _ | .setRxTimeout _ | .setHdrCrc _ _ _ | .setMode _ | .armRx | .getStats | .getFei | .setPpm _ => true

end Sys2Proof
end

