-- ==== Sys2Proof/Decode.lean ====
section
/-! DEFINITION. From command bytes to commands and back (30_encoding.md R91 to R100, R111, R118). The decoder is total; it names
what it does not read as a command. The encoder is written from the same formats. -/

namespace Sys2Proof

/-- What the decoder finds at the head of the command stream (30_encoding.md R118). -/
inductive Decoded where
  /-- A command and the bytes after it. Its operands may be illegal (R112). -/
  | command (i : Instr) (rest : List Byte)
  /-- An opcode byte outside Table 5 (R111), and the bytes after it. -/
  | illegalOpcode (op : Byte) (rest : List Byte)
  /-- The stream ends inside a command, or is empty (R91). -/
  | incomplete
deriving DecidableEq, Repr

/-- CONFIG's operands from bytes 1 to 13 (R99). -/
def configOfBytes (b1 b2 b3 b4 b5 b6 b7 b8 b9 b10 b11 b12 b13 : Byte) : ConfigOperands where
  bw := b1.extractLsb' 4 4
  sf := b1.extractLsb' 0 4
  cr := b2.extractLsb' 5 3
  iq := b2.getLsbD 4
  fu := b2.getLsbD 3
  swp := b2.getLsbD 2
  rsv := b2.extractLsb' 0 2
  pre := b3
  sw := b4
  plen := b5
  freq := Machine.be32 b6 b7 b8 b9
  tout := Machine.be32 b10 b11 b12 b13

/-- Formats F0, FB, F3, F4, FC and FT (R95 to R100): the command with opcode `op` whose operand bytes come next in `bs`. -/
def decodeOperands (op : Byte) (bs : List Byte) : Decoded :=
  if op = 0x01 then .command .begin bs
  else if op = 0x02 then
    match bs with
    | b1 :: b2 :: b3 :: b4 :: b5 :: b6 :: b7 :: b8 :: b9 :: b10 :: b11 :: b12 :: b13 :: rest =>
      .command (.config (configOfBytes b1 b2 b3 b4 b5 b6 b7 b8 b9 b10 b11 b12 b13)) rest
    | _ => .incomplete
  else if op = 0x03 then
    match bs with
    | b :: rest => .command (.setBwCr (b.extractLsb' 4 4) (b.extractLsb' 1 3) (b.extractLsb' 0 1)) rest
    | [] => .incomplete
  else if op = 0x04 then
    match bs with
    | b :: rest => .command (.setSf b) rest
    | [] => .incomplete
  else if op = 0x05 then
    match bs with
    | b :: rest => .command (.setSync b) rest
    | [] => .incomplete
  else if op = 0x06 then
    match bs with
    | b :: rest => .command (.setPreamble b) rest
    | [] => .incomplete
  else if op = 0x07 then
    match bs with
    | b :: rest => .command (.setPower (b.extractLsb' 4 4) (b.extractLsb' 0 4)) rest
    | [] => .incomplete
  else if op = 0x08 then
    match bs with
    | b1 :: b2 :: b3 :: b4 :: rest => .command (.setFreqHz (Machine.be32 b1 b2 b3 b4)) rest
    | _ => .incomplete
  else if op = 0x09 then
    match bs with
    | b1 :: b2 :: b3 :: rest => .command (.setFreqReg (Machine.be24 b1 b2 b3)) rest
    | _ => .incomplete
  else if op = 0x0A then
    match bs with
    | b1 :: b2 :: b3 :: b4 :: rest => .command (.setRxTimeout (Machine.be32 b1 b2 b3 b4)) rest
    | _ => .incomplete
  else if op = 0x0B then
    match bs with
    | b :: rest => .command (.setHdrCrc (b.extractLsb' 2 6) (b.getLsbD 1) (b.getLsbD 0)) rest
    | [] => .incomplete
  else if op = 0x0C then
    match bs with
    | b :: rest => .command (.setMode b) rest
    | [] => .incomplete
  else if op = 0x10 then
    match bs with
    | l :: rest =>
      if l.toNat ≤ rest.length then .command (.tx (rest.take l.toNat)) (rest.drop l.toNat) else .incomplete
    | [] => .incomplete
  else if op = 0x11 then .command .armRx bs
  else if op = 0x20 then .command .getStats bs
  else if op = 0x21 then .command .getFei bs
  else if op = 0x22 then
    match bs with
    | b1 :: b2 :: b3 :: b4 :: rest => .command (.setPpm (Machine.be32 b1 b2 b3 b4)) rest
    | _ => .incomplete
  else .illegalOpcode op bs

/-- The command at the head of a byte stream: byte 0 alone selects the operation (R92). -/
def decode (bs : List Byte) : Decoded :=
  match bs with
  | [] => .incomplete
  | op :: rest => decodeOperands op rest

/-- Byte 2 of CONFIG (R99): CR, IQ, FU, SWP and the reserved bits. -/
def configByte2 (o : ConfigOperands) : Byte :=
  o.cr ++ BitVec.ofBool o.iq ++ BitVec.ofBool o.fu ++ BitVec.ofBool o.swp ++ o.rsv

/-- The bytes of a command (R95 to R100). -/
def encode : Instr → List Byte
  | .begin => [0x01]
  | .config o => [0x02, o.bw ++ o.sf, configByte2 o, o.pre, o.sw, o.plen] ++ Machine.bytes32 o.freq ++ Machine.bytes32 o.tout
  | .setBwCr bw cr rsv => [0x03, bw ++ cr ++ rsv]
  | .setSf sf => [0x04, sf]
  | .setSync sw => [0x05, sw]
  | .setPreamble pre => [0x06, pre]
  | .setPower rsv pwr => [0x07, rsv ++ pwr]
  | .setFreqHz hz => 0x08 :: Machine.bytes32 hz
  | .setFreqReg frf => 0x09 :: Machine.bytes24 frf
  | .setRxTimeout us => 0x0A :: Machine.bytes32 us
  | .setHdrCrc rsv hdr crc => [0x0B, rsv ++ BitVec.ofBool hdr ++ BitVec.ofBool crc]
  | .setMode mode => [0x0C, mode]
  | .tx data => 0x10 :: BitVec.ofNat 8 data.length :: data
  | .armRx => [0x11]
  | .getStats => [0x20]
  | .getFei => [0x21]
  | .setPpm off => 0x22 :: Machine.bytes32 off

/-- The length in bytes that Table 5 gives a command (R93). -/
def tableLength : Instr → Nat
  | .begin => 1
  | .config _ => 14
  | .setBwCr _ _ _ => 2
  | .setSf _ => 2
  | .setSync _ => 2
  | .setPreamble _ => 2
  | .setPower _ _ => 2
  | .setFreqHz _ => 5
  | .setFreqReg _ => 4
  | .setRxTimeout _ => 5
  | .setHdrCrc _ _ _ => 2
  | .setMode _ => 2
  | .tx data => 2 + data.length
  | .armRx => 1
  | .getStats => 1
  | .getFei => 1
  | .setPpm _ => 5

/-- The commands a pseudo-instruction stands for (R117). CONFIG_KEEPSYNC is CONFIG with SWP = 0 and SW = 0 (R116). -/
def expandPseudo : Pseudo → List Instr
  | .configKeepSync bw sf cr fu freq pre iq plen tout => [.config ⟨bw, sf, cr, iq, fu, false, 0, pre, 0, plen, freq, tout⟩]
  | .standby => [.setMode 1]
  | .sleep => [.setMode 0]
  | .rxContinuous => [.setRxTimeout 0, .armRx]
  | .rxSingle us => [.setRxTimeout us, .armRx]

/-- The longest command: TX with 255 payload bytes (R100). -/
def longestCommand : Nat := 257

/-- The bytes of the little-endian number `w`, `n` of them: byte k is bits 8k+7 down to 8k. -/
def numberBytes : Nat → Nat → List Byte
  | 0, _ => []
  | n + 1, w => BitVec.ofNat 8 w :: numberBytes n (w / 256)

/-- An instruction of `nbits` bits numbered as spec/opcode_table.json numbers them, laid out as the command stream carries it, with
zero bytes up to the longest command. -/
def tableWordBytes (nbits w : Nat) : List Byte :=
  numberBytes (nbits / 8) w ++ List.replicate (longestCommand - nbits / 8) 0

/-- The command the decoder reads from an instruction numbered as spec/opcode_table.json numbers it. -/
def decodeTableWord (nbits w : Nat) : Option Instr :=
  match decode (tableWordBytes nbits w) with
  | .command i _ => some i
  | .illegalOpcode _ _ => none
  | .incomplete => none

end Sys2Proof
end

