-- ==== Sys2Proof/Machine/Arith.lean ====
section
/-! DEFINITION. The arithmetic of the commands, in mathematical integers (00_scope.md R10): register bytes (20_memory.md R75,
40_config.md R136, R144), the applied frequency (R149), the sync-word substitution (R140), the symbol timeout (R146), and the telemetry formulas
(43_telemetry.md R196 to R200). -/

namespace Sys2Proof.Machine

/-- The REG_OP_MODE byte for a mode (20_memory.md R75). -/
def opModeByte (c : Config) (m : Mode) : Byte := c.opModeBase ||| m.code.zeroExtend 8

/-- The REG_MODEM_CONFIG_1 byte: Bw in 7:4, CodingRate in 3:1, ImplicitHeaderModeOn in 0 (40_config.md R136). -/
def modemConfig1Byte (bw : BitVec 4) (cr : BitVec 3) (implicit : Bool) : Byte := bw ++ cr ++ BitVec.ofBool implicit

/-- The REG_PA_CONFIG byte (40_config.md R144). -/
def paConfigByte (c : Config) (pwr : BitVec 4) : Byte :=
  (if c.paBoost then c.paCfgBoost else c.paCfgRfo) ||| pwr.zeroExtend 8

/-- What FREQ_HZ receives for a frequency in register units (40_config.md R149): RegToHz, where it fits FREQ_HZ's 32 bits. Where it
does not, the spec states no value: a free value takes its place, and nothing else of the command changes. DESIGN CHOICE (log 29).
With the machine's parameters it always fits. -/
def appliedHz (c : Config) (frf : BitVec 24) : BitVec 32 :=
  let hz := regToHz c frf.toNat
  if hz < 2 ^ 32 then BitVec.ofNat 32 hz else Config.freeHz hz

/-- A one-bit field value. -/
def bitField (b : Bool) : Byte := (BitVec.ofBool b).zeroExtend 8

/-- The spreading-factor field value, SF then TxContinuousMode = 0 (40_config.md R138). -/
def spreadingField (sf : BitVec 4) : Byte := (sf ++ (0 : BitVec 1)).zeroExtend 8

/-- The loop of SetSyncWord (40_config.md R140): step up, wrapping at 8 bits, until the word is permitted; at most `fuel` steps.
An empty allow-list, for which the spec's loop has no end, is left after the last step (log 13). -/
def syncScan (allowed : List Byte) : Nat → Byte → Byte
  | 0, w => w
  | fuel + 1, w => if w ∈ allowed then w else syncScan allowed fuel (w + 1)

/-- The sync word SetSyncWord programs for a request (40_config.md R140): 256 steps pass every byte. -/
def syncSubstitute (allowed : List Byte) (req : Byte) : Byte := syncScan allowed 256 req

/-- The symbol duration in microseconds (40_config.md R146). -/
def symbolUs (c : Config) (sf bw : BitVec 4) : Nat := 2 ^ sf.toNat * 1000000 / c.bwHz.getD bw.toNat 0

/-- The symbol count for a non-zero timeout, clamped to 1 to 1023 (40_config.md R146). -/
def symbolCount (c : Config) (sf bw : BitVec 4) (us : BitVec 32) : BitVec 10 :=
  BitVec.ofNat 10 (min 1023 (max 1 (us.toNat / symbolUs c sf bw)))

/-- The RSSI in dBm from the raw SNR and RSSI bytes (43_telemetry.md R196). -/
def rssiOf (c : Config) (s r : Byte) : Int :=
  if s.toInt < 0 then c.rssiOffset + r.toNat + s.toInt else c.rssiOffset + r.toNat

/-- FeiDecode (43_telemetry.md R198): bits 7:4 of the first byte are ignored; the 20-bit value is two's complement. -/
def feiDecode (b0 b1 b2 : Byte) : Int :=
  let raw20 : BitVec 20 := b0.extractLsb' 0 4 ++ b1 ++ b2
  raw20.toInt

/-- The frequency error in Hz (43_telemetry.md R197): both shifts are arithmetic. -/
def feiHz (c : Config) (bw : BitVec 4) (fei : Int) : Int := ((fei >>> (3 : Nat)) * c.feiNorm.getD bw.toNat 0) >>> (4 : Nat)

/-- sat_S8 (00_scope.md R10). -/
def satS8 (v : Int) : Int := min 127 (max (-128) v)

/-- PpmFromHz (43_telemetry.md R200): one exact quotient, truncated toward zero, then saturated. -/
def ppmFromHz (c : Config) (off : Int) (f : Nat) : Int := satS8 (Int.tdiv (off * 1000000 * c.ppmNum) (f * c.ppmDen))

end Sys2Proof.Machine
end

