-- ==== Sys2Proof/Machine/State.lean ====
section
/-! DEFINITION. The state of the RCTB (10_state.md), the reasons a run can stop, and the state at reset (R50, R251). -/

namespace Sys2Proof.Machine

/-- The architectural state (10_state.md R21), the observation (20_memory.md R61, 30_encoding.md R114, R115) and the inputs
the outside world has laid out (log 2, log 3, log 11). -/
structure State where
  /-- CUR_MODE, R22. -/
  curMode : Mode
  /-- CUR_BW, R23: 0 to 9, or INVALID = 0xF. -/
  curBw : BitVec 4
  /-- CUR_CR, R24: 1 to 4, or INVALID = 0. -/
  curCr : BitVec 3
  /-- CUR_SF, R25: 6 to 12, or INVALID = 0. -/
  curSf : BitVec 4
  /-- CUR_PRE, R26. -/
  curPre : Cache 8
  /-- CUR_SYNC, R27. -/
  curSync : Cache 8
  /-- CUR_PWR, R28. -/
  curPwr : Cache 4
  /-- PAYLOAD_LEN, R29. -/
  payloadLen : Byte
  /-- IQ_INVERT, R30. -/
  iqInvert : Bool
  /-- HEADER_EXPL, R31. -/
  headerExpl : Bool
  /-- CRC_EN, R32. -/
  crcEn : Bool
  /-- TIMEOUT_SYMBOLS, R33. -/
  timeoutSymbols : BitVec 10
  /-- FREQ_HZ, R34. -/
  freqHz : BitVec 32
  /-- FREQ_REG, R35. -/
  freqReg : BitVec 24
  /-- LAST_RSSI, R36, signed. -/
  lastRssi : BitVec 16
  /-- LAST_SNR, R37, signed. -/
  lastSnr : BitVec 8
  /-- LAST_FEI_HZ, R38, signed. -/
  lastFeiHz : BitVec 32
  /-- LAST_PPM, R39, signed. -/
  lastPpm : BitVec 8
  /-- RX_BUF, R40: addresses 0 to 255. -/
  rxBuf : Memory
  /-- DETECTED, R41. -/
  detected : Bool
  /-- STATUS, R42. -/
  status : Status
  /-- SEQ, R43. -/
  seq : Seq
  /-- IRQ_PENDING, R44. -/
  irqPending : Bool
  /-- IN_DISPATCH, R45 (`isSome`), and the dispatch's next micro-operation. -/
  dispatch : Option Phase
  /-- FAULT_ABORT, R46: model-only and sticky. -/
  faultAbort : Bool
  /-- The command stream: bytes the host has sent and SEQ has not consumed, the next one first (30_encoding.md R91). -/
  cmdStream : List Byte
  /-- The response stream, oldest first (R114). -/
  responses : List Response
  /-- The event stream, oldest first (R115). -/
  events : List Event
  /-- The port trace, oldest first (20_memory.md R61). -/
  trace : List PortOp
  /-- Whether the interrupt line is asserted at each interleaving point to come (60_exceptions.md R221, R222; log 2). -/
  irqLine : List Bool
  /-- The bytes the chip will answer to the reads to come (00_scope.md R15; log 3). -/
  chipReads : List Byte
  /-- MODEL's own: how many read bytes the opaque oracle has answered (log 3). -/
  draws : Nat
deriving DecidableEq, Repr

/-- Why a run stops with a fault. -/
inductive Fault where
  /-- RX_BUF was read at an address in 0 to 255 that no receive completion has written (10_state.md R40: "A model that reads an
  unwritten byte faults"). Raised by `State.readRxBuf` only, which no command calls. Safe. -/
  | rxBufUnwritten (a : Nat)
  /-- RX_BUF was read outside 0 to 255, where it has no byte (R40). Raised by `State.readRxBuf` only. Safe. -/
  | rxBufNoSuchByte (a : Nat)
deriving DecidableEq, Repr

/-- Why an instruction has no meaning. -/
inductive Refusal where
  /-- Raised by an arm of `exec` for a command that has no meaning yet. Safe. (Every command has one.) -/
  | notModelled (mnemonic : String)
deriving DecidableEq, Repr

/-- What one step, or one command, answers. -/
abbrev Result := Host.Outcome State Fault Refusal

/-- The RCTB with the parameters `c` right after reset (10_state.md R50, 70_reset_and_hazards.md R251, R252): PAYLOAD_LEN is
P_PAYLOAD_DEFAULT (R29). The streams and the trace are empty, and the outside world has laid out nothing (log 11, log 18). -/
def State.resetWith (c : Config) : State where
  curMode := .unknown
  curBw := 0xF
  curCr := 0
  curSf := 0
  curPre := ⟨false, 0⟩
  curSync := ⟨false, 0⟩
  curPwr := ⟨false, 0⟩
  payloadLen := c.payloadDefault
  iqInvert := false
  headerExpl := false
  crcEn := false
  timeoutSymbols := 0
  freqHz := 0
  freqReg := 0
  lastRssi := 0
  lastSnr := 0
  lastFeiHz := 0
  lastPpm := 0
  rxBuf := []
  detected := false
  status := .ok
  seq := .idle
  irqPending := false
  dispatch := none
  faultAbort := false
  cmdStream := []
  responses := []
  events := []
  trace := []
  irqLine := []
  chipReads := []
  draws := 0

/-- The machine right after reset: with the default parameters (log 5, log 28). -/
def State.reset : State := State.resetWith config

end Sys2Proof.Machine
end

