-- ==== Sys2Proof/Machine/Flags.lean ====
section
/-! DEFINITION. The conditions the machine decides by: the flags of the chip's interrupt byte (10_state.md R47), the guards of the
dispatch (60_exceptions.md R225 to R227), the elisions (40_config.md R136 to R144), the FAULT_ABORT condition (10_state.md R46), and
the readiness and state checks of a command (60_exceptions.md R220, checks 3 and 4). -/

namespace Sys2Proof.Machine

/-- SEQ.IDLE (10_state.md R43). -/
def Seq.isIdle : Seq → Bool
  | .idle => true
  | .busy _ _ _ => false

/-- IN_DISPATCH (10_state.md R45). -/
def State.inDispatch (s : State) : Bool := s.dispatch.isSome

/-- No command and no dispatch in progress: the state is at a command boundary. -/
def State.atRest (s : State) : Bool := s.seq.isIdle && !s.inDispatch

/-- TX_DONE is set in the flags byte (R47). -/
def txDoneFlag (c : Config) (flags : Byte) : Bool := flags.getLsbD c.txDoneBit

/-- RX_DONE is set in the flags byte (R47). -/
def rxDoneFlag (c : Config) (flags : Byte) : Bool := flags.getLsbD c.rxDoneBit

/-- The guard of TX_COMPLETION (60_exceptions.md R225, R226). -/
def txGuard (c : Config) (flags : Byte) (s : State) : Bool := txDoneFlag c flags && decide (s.curMode = .transmit)

/-- The guard of RX_COMPLETION (60_exceptions.md R225, R226). -/
def rxGuard (c : Config) (flags : Byte) (s : State) : Bool := rxDoneFlag c flags && s.curMode.isReceive

/-- A cached register already holds `v`. -/
def Cache.holds {w : Nat} (k : Cache w) (v : BitVec w) : Bool := k.valid && decide (k.val = v)

/-- The elision of SetBandwidthCodingRate (40_config.md R136). -/
def bwCrElided (bw : BitVec 4) (cr : BitVec 3) (s : State) : Bool := decide (s.curBw = bw) && decide (s.curCr = cr)

/-- SetMode's step 2 aborts a transmit in flight (10_state.md R46, 41_mode.md R171). -/
def abortsTransmit (m : Mode) (s : State) : Bool := decide (s.curMode = .transmit) && decide (m ≠ .transmit)

/-- Check 3 of R220: DETECTED = 1, or the command is BEGIN, which needs no detection (R217). -/
def readyFor (i : Instr) (s : State) : Bool := s.detected || decide (i = .begin)

/-- Check 4 of R220 for SET_RX_TIMEOUT (40_config.md R147). -/
def rxTimeoutCheck (us : BitVec 32) (s : State) : Option Status :=
  if us ≠ 0 ∧ (s.curSf = sfInvalid ∨ s.curBw = bwInvalid) then some .unconfigured else none

/-- Check 4 of R220 for GET_FEI (43_telemetry.md R197). -/
def feiCheck (s : State) : Option Status := if s.curBw = bwInvalid then some .unconfigured else none

/-- Check 4 of R220 for SET_PPM (43_telemetry.md R199). -/
def ppmCheck (s : State) : Option Status := if s.freqHz = 0 then some .freqZero else none

end Sys2Proof.Machine
end

