-- ==== Sys2Proof/Machine/Ops.lean ====
section
/-! DEFINITION. The named operations over the state: RX_BUF, the port trace, the oracle, register writes, the interrupt line, entering
and leaving the dispatch, and ending or rejecting a command. -/

namespace Sys2Proof.Machine

/-- The canonical form: addresses strictly rising (log 10). -/
def Memory.wf (m : Memory) : Bool := decide (m.Pairwise (fun x y => x.1 < y.1))

/-- The byte at an address, or none where nothing has written it. -/
def Memory.read : Memory → Nat → Option Byte
  | [], _ => none
  | (a, b) :: rest, k => if k = a then some b else Memory.read rest k

/-- Write one byte, keeping the addresses rising. -/
def Memory.write : Memory → Nat → Byte → Memory
  | [], k, v => [(k, v)]
  | (a, b) :: rest, k, v =>
    if k < a then (k, v) :: (a, b) :: rest
    else if k = a then (k, v) :: rest
    else (a, b) :: Memory.write rest k v

/-- Write bytes at rising addresses from `k`. -/
def Memory.writeBytes (m : Memory) (k : Nat) : List Byte → Memory
  | [] => m
  | b :: bs => Memory.writeBytes (m.write k b) (k + 1) bs

/-- Read RX_BUF[a] (10_state.md R40): an unwritten byte faults. No command does this; it is how a claim, or an observer of the
model, looks at the buffer. -/
def State.readRxBuf (s : State) (a : Nat) : Host.Outcome Byte Fault Refusal :=
  if 256 ≤ a then .fault (.rxBufNoSuchByte a)
  else
    match s.rxBuf.read a with
    | some b => .next b
    | none => .fault (.rxBufUnwritten a)

/-- Append a transaction to the port trace (20_memory.md R61). -/
def State.record (s : State) (t : PortOp) : State := { s with trace := s.trace ++ [t] }

/-- Emit an event (30_encoding.md R115). -/
def State.emit (s : State) (e : Event) : State := { s with events := s.events ++ [e] }

/-- One byte from the chip (00_scope.md R15): the next answer the environment has laid out, or the oracle's (log 3). -/
def State.nextByte (s : State) : Byte :=
  match s.chipReads with
  | b :: _ => b
  | [] => Config.oracleByte s.draws

/-- The state after one byte has been drawn. -/
def State.drawOne (s : State) : State :=
  match s.chipReads with
  | _ :: rest => { s with chipReads := rest }
  | [] => { s with draws := s.draws + 1 }

/-- The next `n` bytes from the chip, in order. -/
def State.nextBytes : Nat → State → List Byte
  | 0, _ => []
  | n + 1, s => s.nextByte :: State.nextBytes n s.drawOne

/-- The state after `n` bytes have been drawn. -/
def State.drawMany : Nat → State → State
  | 0, s => s
  | n + 1, s => State.drawMany n s.drawOne

/-- One register write of the foreground: one indivisible micro-operation (20_memory.md R80). -/
def RegWrite.apply (w : RegWrite) (s : State) : State :=
  match w with
  | .curBw v => { s with curBw := v }
  | .curCr v => { s with curCr := v }
  | .curSf v => { s with curSf := v }
  | .curPre v => { s with curPre := ⟨true, v⟩ }
  | .curSync v => { s with curSync := ⟨true, v⟩ }
  | .curPwr v => { s with curPwr := ⟨true, v⟩ }
  | .payloadLen v => { s with payloadLen := v }
  | .iqInvert v => { s with iqInvert := v }
  | .headerExpl v => { s with headerExpl := v }
  | .crcEn v => { s with crcEn := v }
  | .timeoutSymbols v => { s with timeoutSymbols := v }
  | .freqHz v => { s with freqHz := v }
  | .freqReg v => { s with freqReg := v }
  | .lastRssi v => { s with lastRssi := v }
  | .lastSnr v => { s with lastSnr := v }
  | .lastFeiHz v => { s with lastFeiHz := v }
  | .lastPpm v => { s with lastPpm := v }
  | .detected v => { s with detected := v }

/-- One interleaving point (60_exceptions.md R222): the interrupt line is sampled. An assertion sets IRQ_PENDING while DETECTED = 1
and is dropped while DETECTED = 0 (10_state.md R44). Past the end of `irqLine` there is no assertion (log 2). -/
def State.sampleIrq (s : State) : State :=
  match s.irqLine with
  | [] => s
  | asserted :: rest => { s with irqLine := rest, irqPending := s.irqPending || (asserted && s.detected) }

/-- TAKING THE INTERRUPT (60_exceptions.md R223): IN_DISPATCH <- 1 and IRQ_PENDING <- 0 in one step; nothing is saved, and control goes
to the dispatch sequence's first micro-operation (R225). -/
def State.enterDispatch (s : State) : State := { s with dispatch := some .readFlags, irqPending := false }

/-- The return (60_exceptions.md R231): IN_DISPATCH <- 0; nothing is restored. -/
def State.leaveDispatch (s : State) : State := { s with dispatch := none }

/-- The end of a command: STATUS and the response in one micro-operation (10_state.md R42, 30_encoding.md R114; log 9), and the
sequencer is idle again (10_state.md R43). -/
def State.respond (s : State) (st : Status) (result : List Byte) : State :=
  { s with status := st, responses := s.responses ++ [⟨st, result⟩], seq := .idle }

/-- A rejection (30_encoding.md R113, 60_exceptions.md R216): STATUS and a one-byte response, and nothing else (log 8). -/
def State.reject (s : State) (st : Status) : State :=
  { s with status := st, responses := s.responses ++ [⟨st, []⟩] }

/-- SetMode's step 2 (41_mode.md R171): FAULT_ABORT if a transmit is left, then the write of REG_OP_MODE. -/
def State.writeOpMode (c : Config) (m : Mode) (s : State) : State :=
  { s with
    faultAbort := s.faultAbort || abortsTransmit m s
    trace := s.trace ++ [.write c.regs.opMode (opModeByte c m)] }

end Sys2Proof.Machine
end

