-- ==== Sys2Proof/Machine/Procedures.lean ====
section
/-! DEFINITION. The internal procedures of 40_config.md and 42_txrx.md: each gives the tasks the sequencer goes on with, decided from
the registers as they stand when the procedure is reached. -/

namespace Sys2Proof.Machine

/-- ERRATA_HBW(bw), 40_config.md R133. -/
def errataTasks (c : Config) (bw : BitVec 4) : List Task :=
  if bw = 9 then [.portWrite c.regs.highBwOpt1 c.hbw1At500, .portWrite c.regs.highBwOpt2 c.hbw2At500]
  else [.portWrite c.regs.highBwOpt1 c.hbw1Default]

/-- BASELINE(pre, sw), 40_config.md R134. The errata step uses CUR_BW as it stands here. -/
def baselineTasks (c : Config) (pre sw : Byte) (s : State) : List Task :=
  [.modeCheck .standby,
    .portWrite c.regs.payloadLength s.payloadLen,
    .portWrite c.regs.fifoTxBaseAddr c.fifoTxBase,
    .portWrite c.regs.fifoRxBaseAddr c.fifoRxBase,
    .fieldWrite c.regs.lna c.fields.lnaBoost c.lnaBoostOn,
    .fieldWrite c.regs.modemConfig3 c.fields.agc c.agcOn,
    .call (.errata s.curBw),
    .call (.setPreamble pre),
    .call (.setSync sw),
    .fieldWrite c.regs.invertIq c.fields.iqInvert (bitField s.iqInvert)]

/-- SetBandwidthCodingRate(bw, cr), 40_config.md R136: at SF 6 the header is implicit and the CRC off, whatever the caller prefers. -/
def bwCrTasks (c : Config) (bw : BitVec 4) (cr : BitVec 3) (s : State) : List Task :=
  if bwCrElided bw cr s then []
  else if s.curSf = 6 then
    [.portWrite c.regs.modemConfig1 (modemConfig1Byte bw cr true),
      .fieldWrite c.regs.modemConfig2 c.fields.rxCrc (bitField false),
      .call (.errata bw), .regWrite (.curCr cr), .regWrite (.curBw bw)]
  else
    [.portWrite c.regs.modemConfig1 (modemConfig1Byte bw cr (!s.headerExpl)),
      .fieldWrite c.regs.modemConfig2 c.fields.rxCrc (bitField s.crcEn),
      .call (.errata bw), .regWrite (.curCr cr), .regWrite (.curBw bw)]

/-- SetSpreadingFactor(sf), 40_config.md R138. -/
def sfTasks (c : Config) (sf : BitVec 4) (s : State) : List Task :=
  if s.curSf = sf then []
  else if sf = 6 then
    [.fieldWrite c.regs.modemConfig2 c.fields.spreading (spreadingField sf),
      .fieldWrite c.regs.detectOptimize c.fields.detectOptimize c.detOptSf6,
      .portWrite c.regs.detectionThreshold c.detThrSf6, .regWrite (.curSf sf)]
  else
    [.fieldWrite c.regs.modemConfig2 c.fields.spreading (spreadingField sf),
      .fieldWrite c.regs.detectOptimize c.fields.detectOptimize c.detOptSf7to12,
      .portWrite c.regs.detectionThreshold c.detThrSf7to12, .regWrite (.curSf sf)]

/-- SetSyncWord(req), 40_config.md R140: the substitution is logged even when the write is elided. -/
def syncTasks (c : Config) (req : Byte) (s : State) : List Task :=
  let w := syncSubstitute c.syncAllowed req
  (if w ≠ req then [.emit (.syncSubst req w)] else [])
    ++ (if s.curSync.holds w then [] else [.portWrite c.regs.syncWord w, .regWrite (.curSync w)])

/-- SetPreambleLength(n), 40_config.md R142: REG_PREAMBLE_MSB is never written. -/
def preambleTasks (c : Config) (n : Byte) (s : State) : List Task :=
  if s.curPre.holds n then [] else [.portWrite c.regs.preambleLsb n, .regWrite (.curPre n)]

/-- The body of SET_POWER, 40_config.md R144: the elision comes before the forced STANDBY. -/
def powerTasks (c : Config) (pwr : BitVec 4) (s : State) : List Task :=
  if s.curPwr.holds pwr then []
  else [.modeCheck .standby, .portWrite c.regs.paConfig (paConfigByte c pwr), .regWrite (.curPwr pwr)]

/-- SetRxTimeoutUs(us), 40_config.md R146: a non-zero interval always writes both registers. -/
def rxTimeoutTasks (c : Config) (us : BitVec 32) (s : State) : List Task :=
  if us = 0 then [.regWrite (.timeoutSymbols 0)]
  else
    let n := symbolCount c s.curSf s.curBw us
    [.portWrite c.regs.symbTimeoutLsb (n.extractLsb' 0 8),
      .fieldWrite c.regs.modemConfig2 c.fields.symbTimeoutHigh ((n.extractLsb' 8 2).zeroExtend 8),
      .regWrite (.timeoutSymbols n)]

/-- SetFrequencyHz(hz), 40_config.md R148. -/
def freqHzTasks (c : Config) (hz : BitVec 32) : List Task :=
  let frf := BitVec.ofNat 24 (freqToReg c hz.toNat)
  [.modeCheck .standby, .burstWrite c.regs.frfMsb (bytes24 frf), .regWrite (.freqHz hz), .regWrite (.freqReg frf)]

/-- SetFrequencyReg(frf), 40_config.md R149. A RegToHz beyond 32 bits is a free value (log 29). -/
def freqRegTasks (c : Config) (frf : BitVec 24) : List Task :=
  [.modeCheck .standby, .burstWrite c.regs.frfMsb (bytes24 frf), .regWrite (.freqReg frf),
    .regWrite (.freqHz (appliedHz c frf))]

/-- The last step of ARM_RX, 42_txrx.md R182. -/
def armModeTasks (s : State) : List Task :=
  if s.timeoutSymbols ≠ 0 then [.modeCheck .rxSingle] else [.modeCheck .rxContinuous]

/-- What a procedure call goes on with. -/
def Proc.tasks (c : Config) (p : Proc) (s : State) : List Task :=
  match p with
  | .errata bw => errataTasks c bw
  | .baseline pre sw => baselineTasks c pre sw s
  | .setBwCr bw cr => bwCrTasks c bw cr s
  | .setSf sf => sfTasks c sf s
  | .setSync req => syncTasks c req s
  | .setPreamble n => preambleTasks c n s
  | .setPower pwr => powerTasks c pwr s
  | .setRxTimeout us => rxTimeoutTasks c us s
  | .setFreqHz hz => freqHzTasks c hz
  | .setFreqReg frf => freqRegTasks c frf
  | .armMode => armModeTasks s

/-- BEGIN after a successful probe, 40_config.md R131. -/
def detectedTasks (c : Config) : List Task :=
  [.regWrite (.detected true), .modeCheck .sleep, .call (.baseline c.preambleDefault c.syncDefault), .respond .ok []]

/-- BEGIN after the last failed probe, 40_config.md R131. -/
def notDetectedTasks : List Task := [.regWrite (.detected false), .respond .notDetected []]

/-- What BEGIN goes on with after attempt `i` answered `v`, 40_config.md R131. -/
def afterProbeTasks (c : Config) (i : Nat) (v : Byte) : List Task :=
  if v = c.chipId then detectedTasks c
  else if i < c.probeTries then [.delay c.probeDelayMs, .probe (i + 1)]
  else notDetectedTasks

/-- What GET_STATS goes on with after the burst answered `b` (43_telemetry.md R196): b[0] is the SNR byte, b[1] the RSSI byte. -/
def afterStatsTasks (c : Config) (b : List Byte) : List Task :=
  let snr := b.getD 0 0
  let rssi := BitVec.ofInt 16 (rssiOf c snr (b.getD 1 0))
  [.regWrite (.lastSnr snr), .regWrite (.lastRssi rssi), .respond .ok (bytes16 rssi ++ [snr])]

/-- What GET_FEI goes on with after the burst answered `b` (43_telemetry.md R197). -/
def afterFeiTasks (c : Config) (b : List Byte) (s : State) : List Task :=
  let hz := BitVec.ofInt 32 (feiHz c s.curBw (feiDecode (b.getD 0 0) (b.getD 1 0) (b.getD 2 0)))
  [.regWrite (.lastFeiHz hz), .respond .ok (bytes32 hz)]

end Sys2Proof.Machine
end

