-- ==== Sys2Proof/Machine/Sequencer.lean ====
section
/-! DEFINITION. One micro-operation at a time: the foreground's (20_memory.md R80), the dispatch's (60_exceptions.md R225), the choice
between them (R222), and the run to the next command boundary. -/

namespace Sys2Proof.Machine

/-- The state after the foreground has done a micro-operation and goes on with `next`: SEQ.STEP counts it (log 7). -/
def State.advance (s : State) (cmd : Instr) (step : Nat) (next : List Task) : State :=
  { s with seq := .busy cmd (step + 1) next }

/-- The foreground's next action, `t`, with `rest` after it. A procedure call is no micro-operation (log 6). -/
def foreground (c : Config) (cmd : Instr) (step : Nat) (t : Task) (rest : List Task) (s : State) : State :=
  match t with
  | .portWrite a v => (s.record (.write a v)).advance cmd step rest
  | .fieldWrite a p f => (s.record (.field a p.msb p.lsb f)).advance cmd step rest
  | .burstWrite a bytes => (s.record (.burstWrite a bytes)).advance cmd step rest
  | .fifoWrite bytes => (s.record (.fifoWrite bytes)).advance cmd step rest
  | .txEnable => (s.record .txEnable).advance cmd step rest
  | .rxEnable => (s.record .rxEnable).advance cmd step rest
  | .delay ms => (s.record (.delay ms)).advance cmd step rest
  | .probe i =>
    (s.drawOne.record (.read c.regs.version s.nextByte)).advance cmd step (afterProbeTasks c i s.nextByte ++ rest)
  | .readStats =>
    let b := s.nextBytes 2
    ((s.drawMany 2).record (.burstRead c.regs.pktSnrValue 2 b)).advance cmd step (afterStatsTasks c b ++ rest)
  | .readFei =>
    let b := s.nextBytes 3
    ((s.drawMany 3).record (.burstRead c.regs.feiMsb 3 b)).advance cmd step (afterFeiTasks c b s ++ rest)
  | .regWrite w => (w.apply s).advance cmd step rest
  | .modeCheck m =>
    if m = s.curMode then s.advance cmd step rest else s.advance cmd step (.modeWrite m :: .modeCache m :: rest)
  | .modeWrite m => (s.writeOpMode c m).advance cmd step rest
  | .modeCache m => { s with curMode := m }.advance cmd step rest
  | .emit e => (s.emit e).advance cmd step rest
  | .respond st result => s.respond st result
  | .call p => { s with seq := .busy cmd step (p.tasks c s ++ rest) }

/-- The foreground's turn: nothing to do when idle. A command whose tasks have run out without a response does not arise; it ends. -/
def foregroundStep (c : Config) (s : State) : State :=
  match s.seq with
  | .idle => s
  | .busy _ _ [] => { s with seq := .idle }
  | .busy cmd step (t :: rest) => foreground c cmd step t rest s

/-- Where the dispatch goes after the TX check (60_exceptions.md R225): the RX guard reads CUR_MODE as it stands then (R227). -/
def afterTxPhase (c : Config) (flags : Byte) (s : State) : Phase := if rxGuard c flags s then .rxRead else .leave

/-- Where the dispatch goes after the clear-all write (R225): the TX check comes first. -/
def afterClearPhase (c : Config) (flags : Byte) (s : State) : Phase :=
  if txGuard c flags s then .txDisable flags else afterTxPhase c flags s

/-- One micro-operation of the dispatch (60_exceptions.md R224, R229, R230, R231). It does not touch SEQ (R223). -/
def dispatchStep (c : Config) (ph : Phase) (s : State) : State :=
  match ph with
  | .readFlags => { s.drawOne.record (.read c.regs.irqFlags s.nextByte) with dispatch := some (.clearFlags s.nextByte) }
  | .clearFlags flags =>
    { s.record (.write c.regs.irqFlags 0xFF) with dispatch := some (afterClearPhase c flags s) }
  | .txDisable flags => { s.record .pathsDisable with dispatch := some (.txStandby flags) }
  | .txStandby flags => { s with curMode := .standby, dispatch := some (.txEmit flags) }
  | .txEmit flags => { s.emit .txDone with dispatch := some (afterTxPhase c flags s) }
  | .rxRead =>
    let n := s.payloadLen
    let d := s.nextBytes n.toNat
    { (s.drawMany n.toNat).record (.fifoRead n.toNat d) with dispatch := some (.rxStore n d) }
  | .rxStore n d => { s with rxBuf := s.rxBuf.writeBytes 0 d, dispatch := some (.rxStandby n d) }
  | .rxStandby n d =>
    { s with curMode := if s.timeoutSymbols ≠ 0 then .standby else s.curMode, dispatch := some (.rxEmit n d) }
  | .rxEmit n d => { s.emit (.rxDone 0x00 n d) with dispatch := some .leave }
  | .leave => s.leaveDispatch

/-- One step of whichever context has its turn (60_exceptions.md R222): the line is sampled; a dispatch in progress goes on; else a
pending interrupt is taken; else the foreground goes on. -/
def micro (c : Config) (s : State) : State :=
  let s := s.sampleIrq
  match s.dispatch with
  | some ph => dispatchStep c ph s
  | none => if s.irqPending then s.enterDispatch else foregroundStep c s

/-- How many foreground steps a procedure takes at most. -/
def Proc.cost : Proc → Nat
  | .errata _ => 3
  | .baseline _ _ => 20
  | .setBwCr _ _ => 8
  | .setSf _ => 5
  | .setSync _ => 4
  | .setPreamble _ => 3
  | .setPower _ => 6
  | .setRxTimeout _ => 4
  | .setFreqHz _ => 7
  | .setFreqReg _ => 7
  | .armMode => 4

/-- How many foreground steps a task takes at most, what it goes on with included. -/
def Task.cost (c : Config) : Task → Nat
  | .probe i => 26 + 2 * (c.probeTries - i)
  | .readStats => 4
  | .readFei => 3
  | .modeCheck _ => 3
  | .call p => p.cost
  | .portWrite _ _ => 1
  | .fieldWrite _ _ _ => 1
  | .burstWrite _ _ => 1
  | .fifoWrite _ => 1
  | .txEnable => 1
  | .rxEnable => 1
  | .delay _ => 1
  | .regWrite _ => 1
  | .modeWrite _ => 1
  | .modeCache _ => 1
  | .emit _ => 1
  | .respond _ _ => 1

/-- How many foreground steps a list of tasks takes at most. -/
def tasksCost (c : Config) : List Task → Nat
  | [] => 0
  | t :: rest => t.cost c + tasksCost c rest

/-- How many foreground steps the current command still takes at most. -/
def Seq.cost (c : Config) : Seq → Nat
  | .idle => 0
  | .busy _ _ todo => 1 + tasksCost c todo

/-- How many steps a dispatch still takes at most. -/
def Phase.rank : Phase → Nat
  | .leave => 1
  | .rxEmit _ _ => 2
  | .rxStandby _ _ => 3
  | .rxStore _ _ => 4
  | .rxRead => 5
  | .txEmit _ => 6
  | .txStandby _ => 7
  | .txDisable _ => 8
  | .clearFlags _ => 9
  | .readFlags => 10

/-- How many steps the dispatch in progress still takes at most. -/
def dispatchCost : Option Phase → Nat
  | none => 0
  | some ph => ph.rank

/-- A bound on the steps to the next command boundary: the current command, the dispatch in progress, the pending interrupt, and one
dispatch for each assertion still to come (70_reset_and_hazards.md R264, premise W2). -/
def State.bound (c : Config) (s : State) : Nat :=
  s.seq.cost c + dispatchCost s.dispatch + 11 * s.irqPending.toNat + 11 * s.irqLine.length

/-- Steps until the state is at rest, at most `fuel` of them. -/
def settle (c : Config) : Nat → State → State
  | 0, s => s
  | fuel + 1, s => if s.atRest then s else settle c fuel (micro c s)

/-- The run to the next command boundary: the command and every dispatch that preempts it are complete. The bound is enough for every
state (Laws/Progress.lean). -/
def runToRest (c : Config) (s : State) : State := settle c (s.bound c) s

/-- A command (60_exceptions.md R220): checks 1 to 4 in one step, then its micro-operations to the end. `stateCheck` is check 4, `body`
the command's tasks, Respond included. -/
def command (c : Config) (i : Instr) (stateCheck : Option Status) (body : List Task) (s : State) : Result :=
  if operandsLegal c i then
    if readyFor i s then
      match stateCheck with
      | some st => .next (s.reject st)
      | none => .next (runToRest c { s with seq := .busy i 0 body })
    else .next (s.reject .notReady)
  else .next (s.reject .illegalOperand)

end Sys2Proof.Machine
end

