-- ==== Sys2Proof/Machine/ConfigCommands.lean ====
section
/-! DEFINITION. The meanings of the initialisation and configuration commands (40_config.md): BEGIN, CONFIG, SET_BW_CR, SET_SF,
SET_SYNC, SET_PREAMBLE, SET_POWER, SET_FREQ_HZ, SET_FREQ_REG, SET_RX_TIMEOUT, SET_HDR_CRC. -/

namespace Sys2Proof.Machine

/-- BEGIN's tasks (40_config.md R131): the probe loop; with no tries at all it fails at once (log 24). -/
def beginTasks (c : Config) : List Task := if c.probeTries = 0 then notDetectedTasks else [.probe 1]

/-- BEGIN, 40_config.md R131. -/
def beginWith (c : Config) (s : State) : Result := command c .begin none (beginTasks c) s

/-- BEGIN with the machine's parameters. -/
def execBegin (s : State) : Result := beginWith config s

/-- The sync word CONFIG applies (40_config.md R135). -/
def configSync (c : Config) (o : ConfigOperands) (s : State) : Byte :=
  if o.swp then o.sw else if s.curSync.valid then s.curSync.val else c.syncDefault

/-- CONFIG's tasks (40_config.md R135). -/
def configTasks (c : Config) (o : ConfigOperands) (s : State) : List Task :=
  [.modeCheck .standby,
    .regWrite (.payloadLen o.plen),
    .regWrite (.iqInvert o.iq),
    .call (.baseline o.pre (configSync c o s)),
    .call (.setSf o.sf),
    .call (.setBwCr o.bw o.cr),
    .call (if o.fu then .setFreqHz o.freq else .setFreqReg (o.freq.extractLsb' 0 24)),
    .call (.setRxTimeout o.tout),
    .respond .ok []]

/-- CONFIG, 40_config.md R135. -/
def configWith (c : Config) (o : ConfigOperands) (s : State) : Result := command c (.config o) none (configTasks c o s) s

/-- CONFIG with the machine's parameters. -/
def execConfig (o : ConfigOperands) (s : State) : Result := configWith config o s

/-- SET_BW_CR, 40_config.md R137. -/
def setBwCrWith (c : Config) (bw : BitVec 4) (cr : BitVec 3) (rsv : BitVec 1) (s : State) : Result :=
  command c (.setBwCr bw cr rsv) none [.call (.setBwCr bw cr), .respond .ok []] s

/-- SET_BW_CR with the machine's parameters. -/
def execSetBwCr (bw : BitVec 4) (cr : BitVec 3) (rsv : BitVec 1) (s : State) : Result := setBwCrWith config bw cr rsv s

/-- SET_SF, 40_config.md R139: the operand is legal only when it fits CUR_SF's 4 bits. -/
def setSfWith (c : Config) (sf : Byte) (s : State) : Result :=
  command c (.setSf sf) none [.call (.setSf (sf.extractLsb' 0 4)), .respond .ok []] s

/-- SET_SF with the machine's parameters. -/
def execSetSf (sf : Byte) (s : State) : Result := setSfWith config sf s

/-- SET_SYNC, 40_config.md R141. -/
def setSyncWith (c : Config) (sw : Byte) (s : State) : Result :=
  command c (.setSync sw) none [.call (.setSync sw), .respond .ok []] s

/-- SET_SYNC with the machine's parameters. -/
def execSetSync (sw : Byte) (s : State) : Result := setSyncWith config sw s

/-- SET_PREAMBLE, 40_config.md R143. -/
def setPreambleWith (c : Config) (pre : Byte) (s : State) : Result :=
  command c (.setPreamble pre) none [.call (.setPreamble pre), .respond .ok []] s

/-- SET_PREAMBLE with the machine's parameters. -/
def execSetPreamble (pre : Byte) (s : State) : Result := setPreambleWith config pre s

/-- SET_POWER, 40_config.md R144. -/
def setPowerWith (c : Config) (rsv pwr : BitVec 4) (s : State) : Result :=
  command c (.setPower rsv pwr) none [.call (.setPower pwr), .respond .ok []] s

/-- SET_POWER with the machine's parameters. -/
def execSetPower (rsv pwr : BitVec 4) (s : State) : Result := setPowerWith config rsv pwr s

/-- SET_FREQ_HZ, 40_config.md R150. -/
def setFreqHzWith (c : Config) (hz : BitVec 32) (s : State) : Result :=
  command c (.setFreqHz hz) none [.call (.setFreqHz hz), .respond .ok []] s

/-- SET_FREQ_HZ with the machine's parameters. -/
def execSetFreqHz (hz : BitVec 32) (s : State) : Result := setFreqHzWith config hz s

/-- SET_FREQ_REG, 40_config.md R151. -/
def setFreqRegWith (c : Config) (frf : BitVec 24) (s : State) : Result :=
  command c (.setFreqReg frf) none [.call (.setFreqReg frf), .respond .ok []] s

/-- SET_FREQ_REG with the machine's parameters. -/
def execSetFreqReg (frf : BitVec 24) (s : State) : Result := setFreqRegWith config frf s

/-- SET_RX_TIMEOUT, 40_config.md R147. -/
def setRxTimeoutWith (c : Config) (us : BitVec 32) (s : State) : Result :=
  command c (.setRxTimeout us) (rxTimeoutCheck us s) [.call (.setRxTimeout us), .respond .ok []] s

/-- SET_RX_TIMEOUT with the machine's parameters. -/
def execSetRxTimeout (us : BitVec 32) (s : State) : Result := setRxTimeoutWith config us s

/-- SET_HDR_CRC, 40_config.md R145. -/
def setHdrCrcWith (c : Config) (rsv : BitVec 6) (hdr crc : Bool) (s : State) : Result :=
  command c (.setHdrCrc rsv hdr crc) none [.regWrite (.headerExpl hdr), .regWrite (.crcEn crc), .respond .ok []] s

/-- SET_HDR_CRC with the machine's parameters. -/
def execSetHdrCrc (rsv : BitVec 6) (hdr crc : Bool) (s : State) : Result := setHdrCrcWith config rsv hdr crc s

end Sys2Proof.Machine
end

