-- ==== Sys2Proof/Machine/Idle.lean ====
section
/-! DEFINITION. What the machine does at a command boundary besides running a command. -/

namespace Sys2Proof.Machine

/-- An illegal opcode (30_encoding.md R111, 60_exceptions.md R218): its one byte is consumed, the response is ILLEGAL_OPCODE, and `rest`
is read next. -/
def rejectOpcode (rest : List Byte) (s : State) : State := { s.reject .illegalOpcode with cmdStream := rest }

/-- The interrupt schedule with no assertion at the next interleaving point: an assertion that was due there comes one later. -/
def holdLine (q : List Bool) : List Bool :=
  match q with
  | true :: rest => false :: true :: rest
  | q => q

end Sys2Proof.Machine
end

