-- ==== Sys2Proof/Machine/ModeCommands.lean ====
section
/-! DEFINITION. The meaning of SET_MODE (41_mode.md). -/

namespace Sys2Proof.Machine

/-- SET_MODE's tasks (41_mode.md R172); a reserved code has none, and check 2 has rejected it before. -/
def setModeTasks (mode : Byte) : List Task :=
  match modeOfCode mode with
  | some m => [.modeCheck m, .respond .ok []]
  | none => [.respond .illegalOperand []]

/-- SET_MODE, 41_mode.md R172. -/
def setModeWith (c : Config) (mode : Byte) (s : State) : Result := command c (.setMode mode) none (setModeTasks mode) s

/-- SET_MODE with the machine's parameters. -/
def execSetMode (mode : Byte) (s : State) : Result := setModeWith config mode s

end Sys2Proof.Machine
end

