-- ==== Sys2Proof/Machine/TelemetryCommands.lean ====
section
/-! DEFINITION. The meanings of the telemetry commands GET_STATS, GET_FEI and SET_PPM (43_telemetry.md). -/

namespace Sys2Proof.Machine

/-- GET_STATS, 43_telemetry.md R196. -/
def getStatsWith (c : Config) (s : State) : Result := command c .getStats none [.readStats] s

/-- GET_STATS with the machine's parameters. -/
def execGetStats (s : State) : Result := getStatsWith config s

/-- GET_FEI, 43_telemetry.md R197. -/
def getFeiWith (c : Config) (s : State) : Result := command c .getFei (feiCheck s) [.readFei] s

/-- GET_FEI with the machine's parameters. -/
def execGetFei (s : State) : Result := getFeiWith config s

/-- SET_PPM's tasks (43_telemetry.md R199), from FREQ_HZ as it stands at the start (no dispatch writes it). -/
def ppmTasks (c : Config) (off : BitVec 32) (s : State) : List Task :=
  let ppm := BitVec.ofInt 8 (ppmFromHz c off.toInt s.freqHz.toNat)
  [.portWrite c.regs.ppmCorrection ppm, .regWrite (.lastPpm ppm), .respond .ok [ppm]]

/-- SET_PPM, 43_telemetry.md R199. -/
def setPpmWith (c : Config) (off : BitVec 32) (s : State) : Result :=
  command c (.setPpm off) (ppmCheck s) (ppmTasks c off s) s

/-- SET_PPM with the machine's parameters. -/
def execSetPpm (off : BitVec 32) (s : State) : Result := setPpmWith config off s

end Sys2Proof.Machine
end

