-- ==== Sys2Proof/Machine/TxRxCommands.lean ====
section
/-! DEFINITION. The meanings of the pipeline commands TX and ARM_RX (42_txrx.md). -/

namespace Sys2Proof.Machine

/-- TX's tasks (42_txrx.md R181). -/
def txTasks (c : Config) (data : List Byte) : List Task :=
  [.modeCheck .standby, .txEnable, .portWrite c.regs.fifoAddrPtr c.fifoTxBase, .fifoWrite data, .modeCheck .transmit,
    .respond .ok []]

/-- TX, 42_txrx.md R181. -/
def txWith (c : Config) (data : List Byte) (s : State) : Result := command c (.tx data) none (txTasks c data) s

/-- TX with the machine's parameters. -/
def execTx (data : List Byte) (s : State) : Result := txWith config data s

/-- ARM_RX's tasks (42_txrx.md R182): TIMEOUT_SYMBOLS is read at the last step. -/
def armRxTasks (c : Config) : List Task :=
  [.modeCheck .standby, .rxEnable, .portWrite c.regs.fifoAddrPtr c.fifoRxBase, .call .armMode, .respond .ok []]

/-- ARM_RX, 42_txrx.md R182. -/
def armRxWith (c : Config) (s : State) : Result := command c .armRx none (armRxTasks c) s

/-- ARM_RX with the machine's parameters. -/
def execArmRx (s : State) : Result := armRxWith config s

end Sys2Proof.Machine
end

