-- ==== Sys2Proof/Machine/Configured.lean ====
section
/-! DEFINITION. The RCTB with its parameter table as an argument (00_scope.md R7: "A model takes the whole table as a configuration
argument"). `exec`, `step` and `State.reset` are this machine at `Machine.config` (log 28). -/

namespace Sys2Proof.Machine

/-- The meaning of each command (30_encoding.md R93) with the parameters `c`. -/
def execWith (c : Config) (i : Instr) (s : State) : Result :=
  match i with
  | .begin => beginWith c s
  | .config o => configWith c o s
  | .setBwCr bw cr rsv => setBwCrWith c bw cr rsv s
  | .setSf sf => setSfWith c sf s
  | .setSync sw => setSyncWith c sw s
  | .setPreamble pre => setPreambleWith c pre s
  | .setPower rsv pwr => setPowerWith c rsv pwr s
  | .setFreqHz hz => setFreqHzWith c hz s
  | .setFreqReg frf => setFreqRegWith c frf s
  | .setRxTimeout us => setRxTimeoutWith c us s
  | .setHdrCrc rsv hdr crc => setHdrCrcWith c rsv hdr crc s
  | .setMode mode => setModeWith c mode s
  | .tx data => txWith c data s
  | .armRx => armRxWith c s
  | .getStats => getStatsWith c s
  | .getFei => getFeiWith c s
  | .setPpm off => setPpmWith c off s

/-- One step with the parameters `c`, where `run` is the meaning of the commands. A command or a dispatch in progress is completed
(log 22). At a command boundary the interrupt line is sampled, idle being an interleaving point (60_exceptions.md R222); a pending
interrupt is dispatched; else the command at the head of the stream runs (30_encoding.md R91), or an illegal opcode is answered
(R111), or the machine stays idle (log 12). -/
def boundaryStep (c : Config) (run : Instr → State → Result) (s : State) : Result :=
  if s.atRest then
    if s.sampleIrq.irqPending then .next (runToRest c s.sampleIrq.enterDispatch)
    else
      match decode s.sampleIrq.cmdStream with
      | .command i rest => run i { s.sampleIrq with cmdStream := rest }
      | .illegalOpcode _ rest => .next (rejectOpcode rest s.sampleIrq)
      | .incomplete => .next s.sampleIrq
  else .next (runToRest c s)

/-- One step of the RCTB with the parameters `c`. -/
def stepWith (c : Config) (s : State) : Result := boundaryStep c (execWith c) s

/-- The RCTB with the parameters `c`, as a machine. -/
def coreWith (c : Config) : Host.Core where
  State := State
  Fault := Fault
  Refusal := Refusal
  step := stepWith c
  reset := State.resetWith c

end Sys2Proof.Machine
end

