-- ==== Sys2Proof/Machine/Dispatch.lean ====
section
/-! DEFINITION. The meaning of each command (30_encoding.md R93). -/

namespace Sys2Proof.Machine

def exec (i : Instr) (s : State) : Host.Outcome State Fault Refusal :=
  match i with
  | .begin => Sys2Proof.Machine.execBegin s
  | .config o => Sys2Proof.Machine.execConfig o s
  | .setBwCr bw cr rsv => Sys2Proof.Machine.execSetBwCr bw cr rsv s
  | .setSf sf => Sys2Proof.Machine.execSetSf sf s
  | .setSync sw => Sys2Proof.Machine.execSetSync sw s
  | .setPreamble pre => Sys2Proof.Machine.execSetPreamble pre s
  | .setPower rsv pwr => Sys2Proof.Machine.execSetPower rsv pwr s
  | .setFreqHz hz => Sys2Proof.Machine.execSetFreqHz hz s
  | .setFreqReg frf => Sys2Proof.Machine.execSetFreqReg frf s
  | .setRxTimeout us => Sys2Proof.Machine.execSetRxTimeout us s
  | .setHdrCrc rsv hdr crc => Sys2Proof.Machine.execSetHdrCrc rsv hdr crc s
  | .setMode mode => Sys2Proof.Machine.execSetMode mode s
  | .tx data => Sys2Proof.Machine.execTx data s
  | .armRx => Sys2Proof.Machine.execArmRx s
  | .getStats => Sys2Proof.Machine.execGetStats s
  | .getFei => Sys2Proof.Machine.execGetFei s
  | .setPpm off => Sys2Proof.Machine.execSetPpm off s

end Sys2Proof.Machine
end

