-- ==== Sys2Proof/Machine/Step.lean ====
section
/-! DEFINITION. One step of the RCTB, and how an instruction is placed where the next step reads it. -/

namespace Sys2Proof.Machine

/-- One step of the RCTB with the default parameters (log 28). -/
def step (s : State) : Host.Outcome State Fault Refusal := boundaryStep config exec s

/-- `s` with the instruction `w` of `nbits` bits at the head of the command stream, and nothing in the way of the next step's running
it (log 11). -/
def State.withFetchWord (s : State) (nbits w : Nat) : State :=
  { s with
    cmdStream := tableWordBytes nbits w
    seq := .idle
    dispatch := none
    irqPending := false
    irqLine := holdLine s.irqLine }

end Sys2Proof.Machine
end

