-- ==== Sys2Proof/Machine/ChipImage.lean ====
section
/-! DEFINITION. ChipImage (20_memory.md R74): what the port trace last wrote to each bit of each chip register. It is an observation
computed from the trace, not state (log 17). -/

namespace Sys2Proof.Machine

/-- One register of ChipImage: `known` has a 1 for each bit the trace has written, and `value` holds those bits (0 elsewhere). -/
structure ImageByte where
  known : Byte
  value : Byte
deriving DecidableEq, Repr

/-- The bits msb down to lsb of a byte. -/
def fieldMask (msb lsb : Nat) : Byte := BitVec.ofNat 8 (2 ^ (msb + 1) - 2 ^ lsb)

/-- The chip effect of one transaction on register `a` (R62, R64, R66); every other transaction has none. -/
def imageStep (a : RegAddr) (im : ImageByte) (t : PortOp) : ImageByte :=
  match t with
  | .write a' v => if a' = a then ⟨0xFF, v⟩ else im
  | .burstWrite a' bytes =>
    if a'.toNat ≤ a.toNat then
      match bytes[a.toNat - a'.toNat]? with
      | some v => ⟨0xFF, v⟩
      | none => im
    else im
  | .field a' msb lsb f =>
    if a' = a then
      ⟨im.known ||| fieldMask msb lsb, (im.value &&& ~~~fieldMask msb lsb) ||| ((f <<< lsb) &&& fieldMask msb lsb)⟩
    else im
  | .read _ _ => im
  | .burstRead _ _ _ => im
  | .fifoWrite _ => im
  | .fifoRead _ _ => im
  | .txEnable => im
  | .rxEnable => im
  | .pathsDisable => im
  | .delay _ => im

/-- Register `a` of ChipImage after a trace. Nothing is known before the first write (70_reset_and_hazards.md R252). -/
def chipImage (trace : List PortOp) (a : RegAddr) : ImageByte := trace.foldl (imageStep a) ⟨0, 0⟩

/-- A transaction writes register `a`: W, F or a burst that covers it. -/
def PortOp.writes (a : RegAddr) : PortOp → Bool
  | .write a' _ => decide (a' = a)
  | .burstWrite a' bytes => decide (a'.toNat ≤ a.toNat) && decide (a.toNat < a'.toNat + bytes.length)
  | .field a' _ _ _ => decide (a' = a)
  | .read _ _ => false
  | .burstRead _ _ _ => false
  | .fifoWrite _ => false
  | .fifoRead _ _ => false
  | .txEnable => false
  | .rxEnable => false
  | .pathsDisable => false
  | .delay _ => false

end Sys2Proof.Machine
end

