-- ==== Sys2Proof/Safety.lean ====
section
/-! DEFINITION. What a safe or well-behaved run is, in the terms claims use: the premises of 70_reset_and_hazards.md R265, the invariants
of 10_state.md, and the end of a run (R266). -/

namespace Sys2Proof.Machine

/-- The interrupt line stays quiet from here on: no dispatch in progress, none pending, no assertion to come. -/
def State.Calm (s : State) : Prop := s.dispatch = none ∧ s.irqPending = false ∧ s.irqLine = []

/-- A command boundary with a quiet interrupt line: a command that starts here runs undisturbed. -/
def State.Undisturbed (s : State) : Prop := s.seq = .idle ∧ s.Calm

/-- The end of a run (70_reset_and_hazards.md R266): the command stream holds no complete command and no illegal opcode, SEQ is idle,
IRQ_PENDING = 0, IN_DISPATCH = 0, and no assertion is to come. -/
def State.RunEnded (s : State) : Prop := s.Undisturbed ∧ decode s.cmdStream = .incomplete

/-- CUR_MODE is SLEEP or STANDBY: the modes in which the standalone setters may be used (R255). -/
def State.configurable (s : State) : Bool := decide (s.curMode = .sleep) || decide (s.curMode = .standby)

/-- The host waits for a transmit to end (70_reset_and_hazards.md R261): while CUR_MODE = TRANSMIT it issues none of the commands that
write OPMODE with another mode. BEGIN is such a command too (40_config.md R131). -/
def hostWaits (i : Instr) (s : State) : Bool :=
  match i with
  | .begin => decide (s.curMode ≠ .transmit)
  | .config _ => decide (s.curMode ≠ .transmit)
  | .setBwCr _ _ _ => true
  | .setSf _ => true
  | .setSync _ => true
  | .setPreamble _ => true
  | .setPower _ pwr => s.curPwr.holds pwr || decide (s.curMode ≠ .transmit)
  | .setFreqHz _ => decide (s.curMode ≠ .transmit)
  | .setFreqReg _ => decide (s.curMode ≠ .transmit)
  | .setRxTimeout _ => true
  | .setHdrCrc _ _ _ => true
  | .setMode mode => decide (s.curMode ≠ .transmit) || decide (mode = 3)
  | .tx _ => decide (s.curMode ≠ .transmit)
  | .armRx => decide (s.curMode ≠ .transmit)
  | .getStats => true
  | .getFei => true
  | .setPpm _ => true

/-- The host issues the standalone setters only in SLEEP or STANDBY (70_reset_and_hazards.md R255). -/
def settersAllowed (i : Instr) (s : State) : Bool :=
  match i with
  | .setBwCr _ _ _ | .setSf _ | .setSync _ | .setPreamble _ | .setRxTimeout _ => s.configurable
  | .begin | .config _ | .setPower _ _ | .setFreqHz _ | .setFreqReg _ | .setHdrCrc _ _ _ | .setMode _ | .tx _ | .armRx | .getStats
  | .getFei | .setPpm _ => true

/-- The host sends TX with the configured payload length (70_reset_and_hazards.md R257). -/
def txLengthAgrees (i : Instr) (s : State) : Bool :=
  match i with
  | .tx data => decide (data.length = s.payloadLen.toNat)
  | .begin | .config _ | .setBwCr _ _ _ | .setSf _ | .setSync _ | .setPreamble _ | .setPower _ _ | .setFreqHz _ | .setFreqReg _
  | .setRxTimeout _ | .setHdrCrc _ _ _ | .setMode _ | .armRx | .getStats | .getFei | .setPpm _ => true

/-- The host obligations that can be read from the state and the command (70_reset_and_hazards.md R265): R261, R255 and R257. -/
def hostObeys (i : Instr) (s : State) : Bool := hostWaits i s && settersAllowed i s && txLengthAgrees i s

/-- What the rules ask of a parameter table: the types of Table 1 (00_scope.md R8); an allow-list that is not empty (40_config.md R140);
PA bases that leave the power field free (R144); an RSSI offset that keeps the result within 16 bits (43_telemetry.md R196); a value
for each bandwidth code (30_encoding.md R107), with a symbol of at least one microsecond at the shortest (R146); every register value
within 32 bits of Hz (R149, log 29); bursts within the 128 registers (20_memory.md R73); and no division by 0 (log 24). -/
structure AdmissibleConfig (c : Config) : Prop where
  syncAllowed : c.syncAllowed ≠ []
  paBoost : c.paCfgBoost &&& 0x0F = 0
  paRfo : c.paCfgRfo &&& 0x0F = 0
  rssi : -32640 ≤ c.rssiOffset ∧ c.rssiOffset ≤ 32512
  bandwidths : c.bwHz.length = 10 ∧ ∀ hz ∈ c.bwHz, 0 < hz ∧ hz ≤ 64000000
  norms : c.feiNorm.length = 10 ∧ ∀ n ∈ c.feiNorm, 0 ≤ n ∧ n < 2 ^ 16
  frequency : c.fxosc < 2 ^ 32 ∧ regToHz c (2 ^ 24 - 1) < 2 ^ 32
  detOptimize : c.detOptSf6.toNat < 8 ∧ c.detOptSf7to12.toNat < 8
  flags : c.txDoneBit < 8 ∧ c.rxDoneBit < 8
  bursts : c.regs.frfMsb.toNat ≤ 125 ∧ c.regs.feiMsb.toNat ≤ 125 ∧ c.regs.pktSnrValue.toNat ≤ 126
  divisors : 0 < c.fxosc ∧ 0 < c.ppmDen ∧ 0 < c.probeTries

/-! ### What a command does with a quiet interrupt line, written from the trace notation of 20_memory.md R62 to R72 and the addresses and
values the rules give in their comments. Claims compare the machine with these; the machine does not use them. -/

/-- SetMode(m) with no dispatch between its steps (41_mode.md R171). -/
def State.setMode (c : Config) (m : Mode) (s : State) : State :=
  if m = s.curMode then s else { s.writeOpMode c m with curMode := m }

/-- The traffic of SetMode(m) from the cached mode `cur` (R171, 20_memory.md R75). -/
def modeTraffic (m cur : Mode) : List PortOp := if cur = m then [] else [.write 0x01 (0x80 ||| m.code.zeroExtend 8)]

/-- The traffic of ERRATA_HBW(bw) (40_config.md R133). -/
def errataTraffic (bw : BitVec 4) : List PortOp :=
  if bw = 9 then [.write 0x36 0x02, .write 0x3A 0x64] else [.write 0x36 0x03]

/-- The traffic of SetPreambleLength(n) against the cache `old` (R142). -/
def preambleTraffic (n : Byte) (old : Cache 8) : List PortOp := if old = ⟨true, n⟩ then [] else [.write 0x21 n]

/-- The traffic of SetSyncWord once the permitted word is `w`, against the cache `old` (R140). -/
def syncTraffic (w : Byte) (old : Cache 8) : List PortOp := if old = ⟨true, w⟩ then [] else [.write 0x39 w]

/-- The log of SetSyncWord: a substitution emits SYNC_SUBST (R140). -/
def syncLog (req w : Byte) : List Event := if w = req then [] else [.syncSubst req w]

/-- The traffic of BASELINE(pre, sw), its SetMode apart, with the permitted sync word `w` (R134). -/
def baselineTraffic (pre w plen : Byte) (iq : Bool) (s : State) : List PortOp :=
  [.write 0x22 plen, .write 0x0E 0x00, .write 0x0F 0x00, .field 0x0C 1 0 0b11, .field 0x26 3 2 0b01]
    ++ errataTraffic s.curBw ++ preambleTraffic pre s.curPre ++ syncTraffic w s.curSync
    ++ [.field 0x33 6 6 (if iq then 1 else 0)]

/-- The traffic of SetSpreadingFactor(sf) from the cached factor `old` (R138): the field value is twice the factor. -/
def sfTraffic (sf old : BitVec 4) : List PortOp :=
  if old = sf then []
  else if sf = 6 then [.field 0x1E 7 3 0b01100, .field 0x31 2 0 0b101, .write 0x37 0x0C]
  else [.field 0x1E 7 3 (2 * sf.zeroExtend 8), .field 0x31 2 0 0b011, .write 0x37 0x0A]

/-- The traffic of SetBandwidthCodingRate(bw, cr), with the spreading factor `sf` cached (R136). -/
def bwCrTraffic (bw : BitVec 4) (cr : BitVec 3) (sf : BitVec 4) (s : State) : List PortOp :=
  if s.curBw = bw ∧ s.curCr = cr then []
  else if sf = 6 then [.write 0x1D (bw ++ cr ++ (1 : BitVec 1)), .field 0x1E 2 2 0] ++ errataTraffic bw
  else [.write 0x1D (bw ++ cr ++ (if s.headerExpl then (0 : BitVec 1) else 1)), .field 0x1E 2 2 (if s.crcEn then 1 else 0)]
    ++ errataTraffic bw

/-- The three-byte frequency burst, most significant byte first (R148, R149). -/
def freqTraffic (frf : BitVec 24) : List PortOp :=
  [.burstWrite 0x06 [frf.extractLsb' 16 8, frf.extractLsb' 8 8, frf.extractLsb' 0 8]]

/-- The traffic of SetRxTimeoutUs(us) when the count is `n` (R146): none for 0. -/
def timeoutTraffic (us : BitVec 32) (n : BitVec 10) : List PortOp :=
  if us = 0 then [] else [.write 0x1F (n.extractLsb' 0 8), .field 0x1E 1 0 ((n.extractLsb' 8 2).zeroExtend 8)]

/-- The symbol count for a timeout (R146): 0 for 0; else the quotient of the interval by the symbol duration, kept within 1 to 1023. -/
def timeoutCount (sf bw : BitVec 4) (us : BitVec 32) : BitVec 10 :=
  if us = 0 then 0
  else BitVec.ofNat 10 (min 1023 (max 1 (us.toNat / (2 ^ sf.toNat * 1000000 / config.bwHz.getD bw.toNat 0))))

/-! ### Terms of the claims about whole commands -/

/-- How many writes of REG_OP_MODE a trace holds (41_mode.md R174). -/
def opModeWrites (trace : List PortOp) : Nat :=
  trace.countP fun t =>
    match t with
    | .write a _ => decide (a = 0x01)
    | _ => false

/-- In a sequence of SetMode calls that starts from the mode `cur`: how many ask for a mode that differs from the mode of the call
before (41_mode.md R174). -/
def modeChanges : Mode → List Mode → Nat
  | _, [] => 0
  | cur, m :: ms => (if m = cur then 0 else 1) + modeChanges m ms

/-- Commands one after another, with nothing between them; stopping at the first that does not answer a next state. -/
def runCommands : List Instr → State → Result
  | [], s => .next s
  | i :: is, s =>
    match exec i s with
    | .next t => runCommands is t
    | .fault f => .fault f
    | .refused r => .refused r

/-- How many result bytes the response of a completed command carries (30_encoding.md R114, Table 6). -/
def resultLength (i : Instr) : Nat :=
  match i with
  | .getStats => 3
  | .getFei => 4
  | .setPpm _ => 1
  | .begin | .config _ | .setBwCr _ _ _ | .setSf _ | .setSync _ | .setPreamble _ | .setPower _ _ | .setFreqHz _
  | .setFreqReg _ | .setRxTimeout _ | .setHdrCrc _ _ _ | .setMode _ | .tx _ | .armRx => 0

/-- The register values that 10_state.md R23 to R28 and 30_encoding.md R99 allow the foreground to write. -/
def RegWrite.Legal (c : Config) : RegWrite → Prop
  | .curBw v => bwLegal v = true
  | .curCr v => crLegal v = true
  | .curSf v => sfLegal v.toNat = true
  | .curSync v => v ∈ c.syncAllowed
  | .payloadLen v => v ≠ 0
  | .curPre _ => True
  | .curPwr _ => True
  | .iqInvert _ => True
  | .headerExpl _ => True
  | .crcEn _ => True
  | .timeoutSymbols _ => True
  | .freqHz _ => True
  | .freqReg _ => True
  | .lastRssi _ => True
  | .lastSnr _ => True
  | .lastFeiHz _ => True
  | .lastPpm _ => True
  | .detected _ => True

/-- Procedure arguments as the operand checks leave them. -/
def Proc.Legal : Proc → Prop
  | .setBwCr bw cr => bwLegal bw = true ∧ crLegal cr = true
  | .setSf sf => sfLegal sf.toNat = true
  | .errata _ => True
  | .baseline _ _ => True
  | .setSync _ => True
  | .setPreamble _ => True
  | .setPower _ => True
  | .setRxTimeout _ => True
  | .setFreqHz _ => True
  | .setFreqReg _ => True
  | .armMode => True

/-- An event as 30_encoding.md R115 and 40_config.md R140 give it: RX_DONE carries status 0x00 and n data bytes, SYNC_SUBST a permitted
word other than the requested one. -/
def Event.Legal (c : Config) : Event → Prop
  | .txDone => True
  | .rxDone status n data => status = 0x00 ∧ data.length = n.toNat
  | .syncSubst requested used => used ∈ c.syncAllowed ∧ used ≠ requested

/-- A task that no rule forbids: register values and events are legal, SetMode asks for a real mode, and REG_OP_MODE is written by
SetMode only (00_scope.md R13). -/
def Task.Legal (c : Config) : Task → Prop
  | .regWrite w => w.Legal c
  | .call p => p.Legal
  | .modeCheck m => m ≠ .unknown
  | .modeWrite m => m ≠ .unknown
  | .modeCache m => m ≠ .unknown
  | .emit e => e.Legal c
  | .portWrite a _ => a ≠ c.regs.opMode
  | .fieldWrite a _ _ => a ≠ c.regs.opMode
  | .burstWrite a bytes => c.regs.opMode.toNat < a.toNat ∧ a.toNat + bytes.length ≤ 128
  | .fifoWrite _ => True
  | .txEnable => True
  | .rxEnable => True
  | .delay _ => True
  | .probe _ => True
  | .readStats => True
  | .readFei => True
  | .respond _ _ => True

/-- The sequencer holds legal tasks only. -/
def Seq.Legal (c : Config) : Seq → Prop
  | .idle => True
  | .busy _ _ todo => ∀ t ∈ todo, t.Legal c

/-- The dispatch's data are the n bytes it read (60_exceptions.md R230). -/
def Phase.Legal : Phase → Prop
  | .rxStore n d => d.length = n.toNat
  | .rxStandby n d => d.length = n.toNat
  | .rxEmit n d => d.length = n.toNat
  | .readFlags => True
  | .clearFlags _ => True
  | .txDisable _ => True
  | .txStandby _ => True
  | .txEmit _ => True
  | .rxRead => True
  | .leave => True

/-- A transaction as the rules allow it: REG_OP_MODE is written whole, with the byte of one of the five modes (20_memory.md R75,
00_scope.md R13), and by no field write and no burst. -/
def PortOp.Legal (c : Config) : PortOp → Prop
  | .write a v => a = c.regs.opMode → ∃ m : Mode, m ≠ .unknown ∧ v = opModeByte c m
  | .field a _ _ _ => a ≠ c.regs.opMode
  | .burstWrite a bytes => c.regs.opMode.toNat < a.toNat ∧ a.toNat + bytes.length ≤ 128
  | .read _ _ => True
  | .burstRead _ _ _ => True
  | .fifoWrite _ => True
  | .fifoRead _ _ => True
  | .txEnable => True
  | .rxEnable => True
  | .pathsDisable => True
  | .delay _ => True

/-- The legal values of the shadow registers (10_state.md R23, R24, R25, R27, R29), with what the sequencer has still to write. -/
structure State.CachesLegal (s : State) : Prop where
  bw : bwLegal s.curBw = true ∨ s.curBw = bwInvalid
  cr : crLegal s.curCr = true ∨ s.curCr = crInvalid
  sf : sfLegal s.curSf.toNat = true ∨ s.curSf = sfInvalid
  sync : s.curSync.valid = true → s.curSync.val ∈ config.syncAllowed
  payload : s.payloadLen ≠ 0
  todo : s.seq.Legal config

/-- RX_BUF holds bytes at addresses 0 to 255 only, in canonical form (10_state.md R40), and the dispatch in progress and the events emitted
carry as many bytes as they say (60_exceptions.md R230). -/
structure State.BufferLegal (s : State) : Prop where
  form : s.rxBuf.wf = true
  addresses : ∀ cell ∈ s.rxBuf, cell.1 < 256
  phase : ∀ ph, s.dispatch = some ph → ph.Legal
  events : ∀ e ∈ s.events, e.Legal config
  todo : s.seq.Legal config

/-- Every transaction of the trace is one the rules allow, and the sequencer will make no other. -/
structure State.TrafficLegal (s : State) : Prop where
  trace : ∀ t ∈ s.trace, t.Legal config
  todo : s.seq.Legal config

/-- While DETECTED = 0 no interrupt is pending and no dispatch is in progress (10_state.md R41, R44). -/
def State.SilentUndetected (s : State) : Prop := s.detected = false → s.irqPending = false ∧ s.dispatch = none

/-- The tasks that end a command: its response, and the reads that go on with tasks of which the last responds. -/
def Task.isLast : Task → Bool
  | .respond _ _ => true
  | .probe _ => true
  | .readStats => true
  | .readFei => true
  | _ => false

/-- A task list that ends its command once: the last task responds, or leads to the response, and no other does. -/
def endsOnce : List Task → Bool
  | [] => false
  | [t] => t.isLast
  | t :: rest => !t.isLast && endsOnce rest

/-- A task that sets CUR_MODE to one of the five modes, or checks that it holds it (41_mode.md R171). -/
def Task.setsMode : Task → Bool
  | .modeCheck m => decide (m ≠ .unknown)
  | .modeCache m => decide (m ≠ .unknown)
  | _ => false

/-- Wherever DETECTED is set, a SetMode follows (40_config.md R131). -/
def modeAfterDetection : List Task → Bool
  | [] => true
  | .regWrite (.detected true) :: rest => rest.any Task.setsMode && modeAfterDetection rest
  | _ :: rest => modeAfterDetection rest

/-- The tasks still to do. -/
def Seq.todo : Seq → List Task
  | .idle => []
  | .busy _ _ ts => ts

/-- CUR_MODE = UNKNOWN is held only until the first SetMode (10_state.md R22): once the chip is detected it is gone, or the SetMode
that ends it is on its way, and the sequencer reaches it. -/
structure State.ModeKnown (s : State) : Prop where
  known : s.detected = true → s.curMode = .unknown → s.seq.todo.any Task.setsMode = true
  order : modeAfterDetection s.seq.todo = true
  ends : s.seq = .idle ∨ endsOnce s.seq.todo = true
  todo : s.seq.Legal config

end Sys2Proof.Machine
end

