-- ==== Sys2Proof/Certificates/Slice0/Obligations.lean ====
section
/-! DEFINITION. The statements for the provers. Each says what a rule of spec/ says of the machine. The addresses and values written out
below are those the rules give in their comments and Tables 1 and 2 (log 5: the machine's parameters are the defaults). A statement
about the effect of a command takes a quiet interrupt line (`State.Undisturbed`); what holds with interrupts anywhere is stated in the
sections on the dispatch, on every command, and on invariants. -/

open Sys2Proof Sys2Proof.Machine

/-! ## Encoding -/

/-- 30_encoding.md R91 to R100, R118: the decoder reads every command back from its bytes, whatever follows them. -/
def Obligations.DecodeOfEncode : Prop :=
  ∀ (i : Instr) (rest : List Byte), i.encodable = true → decode (encode i ++ rest) = .command i rest

/-- 30_encoding.md R91, R118: what the decoder reads as a command is that command's bytes, all of them and no more. -/
def Obligations.DecodedBytesAreTheEncoding : Prop :=
  ∀ (bs : List Byte) (i : Instr) (rest : List Byte), decode bs = .command i rest →
    i.encodable = true ∧ bs = encode i ++ rest

/-- 30_encoding.md R91: the sequencer starts a command only once all its bytes have arrived. -/
def Obligations.PartialCommandIsIncomplete : Prop :=
  ∀ (i : Instr) (bs more : List Byte), i.encodable = true → encode i = bs ++ more → more ≠ [] → decode bs = .incomplete

/-- 30_encoding.md R93 to R100: words written out from the formats. -/
def Obligations.WordsDecode : Prop :=
  decode [0x01] = .command .begin [] ∧
  decode [0x03, 0b0111_001_0] = .command (.setBwCr 7 1 0) [] ∧
  decode [0x09, 0xE4, 0xC0, 0x00] = .command (.setFreqReg 0xE4C000) [] ∧
  decode [0x0C, 0x05] = .command (.setMode 5) [] ∧
  decode [0x10, 0x02, 0xA5, 0x5A, 0x11] = .command (.tx [0xA5, 0x5A]) [0x11] ∧
  decode [0x22, 0xFF, 0xFF, 0x8A, 0xD0] = .command (.setPpm 0xFFFF8AD0) [] ∧
  decode [0x02, 0b1001_0110, 0b001_0_1_1_00, 8, 0x12, 8, 0x36, 0x89, 0xCA, 0xC0, 0, 0, 0x4E, 0x20] =
    .command (.config ⟨9, 6, 1, false, true, true, 0, 8, 0x12, 8, 915000000, 20000⟩) []

/-- 30_encoding.md R96 to R100, R107 to R110, with R152's default bound: which operands are legal. -/
def Obligations.LegalOperands : Prop :=
  (∀ bw cr rsv, operandsLegal config (.setBwCr bw cr rsv) = true ↔
    bw.toNat ≤ 9 ∧ 1 ≤ cr.toNat ∧ cr.toNat ≤ 4 ∧ rsv = 0) ∧
  (∀ sf, operandsLegal config (.setSf sf) = true ↔ 6 ≤ sf.toNat ∧ sf.toNat ≤ 12) ∧
  (∀ rsv pwr, operandsLegal config (.setPower rsv pwr) = true ↔ rsv = 0) ∧
  (∀ hz, operandsLegal config (.setFreqHz hz) = true ↔ hz.toNat ≤ 1023999999) ∧
  (∀ rsv hdr crc, operandsLegal config (.setHdrCrc rsv hdr crc) = true ↔ rsv = 0) ∧
  (∀ mode, operandsLegal config (.setMode mode) = true ↔ mode ∈ ([0, 1, 3, 5, 6] : List Byte)) ∧
  (∀ data, operandsLegal config (.tx data) = true ↔ 1 ≤ data.length ∧ data.length ≤ 255) ∧
  (∀ o, operandsLegal config (.config o) = true ↔
    o.bw.toNat ≤ 9 ∧ 6 ≤ o.sf.toNat ∧ o.sf.toNat ≤ 12 ∧ 1 ≤ o.cr.toNat ∧ o.cr.toNat ≤ 4 ∧ o.rsv = 0 ∧
      (o.swp = false → o.sw = 0) ∧ o.plen ≠ 0 ∧ (o.fu = false → o.freq.toNat < 2 ^ 24) ∧
      (o.fu = true → o.freq.toNat ≤ 1023999999)) ∧
  (∀ i, mnemonic i ∈ ["BEGIN", "SET_SYNC", "SET_PREAMBLE", "SET_FREQ_REG", "SET_RX_TIMEOUT", "ARM_RX", "GET_STATS", "GET_FEI",
    "SET_PPM"] → operandsLegal config i = true)

/-! ## What a step does at a command boundary -/

/-- 30_encoding.md R91, R92: with no interrupt to take, a step runs the command at the head of the stream, its bytes consumed. Before
it the interrupt line is sampled (60_exceptions.md R222: idle is an interleaving point; log 1). It holds of the machine, and of the
machine with any parameter table (00_scope.md R7; log 28), whose commands at the default table are the machine's. -/
def Obligations.StepRunsTheDecodedCommand : Prop :=
  (∀ (s : State) (i : Instr) (rest : List Byte), s.atRest = true → s.sampleIrq.irqPending = false →
    decode s.cmdStream = .command i rest →
      step s = exec i { s.sampleIrq with cmdStream := rest } ∧
      ∀ c : Config, stepWith c s = execWith c i { s.sampleIrq with cmdStream := rest }) ∧
  (∀ (s : State) (i : Instr), exec i s = execWith config i s) ∧
  ∀ s : State, step s = stepWith config s

/-- 30_encoding.md R111: the illegal opcodes, and what the machine does with one. -/
def Obligations.IllegalOpcode : Prop :=
  ∀ (op : Byte) (rest : List Byte),
    (decode (op :: rest) = .illegalOpcode op rest ↔
      op = 0x00 ∨ (0x0D ≤ op.toNat ∧ op.toNat ≤ 0x0F) ∨ (0x12 ≤ op.toNat ∧ op.toNat ≤ 0x1F) ∨ 0x23 ≤ op.toNat) ∧
    ∀ s : State, s.atRest = true → s.sampleIrq.irqPending = false → s.cmdStream = op :: rest →
      decode (op :: rest) = .illegalOpcode op rest →
      step s = .next { s.sampleIrq with
        cmdStream := rest, status := .illegalOpcode, responses := s.responses ++ [⟨.illegalOpcode, []⟩] }

/-- 60_exceptions.md R222: a pending interrupt is dispatched before the next command starts, and the dispatch leaves the command
stream, the responses and STATUS alone. -/
def Obligations.PendingInterruptGoesFirst : Prop :=
  ∀ s : State, s.atRest = true → s.sampleIrq.irqPending = true →
    ∃ t, step s = .next t ∧ t.atRest = true ∧ t.cmdStream = s.cmdStream ∧ t.responses = s.responses ∧ t.status = s.status ∧
      (.read 0x12 s.nextByte) ∈ t.trace

/-- 70_reset_and_hazards.md R266, 30_encoding.md R91: a stream that ends inside a command is not executed and gives no response. That
a step then answers the state it found is the model's choice (log 12). -/
def Obligations.PartialStreamWaits : Prop :=
  ∀ s : State, s.atRest = true → s.sampleIrq.irqPending = false → decode s.cmdStream = .incomplete → step s = .next s.sampleIrq

/-- 60_exceptions.md R220, 30_encoding.md R113: the order of the checks, and that a rejected command writes STATUS and its one-byte
response and nothing else. The opcode's check is the decoder's (Obligations.IllegalOpcode). -/
def Obligations.CheckOrder : Prop :=
  ∀ (i : Instr) (s : State),
    let reject := fun st : Status => ({ s with status := st, responses := s.responses ++ [⟨st, []⟩] } : State)
    (operandsLegal config i = false → exec i s = .next (reject .illegalOperand)) ∧
    (operandsLegal config i = true → s.detected = false → i ≠ .begin → exec i s = .next (reject .notReady)) ∧
    (∀ off, i = .setPpm off → s.detected = true → s.freqHz = 0 → exec i s = .next (reject .freqZero)) ∧
    (i = .getFei → s.detected = true → s.curBw = 0xF → exec i s = .next (reject .unconfigured)) ∧
    (∀ us, i = .setRxTimeout us → s.detected = true → us ≠ 0 → s.curSf = 0 ∨ s.curBw = 0xF →
      exec i s = .next (reject .unconfigured))

/-! ## The commands: the whole next state, so the frame as well -/

/-- 40_config.md R131, R134: BEGIN when one of the three reads answers 0x12. `bad` are the answers before it. -/
def Obligations.BeginDetects : Prop :=
  ∀ (s : State) (bad : List Byte), s.Undisturbed → bad.length < 3 → 0x12 ∉ bad →
    s.nextBytes (bad.length + 1) = bad ++ [0x12] →
    exec .begin s = .next { s.drawMany (bad.length + 1) with
      detected := true
      curMode := .standby
      faultAbort := s.faultAbort || decide (s.curMode = .transmit)
      curPre := ⟨true, 8⟩
      curSync := ⟨true, 0x12⟩
      trace := s.trace ++ bad.flatMap (fun v => [.read 0x42 v, .delay 200]) ++ [.read 0x42 0x12]
        ++ modeTraffic .sleep s.curMode ++ [.write 0x01 0x81] ++ baselineTraffic 8 0x12 s.payloadLen s.iqInvert s
      status := .ok
      responses := s.responses ++ [⟨.ok, []⟩] }

/-- 40_config.md R131, 60_exceptions.md R216: BEGIN when none of the three reads answers 0x12: the reads and the delays only. -/
def Obligations.BeginFails : Prop :=
  ∀ (s : State) (v1 v2 v3 : Byte), s.Undisturbed → s.nextBytes 3 = [v1, v2, v3] → v1 ≠ 0x12 → v2 ≠ 0x12 → v3 ≠ 0x12 →
    exec .begin s = .next { s.drawMany 3 with
      detected := false
      trace := s.trace ++ [.read 0x42 v1, .delay 200, .read 0x42 v2, .delay 200, .read 0x42 v3]
      status := .notDetected
      responses := s.responses ++ [⟨.notDetected, []⟩] }

/-- 40_config.md R135 with R133, R134, R136, R138, R140, R142, R146, R148, R149: CONFIG. `req` is the sync word asked for and `w` the
permitted one programmed. -/
def Obligations.ConfigResult : Prop :=
  ∀ (o : ConfigOperands) (s : State) (req w : Byte) (frf : BitVec 24) (hz : BitVec 32) (n : BitVec 10),
    s.Undisturbed → s.detected = true → operandsLegal config (.config o) = true →
    req = (if o.swp then o.sw else if s.curSync.valid then s.curSync.val else 0x12) →
    w = syncSubstitute config.syncAllowed req →
    frf = (if o.fu then BitVec.ofNat 24 (o.freq.toNat * 2 ^ 19 / 32000000) else o.freq.extractLsb' 0 24) →
    hz = (if o.fu then o.freq else BitVec.ofNat 32 (frf.toNat * 32000000 / 2 ^ 19)) →
    n = timeoutCount o.sf o.bw o.tout →
    exec (.config o) s = .next { s with
      curMode := .standby
      faultAbort := s.faultAbort || decide (s.curMode = .transmit)
      payloadLen := o.plen
      iqInvert := o.iq
      curPre := ⟨true, o.pre⟩
      curSync := ⟨true, w⟩
      curSf := o.sf
      curBw := o.bw
      curCr := o.cr
      freqHz := hz
      freqReg := frf
      timeoutSymbols := n
      events := s.events ++ syncLog req w
      trace := s.trace ++ modeTraffic .standby s.curMode ++ baselineTraffic o.pre w o.plen o.iq s ++ sfTraffic o.sf s.curSf
        ++ bwCrTraffic o.bw o.cr o.sf s ++ freqTraffic frf ++ timeoutTraffic o.tout n
      status := .ok
      responses := s.responses ++ [⟨.ok, []⟩] }

/-- 40_config.md R137, R136, R133: SET_BW_CR. -/
def Obligations.SetBwCrResult : Prop :=
  ∀ (bw : BitVec 4) (cr : BitVec 3) (s : State), s.Undisturbed → s.detected = true →
    operandsLegal config (.setBwCr bw cr 0) = true →
    exec (.setBwCr bw cr 0) s = .next { s with
      curBw := bw
      curCr := cr
      trace := s.trace ++ bwCrTraffic bw cr s.curSf s
      status := .ok
      responses := s.responses ++ [⟨.ok, []⟩] }

/-- 40_config.md R139, R138: SET_SF. -/
def Obligations.SetSfResult : Prop :=
  ∀ (sf : Byte) (s : State), s.Undisturbed → s.detected = true → 6 ≤ sf.toNat → sf.toNat ≤ 12 →
    exec (.setSf sf) s = .next { s with
      curSf := sf.truncate 4
      trace := s.trace ++ sfTraffic (sf.truncate 4) s.curSf
      status := .ok
      responses := s.responses ++ [⟨.ok, []⟩] }

/-- 40_config.md R141, R140: SET_SYNC. The word programmed is the smallest permitted one that is not below the request; the log is
emitted even when the write is elided. -/
def Obligations.SetSyncResult : Prop :=
  ∀ (req w : Byte) (s : State), s.Undisturbed → s.detected = true →
    w ∈ config.syncAllowed → req.toNat ≤ w.toNat → (∀ v ∈ config.syncAllowed, req.toNat ≤ v.toNat → w.toNat ≤ v.toNat) →
    exec (.setSync req) s = .next { s with
      curSync := ⟨true, w⟩
      events := s.events ++ syncLog req w
      trace := s.trace ++ syncTraffic w s.curSync
      status := .ok
      responses := s.responses ++ [⟨.ok, []⟩] }

/-- 40_config.md R143, R142: SET_PREAMBLE. -/
def Obligations.SetPreambleResult : Prop :=
  ∀ (n : Byte) (s : State), s.Undisturbed → s.detected = true →
    exec (.setPreamble n) s = .next { s with
      curPre := ⟨true, n⟩
      trace := s.trace ++ preambleTraffic n s.curPre
      status := .ok
      responses := s.responses ++ [⟨.ok, []⟩] }

/-- 40_config.md R144: SET_POWER. A repeated level changes no mode and writes nothing. P_PA_BOOST stays open (log 4). -/
def Obligations.SetPowerResult : Prop :=
  ∀ (pwr : BitVec 4) (s : State), s.Undisturbed → s.detected = true →
    (s.curPwr = ⟨true, pwr⟩ →
      exec (.setPower 0 pwr) s = .next { s with status := .ok, responses := s.responses ++ [⟨.ok, []⟩] }) ∧
    (s.curPwr ≠ ⟨true, pwr⟩ →
      exec (.setPower 0 pwr) s = .next { s with
        curMode := .standby
        faultAbort := s.faultAbort || decide (s.curMode = .transmit)
        curPwr := ⟨true, pwr⟩
        trace := s.trace ++ modeTraffic .standby s.curMode
          ++ [.write 0x09 ((if config.paBoost then 0xF0 else 0x70) ||| pwr.zeroExtend 8)]
        status := .ok
        responses := s.responses ++ [⟨.ok, []⟩] })

/-- 40_config.md R150, R148, R152: SET_FREQ_HZ. The write is never elided. -/
def Obligations.SetFreqHzResult : Prop :=
  ∀ (hz : BitVec 32) (frf : BitVec 24) (s : State), s.Undisturbed → s.detected = true → hz.toNat ≤ 1023999999 →
    frf = BitVec.ofNat 24 (hz.toNat * 2 ^ 19 / 32000000) →
    exec (.setFreqHz hz) s = .next { s with
      curMode := .standby
      faultAbort := s.faultAbort || decide (s.curMode = .transmit)
      freqHz := hz
      freqReg := frf
      trace := s.trace ++ modeTraffic .standby s.curMode ++ freqTraffic frf
      status := .ok
      responses := s.responses ++ [⟨.ok, []⟩] }

/-- 40_config.md R151, R149, R152: SET_FREQ_REG. FREQ_HZ becomes the Hz equivalent of the raw value, which with the machine's
parameters fits 32 bits (with a table where it does not, FREQ_HZ is a free value, log 29). -/
def Obligations.SetFreqRegResult : Prop :=
  ∀ (frf : BitVec 24) (s : State), s.Undisturbed → s.detected = true →
    exec (.setFreqReg frf) s = .next { s with
      curMode := .standby
      faultAbort := s.faultAbort || decide (s.curMode = .transmit)
      freqHz := BitVec.ofNat 32 (frf.toNat * 32000000 / 2 ^ 19)
      freqReg := frf
      trace := s.trace ++ modeTraffic .standby s.curMode ++ freqTraffic frf
      status := .ok
      responses := s.responses ++ [⟨.ok, []⟩] }

/-- 40_config.md R147, R146: SET_RX_TIMEOUT, where the state check passes. The count of a non-zero timeout is within 1 to 1023. -/
def Obligations.SetRxTimeoutResult : Prop :=
  ∀ (us : BitVec 32) (n : BitVec 10) (s : State), s.Undisturbed → s.detected = true →
    (us = 0 ∨ s.curSf ≠ 0 ∧ s.curBw ≠ 0xF) → n = timeoutCount s.curSf s.curBw us →
    (us ≠ 0 → n ≠ 0) ∧
    exec (.setRxTimeout us) s = .next { s with
      timeoutSymbols := n
      trace := s.trace ++ timeoutTraffic us n
      status := .ok
      responses := s.responses ++ [⟨.ok, []⟩] }

/-- 40_config.md R145: SET_HDR_CRC writes the two preferences and makes no transaction. -/
def Obligations.SetHdrCrcResult : Prop :=
  ∀ (hdr crc : Bool) (s : State), s.Undisturbed → s.detected = true →
    exec (.setHdrCrc 0 hdr crc) s = .next { s with
      headerExpl := hdr
      crcEn := crc
      status := .ok
      responses := s.responses ++ [⟨.ok, []⟩] }

/-- 41_mode.md R172, R171: SET_MODE with each of the five modes. -/
def Obligations.SetModeResult : Prop :=
  ∀ (mode : Byte) (m : Mode) (s : State), s.Undisturbed → s.detected = true → m ≠ .unknown → mode = m.code.zeroExtend 8 →
    exec (.setMode mode) s = .next { s with
      curMode := m
      faultAbort := s.faultAbort || (decide (s.curMode = .transmit) && decide (m ≠ .transmit))
      trace := s.trace ++ modeTraffic m s.curMode
      status := .ok
      responses := s.responses ++ [⟨.ok, []⟩] }

/-- 42_txrx.md R181: TX. -/
def Obligations.TxResult : Prop :=
  ∀ (data : List Byte) (s : State), s.Undisturbed → s.detected = true → 1 ≤ data.length → data.length ≤ 255 →
    exec (.tx data) s = .next { s with
      curMode := .transmit
      faultAbort := s.faultAbort || decide (s.curMode = .transmit)
      trace := s.trace ++ modeTraffic .standby s.curMode ++ [.txEnable, .write 0x0D 0x00, .fifoWrite data, .write 0x01 0x83]
      status := .ok
      responses := s.responses ++ [⟨.ok, []⟩] }

/-- 42_txrx.md R182: ARM_RX arms a single receive exactly when a timeout is configured. -/
def Obligations.ArmRxResult : Prop :=
  ∀ s : State, s.Undisturbed → s.detected = true →
    exec .armRx s = .next { s with
      curMode := if s.timeoutSymbols = 0 then .rxContinuous else .rxSingle
      faultAbort := s.faultAbort || decide (s.curMode = .transmit)
      trace := s.trace ++ modeTraffic .standby s.curMode
        ++ [.rxEnable, .write 0x0D 0x00, .write 0x01 (if s.timeoutSymbols = 0 then 0x85 else 0x86)]
      status := .ok
      responses := s.responses ++ [⟨.ok, []⟩] }

/-- 43_telemetry.md R196, 10_state.md R36: GET_STATS, from the next two bytes of the chip. The RSSI lies in -285 to 98, so 16 bits hold
it. -/
def Obligations.GetStatsResult : Prop :=
  ∀ (s : State) (snr raw : Byte) (rssi : Int), s.Undisturbed → s.detected = true → s.nextBytes 2 = [snr, raw] →
    rssi = -157 + raw.toNat + (if snr.toInt < 0 then snr.toInt else 0) →
    (-285 ≤ rssi ∧ rssi ≤ 98 ∧ (BitVec.ofInt 16 rssi).toInt = rssi) ∧
    exec .getStats s = .next { s.drawMany 2 with
      lastSnr := snr
      lastRssi := BitVec.ofInt 16 rssi
      trace := s.trace ++ [.burstRead 0x19 2 [snr, raw]]
      status := .ok
      responses := s.responses ++
        [⟨.ok, [(BitVec.ofInt 16 rssi).extractLsb' 8 8, (BitVec.ofInt 16 rssi).extractLsb' 0 8, snr]⟩] }

/-- 43_telemetry.md R197, R198: GET_FEI, from the next three bytes of the chip; the divisions round toward minus infinity. -/
def Obligations.GetFeiResult : Prop :=
  ∀ (s : State) (b0 b1 b2 : Byte) (fei hz : Int), s.Undisturbed → s.detected = true → s.curBw ≠ 0xF →
    s.nextBytes 3 = [b0, b1, b2] →
    fei = (b0.toNat % 16 * 2 ^ 16 + b1.toNat * 2 ^ 8 + b2.toNat : Nat) - (if b0.getLsbD 3 then 2 ^ 20 else 0) →
    hz = Int.fdiv (Int.fdiv fei 8 * config.feiNorm.getD s.curBw.toNat 0) 16 →
    (BitVec.ofInt 32 hz).toInt = hz ∧
    exec .getFei s = .next { s.drawMany 3 with
      lastFeiHz := BitVec.ofInt 32 hz
      trace := s.trace ++ [.burstRead 0x28 3 [b0, b1, b2]]
      status := .ok
      responses := s.responses ++ [⟨.ok, bytes32 (BitVec.ofInt 32 hz)⟩] }

/-- 43_telemetry.md R199, R200: SET_PPM, where FREQ_HZ is not 0 (FREQ_HZ = 0 is in Obligations.CheckOrder). That a quotient outside 8
bits saturates is the spec's own choice in R200, and 93_implementation_defined.md U4 leaves it open (log 15). -/
def Obligations.SetPpmResult : Prop :=
  ∀ (off : BitVec 32) (s : State) (ppm : Int), s.Undisturbed → s.detected = true → s.freqHz ≠ 0 →
    ppm = min 127 (max (-128) (Int.tdiv (off.toInt * 1000000 * 95) (s.freqHz.toNat * 100))) →
    (BitVec.ofInt 8 ppm).toInt = ppm ∧
    exec (.setPpm off) s = .next { s with
      lastPpm := BitVec.ofInt 8 ppm
      trace := s.trace ++ [.write 0x27 (BitVec.ofInt 8 ppm)]
      status := .ok
      responses := s.responses ++ [⟨.ok, [BitVec.ofInt 8 ppm]⟩] }

/-! ## The dispatch -/

/-- 60_exceptions.md R223: taking the interrupt, at any interleaving point of any command. Nothing is saved; SEQ stays in place. -/
def Obligations.DispatchEntry : Prop :=
  ∀ s : State, s.dispatch = none → s.sampleIrq.irqPending = true →
    (micro config s).inDispatch = true ∧ micro config s = { s.sampleIrq with dispatch := some .readFlags, irqPending := false }

/-- 10_state.md R44: an assertion is latched while DETECTED = 1 and dropped while DETECTED = 0, at every interleaving point: between
two micro-operations of a dispatch, or where the foreground has its turn. -/
def Obligations.AssertionLatchedOrDropped : Prop :=
  ∀ (s : State) (later : List Bool), s.irqLine = true :: later →
    (s.inDispatch = true → (micro config s).irqPending = (s.irqPending || s.detected)) ∧
    (s.inDispatch = false → (micro config s).inDispatch = (s.irqPending || s.detected)) ∧
    (micro config s).irqLine = later

/-- 60_exceptions.md R232, 10_state.md R45: while a dispatch is in progress no foreground micro-operation runs and no new dispatch
starts; it ends with its last micro-operation and no other. -/
def Obligations.DispatchIsNotReentrant : Prop :=
  ∀ (s : State) (ph : Phase), s.dispatch = some ph →
    (micro config s).seq = s.seq ∧ (micro config s).cmdStream = s.cmdStream ∧ (micro config s).responses = s.responses ∧
    (micro config s).status = s.status ∧ (micro config s).irqPending = s.sampleIrq.irqPending ∧
    ((micro config s).inDispatch = false ↔ ph = .leave) ∧ (micro config s).dispatch ≠ some .readFlags

/-- 60_exceptions.md R225, R227, R231: a dispatch that starts here is over after 4 to 8 micro-steps, the entry and the return among
them, with the foreground exactly where it was, having read and cleared the flags, made at most three transactions and emitted at
most one event, with IN_DISPATCH = 1 at every micro-step in between. The counts are those of the model's micro-steps (log 20). -/
def Obligations.DispatchReturns : Prop :=
  ∀ s : State, s.dispatch = none → s.sampleIrq.irqPending = true →
    ∃ n t, 4 ≤ n ∧ n ≤ 8 ∧ t = (micro config)^[n] s ∧ t.dispatch = none ∧ t.seq = s.seq ∧ t.cmdStream = s.cmdStream ∧
      t.responses = s.responses ∧ t.status = s.status ∧
      (∃ new : List PortOp, t.trace = s.trace ++ [.read 0x12 s.nextByte, .write 0x12 0xFF] ++ new ∧ new.length ≤ 1) ∧
      (∃ new : List Event, t.events = s.events ++ new ∧ new.length ≤ 1) ∧
      ∀ m, 0 < m → m < n → ((micro config)^[m] s).inDispatch = true

/-- 60_exceptions.md R225, R224, R229: TX_DONE in TRANSMIT, at any interleaving point: the entry, five micro-operations and the return.
The RX flag, whatever it is, causes nothing more (R227). At a command boundary it is what a step does. That the guards take no
micro-step of their own is the model's (log 20). -/
def Obligations.TxCompletion : Prop :=
  ∀ s t : State, s.dispatch = none → s.irqPending = true → s.irqLine = [] → s.curMode = .transmit →
    s.nextByte.getLsbD 3 = true →
    t = { s.drawOne with
      irqPending := false
      curMode := .standby
      trace := s.trace ++ [.read 0x12 s.nextByte, .write 0x12 0xFF, .pathsDisable]
      events := s.events ++ [.txDone] } →
    (micro config)^[7] s = t ∧ (s.seq = .idle → step s = .next t)

/-- 60_exceptions.md R225, R224, R230, 10_state.md R40: RX_DONE in a receive mode, at any interleaving point. Exactly PAYLOAD_LEN bytes
are read; they fill RX_BUF from 0 and the rest of it is unchanged. At a command boundary it is what a step does. The count of 8
micro-steps is the model's (log 20): with TIMEOUT_SYMBOLS = 0 no CUR_MODE write happens, so R80 and R230 alone would give 7. -/
def Obligations.RxCompletion : Prop :=
  ∀ (s : State) (d : List Byte), s.dispatch = none → s.irqPending = true → s.irqLine = [] →
    (s.curMode = .rxSingle ∨ s.curMode = .rxContinuous) → s.nextByte.getLsbD 6 = true →
    d = s.drawOne.nextBytes s.payloadLen.toNat →
    ∃ (buf : Memory) (t : State),
      t = { s.drawOne.drawMany s.payloadLen.toNat with
        irqPending := false
        curMode := if s.timeoutSymbols = 0 then s.curMode else .standby
        rxBuf := buf
        trace := s.trace ++ [.read 0x12 s.nextByte, .write 0x12 0xFF, .fifoRead s.payloadLen.toNat d]
        events := s.events ++ [.rxDone 0x00 s.payloadLen d] } ∧
      (micro config)^[8] s = t ∧ (s.seq = .idle → step s = .next t) ∧
      d.length = s.payloadLen.toNat ∧
      ∀ a, buf.read a = if a < s.payloadLen.toNat then d[a]? else s.rxBuf.read a

/-- 60_exceptions.md R226: at any interleaving point, a flag whose mode does not match is ignored, and so is every other flag; the flags
are cleared all the same. At a command boundary it is what a step does. That the guards take no micro-step of their own is the
model's (log 20). -/
def Obligations.IgnoredFlags : Prop :=
  ∀ s t : State, s.dispatch = none → s.irqPending = true → s.irqLine = [] →
    (s.nextByte.getLsbD 3 = true → s.curMode ≠ .transmit) →
    (s.nextByte.getLsbD 6 = true → s.curMode ≠ .rxSingle ∧ s.curMode ≠ .rxContinuous) →
    t = { s.drawOne with
      irqPending := false
      trace := s.trace ++ [.read 0x12 s.nextByte, .write 0x12 0xFF] } →
    (micro config)^[4] s = t ∧ (s.seq = .idle → step s = .next t)

/-- 70_reset_and_hazards.md R260: the lost completion. TX from STANDBY, with TX_DONE asserted between the write of REG_OP_MODE and the
update of CUR_MODE: the dispatch sees STANDBY, nothing is emitted, and CUR_MODE ends as TRANSMIT. -/
def Obligations.LostCompletion : Prop :=
  ∀ (data : List Byte) (s : State), s.seq = .idle → s.dispatch = none → s.irqPending = false → s.detected = true →
    s.curMode = .standby → 1 ≤ data.length → data.length ≤ 255 → s.nextByte.getLsbD 3 = true →
    s.irqLine = List.replicate 6 false ++ [true] →
    ∃ t, exec (.tx data) s = .next t ∧ t.curMode = .transmit ∧ t.events = s.events ∧
      t.trace = s.trace ++ [.txEnable, .write 0x0D 0x00, .fifoWrite data, .write 0x01 0x83, .read 0x12 s.nextByte,
        .write 0x12 0xFF]

/-! ## Every command, with interrupts anywhere -/

/-- 30_encoding.md R114, 60_exceptions.md R234, 70_reset_and_hazards.md R264: whatever the command, the state at the command boundary
and the assertions to come, the command ends: the machine is at rest again, with exactly one more response, whose status STATUS
holds and whose result bytes are as many as Table 6 says. It holds of the machine, and with any parameter table (00_scope.md R7). -/
def Obligations.EveryCommandCompletes : Prop :=
  let completes := fun run : Instr → State → Result =>
    ∀ (i : Instr) (s : State), s.atRest = true →
      ∃ t r, run i s = .next t ∧ t.atRest = true ∧ t.responses = s.responses ++ [r] ∧ t.status = r.status ∧
        r.result.length = (if r.status = .ok then resultLength i else 0)
  completes exec ∧ ∀ c : Config, completes (execWith c)

/-- 20_memory.md R84: no micro-operation of either context changes a command already received (the one in SEQ stays the same until it
ends, and none appears) or the commands yet to come; neither does any command as a whole, and a step only takes bytes from the head
of the stream. -/
def Obligations.CommandStreamUntouched : Prop :=
  (∀ (c : Config) (s : State), (micro c s).cmdStream = s.cmdStream ∧
    (s.seq = .idle → (micro c s).seq = .idle) ∧
    ∀ cmd k todo, s.seq = .busy cmd k todo →
      (micro c s).seq = .idle ∨ ∃ k' todo', (micro c s).seq = .busy cmd k' todo') ∧
  (∀ (i : Instr) (s t : State), exec i s = .next t → t.cmdStream = s.cmdStream) ∧
  ∀ s t : State, step s = .next t → t.cmdStream <:+ s.cmdStream

/-- 20_memory.md R61, R81, 30_encoding.md R114, R115: the trace, the responses and the events only grow. -/
def Obligations.StreamsOnlyGrow : Prop :=
  ∀ s t : State, step s = .next t →
    s.trace <+: t.trace ∧ s.responses <+: t.responses ∧ s.events <+: t.events

/-- 10_state.md R49, Table 4: the registers a command does not write, whatever interrupts come. The dispatch writes CUR_MODE and RX_BUF
only. -/
def Obligations.AccessTable : Prop :=
  ∀ (i : Instr) (s t : State), exec i s = .next t →
    (mnemonic i ∉ ["CONFIG", "SET_BW_CR"] → t.curBw = s.curBw ∧ t.curCr = s.curCr) ∧
    (mnemonic i ∉ ["CONFIG", "SET_SF"] → t.curSf = s.curSf) ∧
    (mnemonic i ∉ ["BEGIN", "CONFIG", "SET_PREAMBLE"] → t.curPre = s.curPre) ∧
    (mnemonic i ∉ ["BEGIN", "CONFIG", "SET_SYNC"] → t.curSync = s.curSync) ∧
    (mnemonic i ∉ ["SET_POWER"] → t.curPwr = s.curPwr) ∧
    (mnemonic i ∉ ["CONFIG"] → t.payloadLen = s.payloadLen ∧ t.iqInvert = s.iqInvert) ∧
    (mnemonic i ∉ ["SET_HDR_CRC"] → t.headerExpl = s.headerExpl ∧ t.crcEn = s.crcEn) ∧
    (mnemonic i ∉ ["CONFIG", "SET_RX_TIMEOUT"] → t.timeoutSymbols = s.timeoutSymbols) ∧
    (mnemonic i ∉ ["CONFIG", "SET_FREQ_HZ", "SET_FREQ_REG"] → t.freqHz = s.freqHz ∧ t.freqReg = s.freqReg) ∧
    (mnemonic i ∉ ["GET_STATS"] → t.lastRssi = s.lastRssi ∧ t.lastSnr = s.lastSnr) ∧
    (mnemonic i ∉ ["GET_FEI"] → t.lastFeiHz = s.lastFeiHz) ∧
    (mnemonic i ∉ ["SET_PPM"] → t.lastPpm = s.lastPpm) ∧
    (mnemonic i ∉ ["BEGIN"] → t.detected = s.detected)

/-- 41_mode.md R173: the commands that never change CUR_MODE. With interrupts, only a completion's STANDBY can appear in it; with a
quiet line it is unchanged, and so is RX_BUF. -/
def Obligations.ModeWriters : Prop :=
  ∀ (i : Instr) (s t : State), exec i s = .next t →
    (mnemonic i ∈ ["SET_BW_CR", "SET_SF", "SET_SYNC", "SET_PREAMBLE", "SET_RX_TIMEOUT", "SET_HDR_CRC", "GET_STATS", "GET_FEI",
        "SET_PPM"] →
      (t.curMode = s.curMode ∨ t.curMode = .standby) ∧ (s.Calm → t.curMode = s.curMode)) ∧
    (s.Calm → t.rxBuf = s.rxBuf)

/-- 10_state.md R46: no step clears FAULT_ABORT. -/
def Obligations.FaultAbortIsSticky : Prop :=
  ∀ s t : State, step s = .next t → s.faultAbort = true → t.faultAbort = true

/-- 70_reset_and_hazards.md R261: a host that waits for the transmit to end, whatever else it does, never sets FAULT_ABORT, whatever
interrupts come. -/
def Obligations.ObedientHostAbortsNothing : Prop :=
  ∀ (i : Instr) (s t : State), s.atRest = true → hostWaits i s = true → exec i s = .next t → t.faultAbort = s.faultAbort

/-- 70_reset_and_hazards.md R261: the commands that abort a transmit in flight. -/
def Obligations.TransmitAborted : Prop :=
  ∀ (i : Instr) (s : State), s.Undisturbed → s.detected = true → operandsLegal config i = true → s.curMode = .transmit →
    (mnemonic i ∈ ["CONFIG", "SET_FREQ_HZ", "SET_FREQ_REG", "TX", "ARM_RX"] ∨
      (∃ pwr, i = .setPower 0 pwr ∧ s.curPwr ≠ ⟨true, pwr⟩) ∨ (∃ mode, i = .setMode mode ∧ mode ≠ 3)) →
    ∃ t, exec i s = .next t ∧ t.faultAbort = true ∧ t.status = .ok

/-- 41_mode.md R174: the write-count law, for every sequence of SET_MODE commands with a quiet interrupt line. -/
def Obligations.WriteCountLaw : Prop :=
  ∀ (ms : List Mode) (s : State), s.Undisturbed → s.detected = true → .unknown ∉ ms →
    ∃ t, runCommands (ms.map fun m => .setMode (m.code.zeroExtend 8)) s = .next t ∧
      opModeWrites t.trace = opModeWrites s.trace + modeChanges s.curMode ms

/-- 40_config.md R135: a second CONFIG with the same bandwidth and coding rate writes REG_MODEM_CONFIG_1 zero more times. -/
def Obligations.ConfigTwice : Prop :=
  ∀ (o o' : ConfigOperands) (s : State), s.Undisturbed → s.detected = true → operandsLegal config (.config o) = true →
    operandsLegal config (.config o') = true → o'.bw = o.bw → o'.cr = o.cr →
    ∃ t u new, exec (.config o) s = .next t ∧ exec (.config o') t = .next u ∧ u.trace = t.trace ++ new ∧
      ∀ op ∈ new, op.writes 0x1D = false

/-- 70_reset_and_hazards.md R256: SET_SF leaves REG_MODEM_CONFIG_1 as it was programmed, also across SF 6. -/
def Obligations.SfChangeKeepsHeaderMode : Prop :=
  ∀ (sf : Byte) (s t : State), s.Undisturbed → exec (.setSf sf) s = .next t → chipImage t.trace 0x1D = chipImage s.trace 0x1D

/-! ## Observations and arithmetic -/

/-- 20_memory.md R62, R64, R66, R74, 70_reset_and_hazards.md R252: what each transaction does to ChipImage. It starts with nothing
known; a write programs its whole register; a burst programs one register for each byte, from its address up; a field write programs
the bits msb down to lsb and leaves the other bits as they were; every other register, and every other transaction, leaves the image
alone. -/
def Obligations.FieldWriteImage : Prop :=
  (∀ b : RegAddr, chipImage [] b = ⟨0, 0⟩) ∧
  (∀ (trace : List PortOp) (a b : RegAddr) (v : Byte),
    chipImage (trace ++ [.write a v]) b = if b = a then ⟨0xFF, v⟩ else chipImage trace b) ∧
  (∀ (trace : List PortOp) (a b : RegAddr) (bytes : List Byte),
    (∀ i v, bytes[i]? = some v → b.toNat = a.toNat + i → chipImage (trace ++ [.burstWrite a bytes]) b = ⟨0xFF, v⟩) ∧
    (b.toNat < a.toNat ∨ a.toNat + bytes.length ≤ b.toNat →
      chipImage (trace ++ [.burstWrite a bytes]) b = chipImage trace b)) ∧
  (∀ (trace : List PortOp) (a b : RegAddr) (msb lsb : Nat) (f : Byte) (k : Nat), lsb ≤ msb → msb ≤ 7 → k ≤ 7 →
    (chipImage (trace ++ [.field a msb lsb f]) b).value.getLsbD k =
      (if b = a ∧ lsb ≤ k ∧ k ≤ msb then f.getLsbD (k - lsb) else (chipImage trace b).value.getLsbD k) ∧
    (chipImage (trace ++ [.field a msb lsb f]) b).known.getLsbD k =
      (if b = a ∧ lsb ≤ k ∧ k ≤ msb then true else (chipImage trace b).known.getLsbD k)) ∧
  ∀ (trace : List PortOp) (op : PortOp) (b : RegAddr), op.writes b = false → chipImage (trace ++ [op]) b = chipImage trace b

/-- 40_config.md R152: the round trip of a frequency loses at most 62 Hz, for every frequency the check admits, and its register
value fits 24 bits. -/
def Obligations.FrequencyRoundTrip : Prop :=
  ∀ hz : BitVec 32, operandsLegal config (.setFreqHz hz) = true →
    freqToReg config hz.toNat < 2 ^ 24 ∧ regToHz config (freqToReg config hz.toNat) ≤ hz.toNat ∧
    hz.toNat ≤ regToHz config (freqToReg config hz.toNat) + 62

/-- 40_config.md R152 says, as derived, that the round trip always loses LESS than 62 Hz. It does not: by the rule's own two formulas
3479 Hz comes back as 3417 Hz (log 27). Expected to fail. -/
def Obligations.FrequencyRoundTripBelow62 : Prop :=
  ∀ hz : BitVec 32, operandsLegal config (.setFreqHz hz) = true →
    hz.toNat < regToHz config (freqToReg config hz.toNat) + 62

/-- 40_config.md R140, R132: the word programmed is the smallest permitted one that is not below the request. With any allow-list that
is not empty the scan, which wraps at 8 bits, ends in a permitted word. -/
def Obligations.SmallestPermittedSyncWord : Prop :=
  config.syncAllowed.length = 105 ∧
  (∀ req : Byte, syncSubstitute config.syncAllowed req ∈ config.syncAllowed ∧
    req.toNat ≤ (syncSubstitute config.syncAllowed req).toNat ∧
    ∀ v ∈ config.syncAllowed, req.toNat ≤ v.toNat → (syncSubstitute config.syncAllowed req).toNat ≤ v.toNat) ∧
  ∀ (allowed : List Byte) (req : Byte), allowed ≠ [] → syncSubstitute allowed req ∈ allowed

/-- 43_telemetry.md R198: the three readings of the frequency error that the rule calls equal. -/
def Obligations.FeiDecoding : Prop :=
  ∀ b0 b1 b2 : Byte,
    feiDecode b0 b1 b2 = ((b0.toNat % 8 * 2 ^ 16 + b1.toNat * 2 ^ 8 + b2.toNat : Nat) : Int) - (if b0.getLsbD 3 then 2 ^ 19 else 0) ∧
    feiDecode b0 b1 b2 = ((b0.toNat % 16 * 2 ^ 16 + b1.toNat * 2 ^ 8 + b2.toNat : Nat) : Int) - (if b0.getLsbD 3 then 2 ^ 20 else 0)

/-- 43_telemetry.md R200: where the exact quotient is within 8 bits, the correction is it, truncated toward zero: it never exceeds the
exact value in magnitude, and misses it by less than one. That it stays within 8 bits elsewhere is R200's saturation (log 15). -/
def Obligations.PpmTruncates : Prop :=
  ∀ (off : Int) (f : Nat), 1 ≤ f →
    -128 ≤ ppmFromHz config off f ∧ ppmFromHz config off f ≤ 127 ∧
    (0 ≤ off → off * 95000000 < 128 * (f * 100) →
      ppmFromHz config off f * (f * 100) ≤ off * 95000000 ∧ off * 95000000 < (ppmFromHz config off f + 1) * (f * 100)) ∧
    (off ≤ 0 → -129 * (f * 100) < off * 95000000 →
      off * 95000000 ≤ ppmFromHz config off f * (f * 100) ∧ (ppmFromHz config off f - 1) * (f * 100) < off * 95000000)

/-! ## Reset, and the invariants that every step keeps -/

/-- 10_state.md R50: the reset values. With another parameter table (00_scope.md R7) only PAYLOAD_LEN differs (R29). -/
def Obligations.ResetValues : Prop :=
  State.reset.curMode = .unknown ∧ State.reset.curMode.code = 0b111 ∧ State.reset.curBw = 0xF ∧ State.reset.curCr = 0 ∧
  State.reset.curSf = 0 ∧ State.reset.curPre = ⟨false, 0⟩ ∧ State.reset.curSync = ⟨false, 0⟩ ∧ State.reset.curPwr = ⟨false, 0⟩ ∧
  State.reset.payloadLen = 8 ∧ State.reset.iqInvert = false ∧ State.reset.headerExpl = false ∧ State.reset.crcEn = false ∧
  State.reset.timeoutSymbols = 0 ∧ State.reset.freqHz = 0 ∧ State.reset.freqReg = 0 ∧ State.reset.lastRssi = 0 ∧
  State.reset.lastSnr = 0 ∧ State.reset.lastFeiHz = 0 ∧ State.reset.lastPpm = 0 ∧ (∀ a, State.reset.rxBuf.read a = none) ∧
  State.reset.detected = false ∧ State.reset.status.code = 0x00 ∧ State.reset.seq = .idle ∧ State.reset.irqPending = false ∧
  State.reset.inDispatch = false ∧ State.reset.faultAbort = false ∧
  ∀ c : Config, State.resetWith c = { State.reset with payloadLen := c.payloadDefault }

/-- 10_state.md R23, R24, R25, R27, R29: the shadow registers keep legal values (CUR_SYNC a permitted word), at every step. -/
def Obligations.CachesStayLegal : Prop := ∀ s t : State, s.CachesLegal → step s = .next t → t.CachesLegal

/-- 10_state.md R40, 60_exceptions.md R230: RX_BUF keeps its 256 addresses, and every RX_DONE carries status 0x00 and as many bytes as
it says, at every step. That it also keeps its canonical form (addresses strictly rising) is a property of the model's own
representation, a DESIGN CHOICE (log 10), and no rule of the spec. -/
def Obligations.BufferStaysLegal : Prop := ∀ s t : State, s.BufferLegal → step s = .next t → t.BufferLegal

/-- 00_scope.md R13, 20_memory.md R75: no transaction but SetMode's writes REG_OP_MODE, and SetMode's writes 0x80 with the code of one
of the five modes, at every step. -/
def Obligations.TrafficStaysLegal : Prop := ∀ s t : State, s.TrafficLegal → step s = .next t → t.TrafficLegal

/-- 10_state.md R41, R44: while DETECTED = 0 no interrupt is pending and no dispatch is in progress, at every step. -/
def Obligations.UndetectedStaysSilent : Prop := ∀ s t : State, s.SilentUndetected → step s = .next t → t.SilentUndetected

/-- 10_state.md R22, 41_mode.md R173: once the chip is detected CUR_MODE is not UNKNOWN at any command boundary, at every step. -/
def Obligations.ModeStaysKnown : Prop := ∀ s t : State, s.ModeKnown → step s = .next t → t.ModeKnown

/-- 10_state.md R50: each invariant of this section holds at reset. -/
def Obligations.InvariantsHoldAtReset : Prop :=
  State.reset.CachesLegal ∧ State.reset.BufferLegal ∧ State.reset.TrafficLegal ∧ State.reset.SilentUndetected ∧
    State.reset.ModeKnown
end

