-- ==== Sys2Proof/Laws/Codec.lean ====
section
/-! SUPPORT. Taking a value apart into its encoded fields and putting it together again (30_encoding.md R94 to R100). -/

namespace Sys2Proof.Machine

theorem be24_bytes (v : BitVec 24) : be24 (v.extractLsb' 16 8) (v.extractLsb' 8 8) (v.extractLsb' 0 8) = v := by
  apply BitVec.eq_of_getLsbD_eq
  intro i hi
  simp only [be24, BitVec.getLsbD_append, BitVec.getLsbD_extractLsb']
  have h3 : i - 8 - 8 < 8 := by omega
  by_cases h1 : i < 8
  · simp [h1]
  · by_cases h2 : i - 8 < 8
    · simp only [h1, h2, if_false, if_true, decide_true, Bool.true_and]; congr 1; omega
    · simp only [h1, h2, h3, if_false, decide_true, Bool.true_and]; congr 1; omega

theorem be32_bytes (v : BitVec 32) :
    be32 (v.extractLsb' 24 8) (v.extractLsb' 16 8) (v.extractLsb' 8 8) (v.extractLsb' 0 8) = v := by
  apply BitVec.eq_of_getLsbD_eq
  intro i hi
  simp only [be32, BitVec.getLsbD_append, BitVec.getLsbD_extractLsb']
  have h4 : i - 8 - 8 - 8 < 8 := by omega
  by_cases h1 : i < 8
  · simp [h1]
  · by_cases h2 : i - 8 < 8
    · simp only [h1, h2, if_false, if_true, decide_true, Bool.true_and]; congr 1; omega
    · by_cases h3 : i - 8 - 8 < 8
      · simp only [h1, h2, h3, if_false, if_true, decide_true, Bool.true_and]; congr 1; omega
      · simp only [h1, h2, h3, h4, if_false, decide_true, Bool.true_and]; congr 1; omega

/-- The high part of a joined value, byte by byte from the left. -/
theorem extract_append_high {n m : Nat} (a : BitVec n) (b : BitVec m) (k : Nat) :
    (a ++ b).extractLsb' (m + k) 8 = a.extractLsb' k 8 := by
  apply BitVec.eq_of_getLsbD_eq
  intro i hi
  simp only [BitVec.getLsbD_extractLsb', BitVec.getLsbD_append, hi, decide_true, Bool.true_and]
  rw [if_neg (by omega)]
  congr 1
  omega

theorem extract_append_low {n : Nat} (a : BitVec n) (b : Byte) : (a ++ b).extractLsb' 0 8 = b := by
  apply BitVec.eq_of_getLsbD_eq
  intro i hi
  simp [BitVec.getLsbD_append, hi]

theorem extract_self (a : Byte) : a.extractLsb' 0 8 = a := by
  apply BitVec.eq_of_getLsbD_eq
  intro i hi
  simp [hi]

theorem bytes24_be (b1 b2 b3 : Byte) : bytes24 (be24 b1 b2 b3) = [b1, b2, b3] := by
  have h1 : (be24 b1 b2 b3).extractLsb' 16 8 = b1 := by
    unfold be24
    exact (extract_append_high _ _ 8).trans ((extract_append_high _ _ 0).trans (extract_self _))
  have h2 : (be24 b1 b2 b3).extractLsb' 8 8 = b2 := by
    unfold be24
    exact (extract_append_high _ _ 0).trans (extract_append_low _ _)
  have h3 : (be24 b1 b2 b3).extractLsb' 0 8 = b3 := extract_append_low _ _
  simp only [bytes24, h1, h2, h3]

theorem bytes32_be (b1 b2 b3 b4 : Byte) : bytes32 (be32 b1 b2 b3 b4) = [b1, b2, b3, b4] := by
  have h1 : (be32 b1 b2 b3 b4).extractLsb' 24 8 = b1 := by
    unfold be32
    exact (extract_append_high _ _ 16).trans ((extract_append_high _ _ 8).trans ((extract_append_high _ _ 0).trans (extract_self _)))
  have h2 : (be32 b1 b2 b3 b4).extractLsb' 16 8 = b2 := by
    unfold be32
    exact (extract_append_high _ _ 8).trans ((extract_append_high _ _ 0).trans (extract_append_low _ _))
  have h3 : (be32 b1 b2 b3 b4).extractLsb' 8 8 = b3 := by
    unfold be32
    exact (extract_append_high _ _ 0).trans (extract_append_low _ _)
  have h4 : (be32 b1 b2 b3 b4).extractLsb' 0 8 = b4 := extract_append_low _ _
  simp only [bytes32, h1, h2, h3, h4]

/-! ### Operand bytes (30_encoding.md R96, R99) -/

theorem nibbles (b : Byte) : b.extractLsb' 4 4 ++ b.extractLsb' 0 4 = b := by revert b; decide
theorem nibble_high (x y : BitVec 4) : (x ++ y : Byte).extractLsb' 4 4 = x := by revert x y; decide
theorem nibble_low (x y : BitVec 4) : (x ++ y : Byte).extractLsb' 0 4 = y := by revert x y; decide

theorem bwCrByte (b : Byte) : b.extractLsb' 4 4 ++ b.extractLsb' 1 3 ++ b.extractLsb' 0 1 = b := by revert b; decide
theorem bwCrByte_bw (bw : BitVec 4) (cr : BitVec 3) (r : BitVec 1) : (bw ++ cr ++ r : Byte).extractLsb' 4 4 = bw := by
  revert bw cr r; decide
theorem bwCrByte_cr (bw : BitVec 4) (cr : BitVec 3) (r : BitVec 1) : (bw ++ cr ++ r : Byte).extractLsb' 1 3 = cr := by
  revert bw cr r; decide
theorem bwCrByte_rsv (bw : BitVec 4) (cr : BitVec 3) (r : BitVec 1) : (bw ++ cr ++ r : Byte).extractLsb' 0 1 = r := by
  revert bw cr r; decide

theorem hdrCrcByte (b : Byte) : b.extractLsb' 2 6 ++ BitVec.ofBool (b.getLsbD 1) ++ BitVec.ofBool (b.getLsbD 0) = b := by
  revert b; decide
theorem hdrCrcByte_rsv (r : BitVec 6) (h c : Bool) :
    (r ++ BitVec.ofBool h ++ BitVec.ofBool c : Byte).extractLsb' 2 6 = r := by revert r h c; decide
theorem hdrCrcByte_hdr (r : BitVec 6) (h c : Bool) : (r ++ BitVec.ofBool h ++ BitVec.ofBool c : Byte).getLsbD 1 = h := by
  revert r h c; decide
theorem hdrCrcByte_crc (r : BitVec 6) (h c : Bool) : (r ++ BitVec.ofBool h ++ BitVec.ofBool c : Byte).getLsbD 0 = c := by
  revert r h c; decide

/-- Byte 2 of CONFIG, taken apart. -/
theorem configByte2_fields (o : ConfigOperands) :
    (configByte2 o).extractLsb' 5 3 = o.cr ∧ (configByte2 o).getLsbD 4 = o.iq ∧ (configByte2 o).getLsbD 3 = o.fu ∧
      (configByte2 o).getLsbD 2 = o.swp ∧ (configByte2 o).extractLsb' 0 2 = o.rsv := by
  obtain ⟨bw, sf, cr, iq, fu, swp, rsv, pre, sw, plen, freq, tout⟩ := o
  simp only [configByte2]
  clear bw sf pre sw plen freq tout
  revert cr iq fu swp rsv
  decide

/-- Byte 2 of CONFIG, put together. -/
theorem configByte2_join (b : Byte) :
    b.extractLsb' 5 3 ++ BitVec.ofBool (b.getLsbD 4) ++ BitVec.ofBool (b.getLsbD 3) ++ BitVec.ofBool (b.getLsbD 2)
      ++ b.extractLsb' 0 2 = b := by
  revert b; decide

end Sys2Proof.Machine
end

