-- ==== Sys2Proof/Laws/State.lean ====
section
/-! SUPPORT. One lemma for each field and each named update of the state: what the field holds after it. Later proofs cite these and
unfold no update. -/

namespace Sys2Proof.Machine

/-! ### s.record t -/

@[simp] theorem record_curMode (s : State) (t : PortOp) : (s.record t).curMode = s.curMode := rfl
@[simp] theorem record_curBw (s : State) (t : PortOp) : (s.record t).curBw = s.curBw := rfl
@[simp] theorem record_curCr (s : State) (t : PortOp) : (s.record t).curCr = s.curCr := rfl
@[simp] theorem record_curSf (s : State) (t : PortOp) : (s.record t).curSf = s.curSf := rfl
@[simp] theorem record_curPre (s : State) (t : PortOp) : (s.record t).curPre = s.curPre := rfl
@[simp] theorem record_curSync (s : State) (t : PortOp) : (s.record t).curSync = s.curSync := rfl
@[simp] theorem record_curPwr (s : State) (t : PortOp) : (s.record t).curPwr = s.curPwr := rfl
@[simp] theorem record_payloadLen (s : State) (t : PortOp) : (s.record t).payloadLen = s.payloadLen := rfl
@[simp] theorem record_iqInvert (s : State) (t : PortOp) : (s.record t).iqInvert = s.iqInvert := rfl
@[simp] theorem record_headerExpl (s : State) (t : PortOp) : (s.record t).headerExpl = s.headerExpl := rfl
@[simp] theorem record_crcEn (s : State) (t : PortOp) : (s.record t).crcEn = s.crcEn := rfl
@[simp] theorem record_timeoutSymbols (s : State) (t : PortOp) : (s.record t).timeoutSymbols = s.timeoutSymbols := rfl
@[simp] theorem record_freqHz (s : State) (t : PortOp) : (s.record t).freqHz = s.freqHz := rfl
@[simp] theorem record_freqReg (s : State) (t : PortOp) : (s.record t).freqReg = s.freqReg := rfl
@[simp] theorem record_lastRssi (s : State) (t : PortOp) : (s.record t).lastRssi = s.lastRssi := rfl
@[simp] theorem record_lastSnr (s : State) (t : PortOp) : (s.record t).lastSnr = s.lastSnr := rfl
@[simp] theorem record_lastFeiHz (s : State) (t : PortOp) : (s.record t).lastFeiHz = s.lastFeiHz := rfl
@[simp] theorem record_lastPpm (s : State) (t : PortOp) : (s.record t).lastPpm = s.lastPpm := rfl
@[simp] theorem record_rxBuf (s : State) (t : PortOp) : (s.record t).rxBuf = s.rxBuf := rfl
@[simp] theorem record_detected (s : State) (t : PortOp) : (s.record t).detected = s.detected := rfl
@[simp] theorem record_status (s : State) (t : PortOp) : (s.record t).status = s.status := rfl
@[simp] theorem record_seq (s : State) (t : PortOp) : (s.record t).seq = s.seq := rfl
@[simp] theorem record_irqPending (s : State) (t : PortOp) : (s.record t).irqPending = s.irqPending := rfl
@[simp] theorem record_dispatch (s : State) (t : PortOp) : (s.record t).dispatch = s.dispatch := rfl
@[simp] theorem record_faultAbort (s : State) (t : PortOp) : (s.record t).faultAbort = s.faultAbort := rfl
@[simp] theorem record_cmdStream (s : State) (t : PortOp) : (s.record t).cmdStream = s.cmdStream := rfl
@[simp] theorem record_responses (s : State) (t : PortOp) : (s.record t).responses = s.responses := rfl
@[simp] theorem record_events (s : State) (t : PortOp) : (s.record t).events = s.events := rfl
@[simp] theorem record_trace (s : State) (t : PortOp) : (s.record t).trace = s.trace ++ [t] := rfl
@[simp] theorem record_irqLine (s : State) (t : PortOp) : (s.record t).irqLine = s.irqLine := rfl
@[simp] theorem record_chipReads (s : State) (t : PortOp) : (s.record t).chipReads = s.chipReads := rfl
@[simp] theorem record_draws (s : State) (t : PortOp) : (s.record t).draws = s.draws := rfl

/-! ### s.emit e -/

@[simp] theorem emit_curMode (s : State) (e : Event) : (s.emit e).curMode = s.curMode := rfl
@[simp] theorem emit_curBw (s : State) (e : Event) : (s.emit e).curBw = s.curBw := rfl
@[simp] theorem emit_curCr (s : State) (e : Event) : (s.emit e).curCr = s.curCr := rfl
@[simp] theorem emit_curSf (s : State) (e : Event) : (s.emit e).curSf = s.curSf := rfl
@[simp] theorem emit_curPre (s : State) (e : Event) : (s.emit e).curPre = s.curPre := rfl
@[simp] theorem emit_curSync (s : State) (e : Event) : (s.emit e).curSync = s.curSync := rfl
@[simp] theorem emit_curPwr (s : State) (e : Event) : (s.emit e).curPwr = s.curPwr := rfl
@[simp] theorem emit_payloadLen (s : State) (e : Event) : (s.emit e).payloadLen = s.payloadLen := rfl
@[simp] theorem emit_iqInvert (s : State) (e : Event) : (s.emit e).iqInvert = s.iqInvert := rfl
@[simp] theorem emit_headerExpl (s : State) (e : Event) : (s.emit e).headerExpl = s.headerExpl := rfl
@[simp] theorem emit_crcEn (s : State) (e : Event) : (s.emit e).crcEn = s.crcEn := rfl
@[simp] theorem emit_timeoutSymbols (s : State) (e : Event) : (s.emit e).timeoutSymbols = s.timeoutSymbols := rfl
@[simp] theorem emit_freqHz (s : State) (e : Event) : (s.emit e).freqHz = s.freqHz := rfl
@[simp] theorem emit_freqReg (s : State) (e : Event) : (s.emit e).freqReg = s.freqReg := rfl
@[simp] theorem emit_lastRssi (s : State) (e : Event) : (s.emit e).lastRssi = s.lastRssi := rfl
@[simp] theorem emit_lastSnr (s : State) (e : Event) : (s.emit e).lastSnr = s.lastSnr := rfl
@[simp] theorem emit_lastFeiHz (s : State) (e : Event) : (s.emit e).lastFeiHz = s.lastFeiHz := rfl
@[simp] theorem emit_lastPpm (s : State) (e : Event) : (s.emit e).lastPpm = s.lastPpm := rfl
@[simp] theorem emit_rxBuf (s : State) (e : Event) : (s.emit e).rxBuf = s.rxBuf := rfl
@[simp] theorem emit_detected (s : State) (e : Event) : (s.emit e).detected = s.detected := rfl
@[simp] theorem emit_status (s : State) (e : Event) : (s.emit e).status = s.status := rfl
@[simp] theorem emit_seq (s : State) (e : Event) : (s.emit e).seq = s.seq := rfl
@[simp] theorem emit_irqPending (s : State) (e : Event) : (s.emit e).irqPending = s.irqPending := rfl
@[simp] theorem emit_dispatch (s : State) (e : Event) : (s.emit e).dispatch = s.dispatch := rfl
@[simp] theorem emit_faultAbort (s : State) (e : Event) : (s.emit e).faultAbort = s.faultAbort := rfl
@[simp] theorem emit_cmdStream (s : State) (e : Event) : (s.emit e).cmdStream = s.cmdStream := rfl
@[simp] theorem emit_responses (s : State) (e : Event) : (s.emit e).responses = s.responses := rfl
@[simp] theorem emit_events (s : State) (e : Event) : (s.emit e).events = s.events ++ [e] := rfl
@[simp] theorem emit_trace (s : State) (e : Event) : (s.emit e).trace = s.trace := rfl
@[simp] theorem emit_irqLine (s : State) (e : Event) : (s.emit e).irqLine = s.irqLine := rfl
@[simp] theorem emit_chipReads (s : State) (e : Event) : (s.emit e).chipReads = s.chipReads := rfl
@[simp] theorem emit_draws (s : State) (e : Event) : (s.emit e).draws = s.draws := rfl

/-! ### s.enterDispatch -/

@[simp] theorem enterDispatch_curMode (s : State) : (s.enterDispatch).curMode = s.curMode := rfl
@[simp] theorem enterDispatch_curBw (s : State) : (s.enterDispatch).curBw = s.curBw := rfl
@[simp] theorem enterDispatch_curCr (s : State) : (s.enterDispatch).curCr = s.curCr := rfl
@[simp] theorem enterDispatch_curSf (s : State) : (s.enterDispatch).curSf = s.curSf := rfl
@[simp] theorem enterDispatch_curPre (s : State) : (s.enterDispatch).curPre = s.curPre := rfl
@[simp] theorem enterDispatch_curSync (s : State) : (s.enterDispatch).curSync = s.curSync := rfl
@[simp] theorem enterDispatch_curPwr (s : State) : (s.enterDispatch).curPwr = s.curPwr := rfl
@[simp] theorem enterDispatch_payloadLen (s : State) : (s.enterDispatch).payloadLen = s.payloadLen := rfl
@[simp] theorem enterDispatch_iqInvert (s : State) : (s.enterDispatch).iqInvert = s.iqInvert := rfl
@[simp] theorem enterDispatch_headerExpl (s : State) : (s.enterDispatch).headerExpl = s.headerExpl := rfl
@[simp] theorem enterDispatch_crcEn (s : State) : (s.enterDispatch).crcEn = s.crcEn := rfl
@[simp] theorem enterDispatch_timeoutSymbols (s : State) : (s.enterDispatch).timeoutSymbols = s.timeoutSymbols := rfl
@[simp] theorem enterDispatch_freqHz (s : State) : (s.enterDispatch).freqHz = s.freqHz := rfl
@[simp] theorem enterDispatch_freqReg (s : State) : (s.enterDispatch).freqReg = s.freqReg := rfl
@[simp] theorem enterDispatch_lastRssi (s : State) : (s.enterDispatch).lastRssi = s.lastRssi := rfl
@[simp] theorem enterDispatch_lastSnr (s : State) : (s.enterDispatch).lastSnr = s.lastSnr := rfl
@[simp] theorem enterDispatch_lastFeiHz (s : State) : (s.enterDispatch).lastFeiHz = s.lastFeiHz := rfl
@[simp] theorem enterDispatch_lastPpm (s : State) : (s.enterDispatch).lastPpm = s.lastPpm := rfl
@[simp] theorem enterDispatch_rxBuf (s : State) : (s.enterDispatch).rxBuf = s.rxBuf := rfl
@[simp] theorem enterDispatch_detected (s : State) : (s.enterDispatch).detected = s.detected := rfl
@[simp] theorem enterDispatch_status (s : State) : (s.enterDispatch).status = s.status := rfl
@[simp] theorem enterDispatch_seq (s : State) : (s.enterDispatch).seq = s.seq := rfl
@[simp] theorem enterDispatch_irqPending (s : State) : (s.enterDispatch).irqPending = false := rfl
@[simp] theorem enterDispatch_dispatch (s : State) : (s.enterDispatch).dispatch = some .readFlags := rfl
@[simp] theorem enterDispatch_faultAbort (s : State) : (s.enterDispatch).faultAbort = s.faultAbort := rfl
@[simp] theorem enterDispatch_cmdStream (s : State) : (s.enterDispatch).cmdStream = s.cmdStream := rfl
@[simp] theorem enterDispatch_responses (s : State) : (s.enterDispatch).responses = s.responses := rfl
@[simp] theorem enterDispatch_events (s : State) : (s.enterDispatch).events = s.events := rfl
@[simp] theorem enterDispatch_trace (s : State) : (s.enterDispatch).trace = s.trace := rfl
@[simp] theorem enterDispatch_irqLine (s : State) : (s.enterDispatch).irqLine = s.irqLine := rfl
@[simp] theorem enterDispatch_chipReads (s : State) : (s.enterDispatch).chipReads = s.chipReads := rfl
@[simp] theorem enterDispatch_draws (s : State) : (s.enterDispatch).draws = s.draws := rfl

/-! ### s.leaveDispatch -/

@[simp] theorem leaveDispatch_curMode (s : State) : (s.leaveDispatch).curMode = s.curMode := rfl
@[simp] theorem leaveDispatch_curBw (s : State) : (s.leaveDispatch).curBw = s.curBw := rfl
@[simp] theorem leaveDispatch_curCr (s : State) : (s.leaveDispatch).curCr = s.curCr := rfl
@[simp] theorem leaveDispatch_curSf (s : State) : (s.leaveDispatch).curSf = s.curSf := rfl
@[simp] theorem leaveDispatch_curPre (s : State) : (s.leaveDispatch).curPre = s.curPre := rfl
@[simp] theorem leaveDispatch_curSync (s : State) : (s.leaveDispatch).curSync = s.curSync := rfl
@[simp] theorem leaveDispatch_curPwr (s : State) : (s.leaveDispatch).curPwr = s.curPwr := rfl
@[simp] theorem leaveDispatch_payloadLen (s : State) : (s.leaveDispatch).payloadLen = s.payloadLen := rfl
@[simp] theorem leaveDispatch_iqInvert (s : State) : (s.leaveDispatch).iqInvert = s.iqInvert := rfl
@[simp] theorem leaveDispatch_headerExpl (s : State) : (s.leaveDispatch).headerExpl = s.headerExpl := rfl
@[simp] theorem leaveDispatch_crcEn (s : State) : (s.leaveDispatch).crcEn = s.crcEn := rfl
@[simp] theorem leaveDispatch_timeoutSymbols (s : State) : (s.leaveDispatch).timeoutSymbols = s.timeoutSymbols := rfl
@[simp] theorem leaveDispatch_freqHz (s : State) : (s.leaveDispatch).freqHz = s.freqHz := rfl
@[simp] theorem leaveDispatch_freqReg (s : State) : (s.leaveDispatch).freqReg = s.freqReg := rfl
@[simp] theorem leaveDispatch_lastRssi (s : State) : (s.leaveDispatch).lastRssi = s.lastRssi := rfl
@[simp] theorem leaveDispatch_lastSnr (s : State) : (s.leaveDispatch).lastSnr = s.lastSnr := rfl
@[simp] theorem leaveDispatch_lastFeiHz (s : State) : (s.leaveDispatch).lastFeiHz = s.lastFeiHz := rfl
@[simp] theorem leaveDispatch_lastPpm (s : State) : (s.leaveDispatch).lastPpm = s.lastPpm := rfl
@[simp] theorem leaveDispatch_rxBuf (s : State) : (s.leaveDispatch).rxBuf = s.rxBuf := rfl
@[simp] theorem leaveDispatch_detected (s : State) : (s.leaveDispatch).detected = s.detected := rfl
@[simp] theorem leaveDispatch_status (s : State) : (s.leaveDispatch).status = s.status := rfl
@[simp] theorem leaveDispatch_seq (s : State) : (s.leaveDispatch).seq = s.seq := rfl
@[simp] theorem leaveDispatch_irqPending (s : State) : (s.leaveDispatch).irqPending = s.irqPending := rfl
@[simp] theorem leaveDispatch_dispatch (s : State) : (s.leaveDispatch).dispatch = none := rfl
@[simp] theorem leaveDispatch_faultAbort (s : State) : (s.leaveDispatch).faultAbort = s.faultAbort := rfl
@[simp] theorem leaveDispatch_cmdStream (s : State) : (s.leaveDispatch).cmdStream = s.cmdStream := rfl
@[simp] theorem leaveDispatch_responses (s : State) : (s.leaveDispatch).responses = s.responses := rfl
@[simp] theorem leaveDispatch_events (s : State) : (s.leaveDispatch).events = s.events := rfl
@[simp] theorem leaveDispatch_trace (s : State) : (s.leaveDispatch).trace = s.trace := rfl
@[simp] theorem leaveDispatch_irqLine (s : State) : (s.leaveDispatch).irqLine = s.irqLine := rfl
@[simp] theorem leaveDispatch_chipReads (s : State) : (s.leaveDispatch).chipReads = s.chipReads := rfl
@[simp] theorem leaveDispatch_draws (s : State) : (s.leaveDispatch).draws = s.draws := rfl

/-! ### s.respond st r -/

@[simp] theorem respond_curMode (s : State) (st : Status) (r : List Byte) : (s.respond st r).curMode = s.curMode := rfl
@[simp] theorem respond_curBw (s : State) (st : Status) (r : List Byte) : (s.respond st r).curBw = s.curBw := rfl
@[simp] theorem respond_curCr (s : State) (st : Status) (r : List Byte) : (s.respond st r).curCr = s.curCr := rfl
@[simp] theorem respond_curSf (s : State) (st : Status) (r : List Byte) : (s.respond st r).curSf = s.curSf := rfl
@[simp] theorem respond_curPre (s : State) (st : Status) (r : List Byte) : (s.respond st r).curPre = s.curPre := rfl
@[simp] theorem respond_curSync (s : State) (st : Status) (r : List Byte) : (s.respond st r).curSync = s.curSync := rfl
@[simp] theorem respond_curPwr (s : State) (st : Status) (r : List Byte) : (s.respond st r).curPwr = s.curPwr := rfl
@[simp] theorem respond_payloadLen (s : State) (st : Status) (r : List Byte) : (s.respond st r).payloadLen = s.payloadLen := rfl
@[simp] theorem respond_iqInvert (s : State) (st : Status) (r : List Byte) : (s.respond st r).iqInvert = s.iqInvert := rfl
@[simp] theorem respond_headerExpl (s : State) (st : Status) (r : List Byte) : (s.respond st r).headerExpl = s.headerExpl := rfl
@[simp] theorem respond_crcEn (s : State) (st : Status) (r : List Byte) : (s.respond st r).crcEn = s.crcEn := rfl
@[simp] theorem respond_timeoutSymbols (s : State) (st : Status) (r : List Byte) : (s.respond st r).timeoutSymbols = s.timeoutSymbols := rfl
@[simp] theorem respond_freqHz (s : State) (st : Status) (r : List Byte) : (s.respond st r).freqHz = s.freqHz := rfl
@[simp] theorem respond_freqReg (s : State) (st : Status) (r : List Byte) : (s.respond st r).freqReg = s.freqReg := rfl
@[simp] theorem respond_lastRssi (s : State) (st : Status) (r : List Byte) : (s.respond st r).lastRssi = s.lastRssi := rfl
@[simp] theorem respond_lastSnr (s : State) (st : Status) (r : List Byte) : (s.respond st r).lastSnr = s.lastSnr := rfl
@[simp] theorem respond_lastFeiHz (s : State) (st : Status) (r : List Byte) : (s.respond st r).lastFeiHz = s.lastFeiHz := rfl
@[simp] theorem respond_lastPpm (s : State) (st : Status) (r : List Byte) : (s.respond st r).lastPpm = s.lastPpm := rfl
@[simp] theorem respond_rxBuf (s : State) (st : Status) (r : List Byte) : (s.respond st r).rxBuf = s.rxBuf := rfl
@[simp] theorem respond_detected (s : State) (st : Status) (r : List Byte) : (s.respond st r).detected = s.detected := rfl
@[simp] theorem respond_status (s : State) (st : Status) (r : List Byte) : (s.respond st r).status = st := rfl
@[simp] theorem respond_seq (s : State) (st : Status) (r : List Byte) : (s.respond st r).seq = .idle := rfl
@[simp] theorem respond_irqPending (s : State) (st : Status) (r : List Byte) : (s.respond st r).irqPending = s.irqPending := rfl
@[simp] theorem respond_dispatch (s : State) (st : Status) (r : List Byte) : (s.respond st r).dispatch = s.dispatch := rfl
@[simp] theorem respond_faultAbort (s : State) (st : Status) (r : List Byte) : (s.respond st r).faultAbort = s.faultAbort := rfl
@[simp] theorem respond_cmdStream (s : State) (st : Status) (r : List Byte) : (s.respond st r).cmdStream = s.cmdStream := rfl
@[simp] theorem respond_responses (s : State) (st : Status) (r : List Byte) : (s.respond st r).responses = s.responses ++ [⟨st, r⟩] := rfl
@[simp] theorem respond_events (s : State) (st : Status) (r : List Byte) : (s.respond st r).events = s.events := rfl
@[simp] theorem respond_trace (s : State) (st : Status) (r : List Byte) : (s.respond st r).trace = s.trace := rfl
@[simp] theorem respond_irqLine (s : State) (st : Status) (r : List Byte) : (s.respond st r).irqLine = s.irqLine := rfl
@[simp] theorem respond_chipReads (s : State) (st : Status) (r : List Byte) : (s.respond st r).chipReads = s.chipReads := rfl
@[simp] theorem respond_draws (s : State) (st : Status) (r : List Byte) : (s.respond st r).draws = s.draws := rfl

/-! ### s.reject st -/

@[simp] theorem reject_curMode (s : State) (st : Status) : (s.reject st).curMode = s.curMode := rfl
@[simp] theorem reject_curBw (s : State) (st : Status) : (s.reject st).curBw = s.curBw := rfl
@[simp] theorem reject_curCr (s : State) (st : Status) : (s.reject st).curCr = s.curCr := rfl
@[simp] theorem reject_curSf (s : State) (st : Status) : (s.reject st).curSf = s.curSf := rfl
@[simp] theorem reject_curPre (s : State) (st : Status) : (s.reject st).curPre = s.curPre := rfl
@[simp] theorem reject_curSync (s : State) (st : Status) : (s.reject st).curSync = s.curSync := rfl
@[simp] theorem reject_curPwr (s : State) (st : Status) : (s.reject st).curPwr = s.curPwr := rfl
@[simp] theorem reject_payloadLen (s : State) (st : Status) : (s.reject st).payloadLen = s.payloadLen := rfl
@[simp] theorem reject_iqInvert (s : State) (st : Status) : (s.reject st).iqInvert = s.iqInvert := rfl
@[simp] theorem reject_headerExpl (s : State) (st : Status) : (s.reject st).headerExpl = s.headerExpl := rfl
@[simp] theorem reject_crcEn (s : State) (st : Status) : (s.reject st).crcEn = s.crcEn := rfl
@[simp] theorem reject_timeoutSymbols (s : State) (st : Status) : (s.reject st).timeoutSymbols = s.timeoutSymbols := rfl
@[simp] theorem reject_freqHz (s : State) (st : Status) : (s.reject st).freqHz = s.freqHz := rfl
@[simp] theorem reject_freqReg (s : State) (st : Status) : (s.reject st).freqReg = s.freqReg := rfl
@[simp] theorem reject_lastRssi (s : State) (st : Status) : (s.reject st).lastRssi = s.lastRssi := rfl
@[simp] theorem reject_lastSnr (s : State) (st : Status) : (s.reject st).lastSnr = s.lastSnr := rfl
@[simp] theorem reject_lastFeiHz (s : State) (st : Status) : (s.reject st).lastFeiHz = s.lastFeiHz := rfl
@[simp] theorem reject_lastPpm (s : State) (st : Status) : (s.reject st).lastPpm = s.lastPpm := rfl
@[simp] theorem reject_rxBuf (s : State) (st : Status) : (s.reject st).rxBuf = s.rxBuf := rfl
@[simp] theorem reject_detected (s : State) (st : Status) : (s.reject st).detected = s.detected := rfl
@[simp] theorem reject_status (s : State) (st : Status) : (s.reject st).status = st := rfl
@[simp] theorem reject_seq (s : State) (st : Status) : (s.reject st).seq = s.seq := rfl
@[simp] theorem reject_irqPending (s : State) (st : Status) : (s.reject st).irqPending = s.irqPending := rfl
@[simp] theorem reject_dispatch (s : State) (st : Status) : (s.reject st).dispatch = s.dispatch := rfl
@[simp] theorem reject_faultAbort (s : State) (st : Status) : (s.reject st).faultAbort = s.faultAbort := rfl
@[simp] theorem reject_cmdStream (s : State) (st : Status) : (s.reject st).cmdStream = s.cmdStream := rfl
@[simp] theorem reject_responses (s : State) (st : Status) : (s.reject st).responses = s.responses ++ [⟨st, []⟩] := rfl
@[simp] theorem reject_events (s : State) (st : Status) : (s.reject st).events = s.events := rfl
@[simp] theorem reject_trace (s : State) (st : Status) : (s.reject st).trace = s.trace := rfl
@[simp] theorem reject_irqLine (s : State) (st : Status) : (s.reject st).irqLine = s.irqLine := rfl
@[simp] theorem reject_chipReads (s : State) (st : Status) : (s.reject st).chipReads = s.chipReads := rfl
@[simp] theorem reject_draws (s : State) (st : Status) : (s.reject st).draws = s.draws := rfl

/-! ### s.advance i k ts -/

@[simp] theorem advance_curMode (s : State) (i : Instr) (k : Nat) (ts : List Task) : (s.advance i k ts).curMode = s.curMode := rfl
@[simp] theorem advance_curBw (s : State) (i : Instr) (k : Nat) (ts : List Task) : (s.advance i k ts).curBw = s.curBw := rfl
@[simp] theorem advance_curCr (s : State) (i : Instr) (k : Nat) (ts : List Task) : (s.advance i k ts).curCr = s.curCr := rfl
@[simp] theorem advance_curSf (s : State) (i : Instr) (k : Nat) (ts : List Task) : (s.advance i k ts).curSf = s.curSf := rfl
@[simp] theorem advance_curPre (s : State) (i : Instr) (k : Nat) (ts : List Task) : (s.advance i k ts).curPre = s.curPre := rfl
@[simp] theorem advance_curSync (s : State) (i : Instr) (k : Nat) (ts : List Task) : (s.advance i k ts).curSync = s.curSync := rfl
@[simp] theorem advance_curPwr (s : State) (i : Instr) (k : Nat) (ts : List Task) : (s.advance i k ts).curPwr = s.curPwr := rfl
@[simp] theorem advance_payloadLen (s : State) (i : Instr) (k : Nat) (ts : List Task) : (s.advance i k ts).payloadLen = s.payloadLen := rfl
@[simp] theorem advance_iqInvert (s : State) (i : Instr) (k : Nat) (ts : List Task) : (s.advance i k ts).iqInvert = s.iqInvert := rfl
@[simp] theorem advance_headerExpl (s : State) (i : Instr) (k : Nat) (ts : List Task) : (s.advance i k ts).headerExpl = s.headerExpl := rfl
@[simp] theorem advance_crcEn (s : State) (i : Instr) (k : Nat) (ts : List Task) : (s.advance i k ts).crcEn = s.crcEn := rfl
@[simp] theorem advance_timeoutSymbols (s : State) (i : Instr) (k : Nat) (ts : List Task) : (s.advance i k ts).timeoutSymbols = s.timeoutSymbols := rfl
@[simp] theorem advance_freqHz (s : State) (i : Instr) (k : Nat) (ts : List Task) : (s.advance i k ts).freqHz = s.freqHz := rfl
@[simp] theorem advance_freqReg (s : State) (i : Instr) (k : Nat) (ts : List Task) : (s.advance i k ts).freqReg = s.freqReg := rfl
@[simp] theorem advance_lastRssi (s : State) (i : Instr) (k : Nat) (ts : List Task) : (s.advance i k ts).lastRssi = s.lastRssi := rfl
@[simp] theorem advance_lastSnr (s : State) (i : Instr) (k : Nat) (ts : List Task) : (s.advance i k ts).lastSnr = s.lastSnr := rfl
@[simp] theorem advance_lastFeiHz (s : State) (i : Instr) (k : Nat) (ts : List Task) : (s.advance i k ts).lastFeiHz = s.lastFeiHz := rfl
@[simp] theorem advance_lastPpm (s : State) (i : Instr) (k : Nat) (ts : List Task) : (s.advance i k ts).lastPpm = s.lastPpm := rfl
@[simp] theorem advance_rxBuf (s : State) (i : Instr) (k : Nat) (ts : List Task) : (s.advance i k ts).rxBuf = s.rxBuf := rfl
@[simp] theorem advance_detected (s : State) (i : Instr) (k : Nat) (ts : List Task) : (s.advance i k ts).detected = s.detected := rfl
@[simp] theorem advance_status (s : State) (i : Instr) (k : Nat) (ts : List Task) : (s.advance i k ts).status = s.status := rfl
@[simp] theorem advance_seq (s : State) (i : Instr) (k : Nat) (ts : List Task) : (s.advance i k ts).seq = .busy i (k + 1) ts := rfl
@[simp] theorem advance_irqPending (s : State) (i : Instr) (k : Nat) (ts : List Task) : (s.advance i k ts).irqPending = s.irqPending := rfl
@[simp] theorem advance_dispatch (s : State) (i : Instr) (k : Nat) (ts : List Task) : (s.advance i k ts).dispatch = s.dispatch := rfl
@[simp] theorem advance_faultAbort (s : State) (i : Instr) (k : Nat) (ts : List Task) : (s.advance i k ts).faultAbort = s.faultAbort := rfl
@[simp] theorem advance_cmdStream (s : State) (i : Instr) (k : Nat) (ts : List Task) : (s.advance i k ts).cmdStream = s.cmdStream := rfl
@[simp] theorem advance_responses (s : State) (i : Instr) (k : Nat) (ts : List Task) : (s.advance i k ts).responses = s.responses := rfl
@[simp] theorem advance_events (s : State) (i : Instr) (k : Nat) (ts : List Task) : (s.advance i k ts).events = s.events := rfl
@[simp] theorem advance_trace (s : State) (i : Instr) (k : Nat) (ts : List Task) : (s.advance i k ts).trace = s.trace := rfl
@[simp] theorem advance_irqLine (s : State) (i : Instr) (k : Nat) (ts : List Task) : (s.advance i k ts).irqLine = s.irqLine := rfl
@[simp] theorem advance_chipReads (s : State) (i : Instr) (k : Nat) (ts : List Task) : (s.advance i k ts).chipReads = s.chipReads := rfl
@[simp] theorem advance_draws (s : State) (i : Instr) (k : Nat) (ts : List Task) : (s.advance i k ts).draws = s.draws := rfl

/-! ### s.drawOne: the answers laid out and the counter only -/

@[simp] theorem drawOne_curMode (s : State) : s.drawOne.curMode = s.curMode := by unfold State.drawOne; split <;> rfl
@[simp] theorem drawOne_curBw (s : State) : s.drawOne.curBw = s.curBw := by unfold State.drawOne; split <;> rfl
@[simp] theorem drawOne_curCr (s : State) : s.drawOne.curCr = s.curCr := by unfold State.drawOne; split <;> rfl
@[simp] theorem drawOne_curSf (s : State) : s.drawOne.curSf = s.curSf := by unfold State.drawOne; split <;> rfl
@[simp] theorem drawOne_curPre (s : State) : s.drawOne.curPre = s.curPre := by unfold State.drawOne; split <;> rfl
@[simp] theorem drawOne_curSync (s : State) : s.drawOne.curSync = s.curSync := by unfold State.drawOne; split <;> rfl
@[simp] theorem drawOne_curPwr (s : State) : s.drawOne.curPwr = s.curPwr := by unfold State.drawOne; split <;> rfl
@[simp] theorem drawOne_payloadLen (s : State) : s.drawOne.payloadLen = s.payloadLen := by unfold State.drawOne; split <;> rfl
@[simp] theorem drawOne_iqInvert (s : State) : s.drawOne.iqInvert = s.iqInvert := by unfold State.drawOne; split <;> rfl
@[simp] theorem drawOne_headerExpl (s : State) : s.drawOne.headerExpl = s.headerExpl := by unfold State.drawOne; split <;> rfl
@[simp] theorem drawOne_crcEn (s : State) : s.drawOne.crcEn = s.crcEn := by unfold State.drawOne; split <;> rfl
@[simp] theorem drawOne_timeoutSymbols (s : State) : s.drawOne.timeoutSymbols = s.timeoutSymbols := by unfold State.drawOne; split <;> rfl
@[simp] theorem drawOne_freqHz (s : State) : s.drawOne.freqHz = s.freqHz := by unfold State.drawOne; split <;> rfl
@[simp] theorem drawOne_freqReg (s : State) : s.drawOne.freqReg = s.freqReg := by unfold State.drawOne; split <;> rfl
@[simp] theorem drawOne_lastRssi (s : State) : s.drawOne.lastRssi = s.lastRssi := by unfold State.drawOne; split <;> rfl
@[simp] theorem drawOne_lastSnr (s : State) : s.drawOne.lastSnr = s.lastSnr := by unfold State.drawOne; split <;> rfl
@[simp] theorem drawOne_lastFeiHz (s : State) : s.drawOne.lastFeiHz = s.lastFeiHz := by unfold State.drawOne; split <;> rfl
@[simp] theorem drawOne_lastPpm (s : State) : s.drawOne.lastPpm = s.lastPpm := by unfold State.drawOne; split <;> rfl
@[simp] theorem drawOne_rxBuf (s : State) : s.drawOne.rxBuf = s.rxBuf := by unfold State.drawOne; split <;> rfl
@[simp] theorem drawOne_detected (s : State) : s.drawOne.detected = s.detected := by unfold State.drawOne; split <;> rfl
@[simp] theorem drawOne_status (s : State) : s.drawOne.status = s.status := by unfold State.drawOne; split <;> rfl
@[simp] theorem drawOne_seq (s : State) : s.drawOne.seq = s.seq := by unfold State.drawOne; split <;> rfl
@[simp] theorem drawOne_irqPending (s : State) : s.drawOne.irqPending = s.irqPending := by unfold State.drawOne; split <;> rfl
@[simp] theorem drawOne_dispatch (s : State) : s.drawOne.dispatch = s.dispatch := by unfold State.drawOne; split <;> rfl
@[simp] theorem drawOne_faultAbort (s : State) : s.drawOne.faultAbort = s.faultAbort := by unfold State.drawOne; split <;> rfl
@[simp] theorem drawOne_cmdStream (s : State) : s.drawOne.cmdStream = s.cmdStream := by unfold State.drawOne; split <;> rfl
@[simp] theorem drawOne_responses (s : State) : s.drawOne.responses = s.responses := by unfold State.drawOne; split <;> rfl
@[simp] theorem drawOne_events (s : State) : s.drawOne.events = s.events := by unfold State.drawOne; split <;> rfl
@[simp] theorem drawOne_trace (s : State) : s.drawOne.trace = s.trace := by unfold State.drawOne; split <;> rfl
@[simp] theorem drawOne_irqLine (s : State) : s.drawOne.irqLine = s.irqLine := by unfold State.drawOne; split <;> rfl

/-! ### s.drawMany n -/

@[simp] theorem drawMany_curMode (n : Nat) (s : State) : (s.drawMany n).curMode = s.curMode := by
  induction n generalizing s with
  | zero => rfl
  | succ n ih => rw [State.drawMany, ih, drawOne_curMode]
@[simp] theorem drawMany_curBw (n : Nat) (s : State) : (s.drawMany n).curBw = s.curBw := by
  induction n generalizing s with
  | zero => rfl
  | succ n ih => rw [State.drawMany, ih, drawOne_curBw]
@[simp] theorem drawMany_curCr (n : Nat) (s : State) : (s.drawMany n).curCr = s.curCr := by
  induction n generalizing s with
  | zero => rfl
  | succ n ih => rw [State.drawMany, ih, drawOne_curCr]
@[simp] theorem drawMany_curSf (n : Nat) (s : State) : (s.drawMany n).curSf = s.curSf := by
  induction n generalizing s with
  | zero => rfl
  | succ n ih => rw [State.drawMany, ih, drawOne_curSf]
@[simp] theorem drawMany_curPre (n : Nat) (s : State) : (s.drawMany n).curPre = s.curPre := by
  induction n generalizing s with
  | zero => rfl
  | succ n ih => rw [State.drawMany, ih, drawOne_curPre]
@[simp] theorem drawMany_curSync (n : Nat) (s : State) : (s.drawMany n).curSync = s.curSync := by
  induction n generalizing s with
  | zero => rfl
  | succ n ih => rw [State.drawMany, ih, drawOne_curSync]
@[simp] theorem drawMany_curPwr (n : Nat) (s : State) : (s.drawMany n).curPwr = s.curPwr := by
  induction n generalizing s with
  | zero => rfl
  | succ n ih => rw [State.drawMany, ih, drawOne_curPwr]
@[simp] theorem drawMany_payloadLen (n : Nat) (s : State) : (s.drawMany n).payloadLen = s.payloadLen := by
  induction n generalizing s with
  | zero => rfl
  | succ n ih => rw [State.drawMany, ih, drawOne_payloadLen]
@[simp] theorem drawMany_iqInvert (n : Nat) (s : State) : (s.drawMany n).iqInvert = s.iqInvert := by
  induction n generalizing s with
  | zero => rfl
  | succ n ih => rw [State.drawMany, ih, drawOne_iqInvert]
@[simp] theorem drawMany_headerExpl (n : Nat) (s : State) : (s.drawMany n).headerExpl = s.headerExpl := by
  induction n generalizing s with
  | zero => rfl
  | succ n ih => rw [State.drawMany, ih, drawOne_headerExpl]
@[simp] theorem drawMany_crcEn (n : Nat) (s : State) : (s.drawMany n).crcEn = s.crcEn := by
  induction n generalizing s with
  | zero => rfl
  | succ n ih => rw [State.drawMany, ih, drawOne_crcEn]
@[simp] theorem drawMany_timeoutSymbols (n : Nat) (s : State) : (s.drawMany n).timeoutSymbols = s.timeoutSymbols := by
  induction n generalizing s with
  | zero => rfl
  | succ n ih => rw [State.drawMany, ih, drawOne_timeoutSymbols]
@[simp] theorem drawMany_freqHz (n : Nat) (s : State) : (s.drawMany n).freqHz = s.freqHz := by
  induction n generalizing s with
  | zero => rfl
  | succ n ih => rw [State.drawMany, ih, drawOne_freqHz]
@[simp] theorem drawMany_freqReg (n : Nat) (s : State) : (s.drawMany n).freqReg = s.freqReg := by
  induction n generalizing s with
  | zero => rfl
  | succ n ih => rw [State.drawMany, ih, drawOne_freqReg]
@[simp] theorem drawMany_lastRssi (n : Nat) (s : State) : (s.drawMany n).lastRssi = s.lastRssi := by
  induction n generalizing s with
  | zero => rfl
  | succ n ih => rw [State.drawMany, ih, drawOne_lastRssi]
@[simp] theorem drawMany_lastSnr (n : Nat) (s : State) : (s.drawMany n).lastSnr = s.lastSnr := by
  induction n generalizing s with
  | zero => rfl
  | succ n ih => rw [State.drawMany, ih, drawOne_lastSnr]
@[simp] theorem drawMany_lastFeiHz (n : Nat) (s : State) : (s.drawMany n).lastFeiHz = s.lastFeiHz := by
  induction n generalizing s with
  | zero => rfl
  | succ n ih => rw [State.drawMany, ih, drawOne_lastFeiHz]
@[simp] theorem drawMany_lastPpm (n : Nat) (s : State) : (s.drawMany n).lastPpm = s.lastPpm := by
  induction n generalizing s with
  | zero => rfl
  | succ n ih => rw [State.drawMany, ih, drawOne_lastPpm]
@[simp] theorem drawMany_rxBuf (n : Nat) (s : State) : (s.drawMany n).rxBuf = s.rxBuf := by
  induction n generalizing s with
  | zero => rfl
  | succ n ih => rw [State.drawMany, ih, drawOne_rxBuf]
@[simp] theorem drawMany_detected (n : Nat) (s : State) : (s.drawMany n).detected = s.detected := by
  induction n generalizing s with
  | zero => rfl
  | succ n ih => rw [State.drawMany, ih, drawOne_detected]
@[simp] theorem drawMany_status (n : Nat) (s : State) : (s.drawMany n).status = s.status := by
  induction n generalizing s with
  | zero => rfl
  | succ n ih => rw [State.drawMany, ih, drawOne_status]
@[simp] theorem drawMany_seq (n : Nat) (s : State) : (s.drawMany n).seq = s.seq := by
  induction n generalizing s with
  | zero => rfl
  | succ n ih => rw [State.drawMany, ih, drawOne_seq]
@[simp] theorem drawMany_irqPending (n : Nat) (s : State) : (s.drawMany n).irqPending = s.irqPending := by
  induction n generalizing s with
  | zero => rfl
  | succ n ih => rw [State.drawMany, ih, drawOne_irqPending]
@[simp] theorem drawMany_dispatch (n : Nat) (s : State) : (s.drawMany n).dispatch = s.dispatch := by
  induction n generalizing s with
  | zero => rfl
  | succ n ih => rw [State.drawMany, ih, drawOne_dispatch]
@[simp] theorem drawMany_faultAbort (n : Nat) (s : State) : (s.drawMany n).faultAbort = s.faultAbort := by
  induction n generalizing s with
  | zero => rfl
  | succ n ih => rw [State.drawMany, ih, drawOne_faultAbort]
@[simp] theorem drawMany_cmdStream (n : Nat) (s : State) : (s.drawMany n).cmdStream = s.cmdStream := by
  induction n generalizing s with
  | zero => rfl
  | succ n ih => rw [State.drawMany, ih, drawOne_cmdStream]
@[simp] theorem drawMany_responses (n : Nat) (s : State) : (s.drawMany n).responses = s.responses := by
  induction n generalizing s with
  | zero => rfl
  | succ n ih => rw [State.drawMany, ih, drawOne_responses]
@[simp] theorem drawMany_events (n : Nat) (s : State) : (s.drawMany n).events = s.events := by
  induction n generalizing s with
  | zero => rfl
  | succ n ih => rw [State.drawMany, ih, drawOne_events]
@[simp] theorem drawMany_trace (n : Nat) (s : State) : (s.drawMany n).trace = s.trace := by
  induction n generalizing s with
  | zero => rfl
  | succ n ih => rw [State.drawMany, ih, drawOne_trace]
@[simp] theorem drawMany_irqLine (n : Nat) (s : State) : (s.drawMany n).irqLine = s.irqLine := by
  induction n generalizing s with
  | zero => rfl
  | succ n ih => rw [State.drawMany, ih, drawOne_irqLine]

/-! ### s.sampleIrq: the schedule and IRQ_PENDING only -/

@[simp] theorem sampleIrq_curMode (s : State) : s.sampleIrq.curMode = s.curMode := by unfold State.sampleIrq; split <;> rfl
@[simp] theorem sampleIrq_curBw (s : State) : s.sampleIrq.curBw = s.curBw := by unfold State.sampleIrq; split <;> rfl
@[simp] theorem sampleIrq_curCr (s : State) : s.sampleIrq.curCr = s.curCr := by unfold State.sampleIrq; split <;> rfl
@[simp] theorem sampleIrq_curSf (s : State) : s.sampleIrq.curSf = s.curSf := by unfold State.sampleIrq; split <;> rfl
@[simp] theorem sampleIrq_curPre (s : State) : s.sampleIrq.curPre = s.curPre := by unfold State.sampleIrq; split <;> rfl
@[simp] theorem sampleIrq_curSync (s : State) : s.sampleIrq.curSync = s.curSync := by unfold State.sampleIrq; split <;> rfl
@[simp] theorem sampleIrq_curPwr (s : State) : s.sampleIrq.curPwr = s.curPwr := by unfold State.sampleIrq; split <;> rfl
@[simp] theorem sampleIrq_payloadLen (s : State) : s.sampleIrq.payloadLen = s.payloadLen := by unfold State.sampleIrq; split <;> rfl
@[simp] theorem sampleIrq_iqInvert (s : State) : s.sampleIrq.iqInvert = s.iqInvert := by unfold State.sampleIrq; split <;> rfl
@[simp] theorem sampleIrq_headerExpl (s : State) : s.sampleIrq.headerExpl = s.headerExpl := by unfold State.sampleIrq; split <;> rfl
@[simp] theorem sampleIrq_crcEn (s : State) : s.sampleIrq.crcEn = s.crcEn := by unfold State.sampleIrq; split <;> rfl
@[simp] theorem sampleIrq_timeoutSymbols (s : State) : s.sampleIrq.timeoutSymbols = s.timeoutSymbols := by unfold State.sampleIrq; split <;> rfl
@[simp] theorem sampleIrq_freqHz (s : State) : s.sampleIrq.freqHz = s.freqHz := by unfold State.sampleIrq; split <;> rfl
@[simp] theorem sampleIrq_freqReg (s : State) : s.sampleIrq.freqReg = s.freqReg := by unfold State.sampleIrq; split <;> rfl
@[simp] theorem sampleIrq_lastRssi (s : State) : s.sampleIrq.lastRssi = s.lastRssi := by unfold State.sampleIrq; split <;> rfl
@[simp] theorem sampleIrq_lastSnr (s : State) : s.sampleIrq.lastSnr = s.lastSnr := by unfold State.sampleIrq; split <;> rfl
@[simp] theorem sampleIrq_lastFeiHz (s : State) : s.sampleIrq.lastFeiHz = s.lastFeiHz := by unfold State.sampleIrq; split <;> rfl
@[simp] theorem sampleIrq_lastPpm (s : State) : s.sampleIrq.lastPpm = s.lastPpm := by unfold State.sampleIrq; split <;> rfl
@[simp] theorem sampleIrq_rxBuf (s : State) : s.sampleIrq.rxBuf = s.rxBuf := by unfold State.sampleIrq; split <;> rfl
@[simp] theorem sampleIrq_detected (s : State) : s.sampleIrq.detected = s.detected := by unfold State.sampleIrq; split <;> rfl
@[simp] theorem sampleIrq_status (s : State) : s.sampleIrq.status = s.status := by unfold State.sampleIrq; split <;> rfl
@[simp] theorem sampleIrq_seq (s : State) : s.sampleIrq.seq = s.seq := by unfold State.sampleIrq; split <;> rfl
@[simp] theorem sampleIrq_dispatch (s : State) : s.sampleIrq.dispatch = s.dispatch := by unfold State.sampleIrq; split <;> rfl
@[simp] theorem sampleIrq_faultAbort (s : State) : s.sampleIrq.faultAbort = s.faultAbort := by unfold State.sampleIrq; split <;> rfl
@[simp] theorem sampleIrq_cmdStream (s : State) : s.sampleIrq.cmdStream = s.cmdStream := by unfold State.sampleIrq; split <;> rfl
@[simp] theorem sampleIrq_responses (s : State) : s.sampleIrq.responses = s.responses := by unfold State.sampleIrq; split <;> rfl
@[simp] theorem sampleIrq_events (s : State) : s.sampleIrq.events = s.events := by unfold State.sampleIrq; split <;> rfl
@[simp] theorem sampleIrq_trace (s : State) : s.sampleIrq.trace = s.trace := by unfold State.sampleIrq; split <;> rfl
@[simp] theorem sampleIrq_chipReads (s : State) : s.sampleIrq.chipReads = s.chipReads := by unfold State.sampleIrq; split <;> rfl
@[simp] theorem sampleIrq_draws (s : State) : s.sampleIrq.draws = s.draws := by unfold State.sampleIrq; split <;> rfl

/-! ### SetMode's step 2: the trace and FAULT_ABORT only -/

@[simp] theorem writeOpMode_curMode (c : Config) (m : Mode) (s : State) : (s.writeOpMode c m).curMode = s.curMode := rfl
@[simp] theorem writeOpMode_curBw (c : Config) (m : Mode) (s : State) : (s.writeOpMode c m).curBw = s.curBw := rfl
@[simp] theorem writeOpMode_curCr (c : Config) (m : Mode) (s : State) : (s.writeOpMode c m).curCr = s.curCr := rfl
@[simp] theorem writeOpMode_curSf (c : Config) (m : Mode) (s : State) : (s.writeOpMode c m).curSf = s.curSf := rfl
@[simp] theorem writeOpMode_curPre (c : Config) (m : Mode) (s : State) : (s.writeOpMode c m).curPre = s.curPre := rfl
@[simp] theorem writeOpMode_curSync (c : Config) (m : Mode) (s : State) : (s.writeOpMode c m).curSync = s.curSync := rfl
@[simp] theorem writeOpMode_curPwr (c : Config) (m : Mode) (s : State) : (s.writeOpMode c m).curPwr = s.curPwr := rfl
@[simp] theorem writeOpMode_payloadLen (c : Config) (m : Mode) (s : State) : (s.writeOpMode c m).payloadLen = s.payloadLen := rfl
@[simp] theorem writeOpMode_iqInvert (c : Config) (m : Mode) (s : State) : (s.writeOpMode c m).iqInvert = s.iqInvert := rfl
@[simp] theorem writeOpMode_headerExpl (c : Config) (m : Mode) (s : State) : (s.writeOpMode c m).headerExpl = s.headerExpl := rfl
@[simp] theorem writeOpMode_crcEn (c : Config) (m : Mode) (s : State) : (s.writeOpMode c m).crcEn = s.crcEn := rfl
@[simp] theorem writeOpMode_timeoutSymbols (c : Config) (m : Mode) (s : State) : (s.writeOpMode c m).timeoutSymbols = s.timeoutSymbols := rfl
@[simp] theorem writeOpMode_freqHz (c : Config) (m : Mode) (s : State) : (s.writeOpMode c m).freqHz = s.freqHz := rfl
@[simp] theorem writeOpMode_freqReg (c : Config) (m : Mode) (s : State) : (s.writeOpMode c m).freqReg = s.freqReg := rfl
@[simp] theorem writeOpMode_lastRssi (c : Config) (m : Mode) (s : State) : (s.writeOpMode c m).lastRssi = s.lastRssi := rfl
@[simp] theorem writeOpMode_lastSnr (c : Config) (m : Mode) (s : State) : (s.writeOpMode c m).lastSnr = s.lastSnr := rfl
@[simp] theorem writeOpMode_lastFeiHz (c : Config) (m : Mode) (s : State) : (s.writeOpMode c m).lastFeiHz = s.lastFeiHz := rfl
@[simp] theorem writeOpMode_lastPpm (c : Config) (m : Mode) (s : State) : (s.writeOpMode c m).lastPpm = s.lastPpm := rfl
@[simp] theorem writeOpMode_rxBuf (c : Config) (m : Mode) (s : State) : (s.writeOpMode c m).rxBuf = s.rxBuf := rfl
@[simp] theorem writeOpMode_detected (c : Config) (m : Mode) (s : State) : (s.writeOpMode c m).detected = s.detected := rfl
@[simp] theorem writeOpMode_status (c : Config) (m : Mode) (s : State) : (s.writeOpMode c m).status = s.status := rfl
@[simp] theorem writeOpMode_seq (c : Config) (m : Mode) (s : State) : (s.writeOpMode c m).seq = s.seq := rfl
@[simp] theorem writeOpMode_irqPending (c : Config) (m : Mode) (s : State) : (s.writeOpMode c m).irqPending = s.irqPending := rfl
@[simp] theorem writeOpMode_dispatch (c : Config) (m : Mode) (s : State) : (s.writeOpMode c m).dispatch = s.dispatch := rfl
@[simp] theorem writeOpMode_faultAbort (c : Config) (m : Mode) (s : State) : (s.writeOpMode c m).faultAbort = (s.faultAbort || abortsTransmit m s) := rfl
@[simp] theorem writeOpMode_cmdStream (c : Config) (m : Mode) (s : State) : (s.writeOpMode c m).cmdStream = s.cmdStream := rfl
@[simp] theorem writeOpMode_responses (c : Config) (m : Mode) (s : State) : (s.writeOpMode c m).responses = s.responses := rfl
@[simp] theorem writeOpMode_events (c : Config) (m : Mode) (s : State) : (s.writeOpMode c m).events = s.events := rfl
@[simp] theorem writeOpMode_trace (c : Config) (m : Mode) (s : State) : (s.writeOpMode c m).trace = s.trace ++ [.write c.regs.opMode (opModeByte c m)] := rfl
@[simp] theorem writeOpMode_irqLine (c : Config) (m : Mode) (s : State) : (s.writeOpMode c m).irqLine = s.irqLine := rfl
@[simp] theorem writeOpMode_chipReads (c : Config) (m : Mode) (s : State) : (s.writeOpMode c m).chipReads = s.chipReads := rfl
@[simp] theorem writeOpMode_draws (c : Config) (m : Mode) (s : State) : (s.writeOpMode c m).draws = s.draws := rfl

/-! ### A register write of the foreground: the fields none of them is -/

@[simp] theorem apply_curMode (w : RegWrite) (s : State) : (w.apply s).curMode = s.curMode := by cases w <;> rfl
@[simp] theorem apply_rxBuf (w : RegWrite) (s : State) : (w.apply s).rxBuf = s.rxBuf := by cases w <;> rfl
@[simp] theorem apply_status (w : RegWrite) (s : State) : (w.apply s).status = s.status := by cases w <;> rfl
@[simp] theorem apply_seq (w : RegWrite) (s : State) : (w.apply s).seq = s.seq := by cases w <;> rfl
@[simp] theorem apply_irqPending (w : RegWrite) (s : State) : (w.apply s).irqPending = s.irqPending := by cases w <;> rfl
@[simp] theorem apply_dispatch (w : RegWrite) (s : State) : (w.apply s).dispatch = s.dispatch := by cases w <;> rfl
@[simp] theorem apply_faultAbort (w : RegWrite) (s : State) : (w.apply s).faultAbort = s.faultAbort := by cases w <;> rfl
@[simp] theorem apply_cmdStream (w : RegWrite) (s : State) : (w.apply s).cmdStream = s.cmdStream := by cases w <;> rfl
@[simp] theorem apply_responses (w : RegWrite) (s : State) : (w.apply s).responses = s.responses := by cases w <;> rfl
@[simp] theorem apply_events (w : RegWrite) (s : State) : (w.apply s).events = s.events := by cases w <;> rfl
@[simp] theorem apply_trace (w : RegWrite) (s : State) : (w.apply s).trace = s.trace := by cases w <;> rfl
@[simp] theorem apply_irqLine (w : RegWrite) (s : State) : (w.apply s).irqLine = s.irqLine := by cases w <;> rfl
@[simp] theorem apply_chipReads (w : RegWrite) (s : State) : (w.apply s).chipReads = s.chipReads := by cases w <;> rfl
@[simp] theorem apply_draws (w : RegWrite) (s : State) : (w.apply s).draws = s.draws := by cases w <;> rfl

/-! ### A dispatch step: the fields it never writes (60_exceptions.md R223, R225) -/

@[simp] theorem dispatchStep_curBw (c : Config) (ph : Phase) (s : State) : (dispatchStep c ph s).curBw = s.curBw := by
  cases ph <;> simp [dispatchStep]
@[simp] theorem dispatchStep_curCr (c : Config) (ph : Phase) (s : State) : (dispatchStep c ph s).curCr = s.curCr := by
  cases ph <;> simp [dispatchStep]
@[simp] theorem dispatchStep_curSf (c : Config) (ph : Phase) (s : State) : (dispatchStep c ph s).curSf = s.curSf := by
  cases ph <;> simp [dispatchStep]
@[simp] theorem dispatchStep_curPre (c : Config) (ph : Phase) (s : State) : (dispatchStep c ph s).curPre = s.curPre := by
  cases ph <;> simp [dispatchStep]
@[simp] theorem dispatchStep_curSync (c : Config) (ph : Phase) (s : State) : (dispatchStep c ph s).curSync = s.curSync := by
  cases ph <;> simp [dispatchStep]
@[simp] theorem dispatchStep_curPwr (c : Config) (ph : Phase) (s : State) : (dispatchStep c ph s).curPwr = s.curPwr := by
  cases ph <;> simp [dispatchStep]
@[simp] theorem dispatchStep_payloadLen (c : Config) (ph : Phase) (s : State) : (dispatchStep c ph s).payloadLen = s.payloadLen := by
  cases ph <;> simp [dispatchStep]
@[simp] theorem dispatchStep_iqInvert (c : Config) (ph : Phase) (s : State) : (dispatchStep c ph s).iqInvert = s.iqInvert := by
  cases ph <;> simp [dispatchStep]
@[simp] theorem dispatchStep_headerExpl (c : Config) (ph : Phase) (s : State) : (dispatchStep c ph s).headerExpl = s.headerExpl := by
  cases ph <;> simp [dispatchStep]
@[simp] theorem dispatchStep_crcEn (c : Config) (ph : Phase) (s : State) : (dispatchStep c ph s).crcEn = s.crcEn := by
  cases ph <;> simp [dispatchStep]
@[simp] theorem dispatchStep_timeoutSymbols (c : Config) (ph : Phase) (s : State) : (dispatchStep c ph s).timeoutSymbols = s.timeoutSymbols := by
  cases ph <;> simp [dispatchStep]
@[simp] theorem dispatchStep_freqHz (c : Config) (ph : Phase) (s : State) : (dispatchStep c ph s).freqHz = s.freqHz := by
  cases ph <;> simp [dispatchStep]
@[simp] theorem dispatchStep_freqReg (c : Config) (ph : Phase) (s : State) : (dispatchStep c ph s).freqReg = s.freqReg := by
  cases ph <;> simp [dispatchStep]
@[simp] theorem dispatchStep_lastRssi (c : Config) (ph : Phase) (s : State) : (dispatchStep c ph s).lastRssi = s.lastRssi := by
  cases ph <;> simp [dispatchStep]
@[simp] theorem dispatchStep_lastSnr (c : Config) (ph : Phase) (s : State) : (dispatchStep c ph s).lastSnr = s.lastSnr := by
  cases ph <;> simp [dispatchStep]
@[simp] theorem dispatchStep_lastFeiHz (c : Config) (ph : Phase) (s : State) : (dispatchStep c ph s).lastFeiHz = s.lastFeiHz := by
  cases ph <;> simp [dispatchStep]
@[simp] theorem dispatchStep_lastPpm (c : Config) (ph : Phase) (s : State) : (dispatchStep c ph s).lastPpm = s.lastPpm := by
  cases ph <;> simp [dispatchStep]
@[simp] theorem dispatchStep_detected (c : Config) (ph : Phase) (s : State) : (dispatchStep c ph s).detected = s.detected := by
  cases ph <;> simp [dispatchStep]
@[simp] theorem dispatchStep_status (c : Config) (ph : Phase) (s : State) : (dispatchStep c ph s).status = s.status := by
  cases ph <;> simp [dispatchStep]
@[simp] theorem dispatchStep_seq (c : Config) (ph : Phase) (s : State) : (dispatchStep c ph s).seq = s.seq := by
  cases ph <;> simp [dispatchStep]
@[simp] theorem dispatchStep_irqPending (c : Config) (ph : Phase) (s : State) : (dispatchStep c ph s).irqPending = s.irqPending := by
  cases ph <;> simp [dispatchStep]
@[simp] theorem dispatchStep_faultAbort (c : Config) (ph : Phase) (s : State) : (dispatchStep c ph s).faultAbort = s.faultAbort := by
  cases ph <;> simp [dispatchStep]
@[simp] theorem dispatchStep_cmdStream (c : Config) (ph : Phase) (s : State) : (dispatchStep c ph s).cmdStream = s.cmdStream := by
  cases ph <;> simp [dispatchStep]
@[simp] theorem dispatchStep_responses (c : Config) (ph : Phase) (s : State) : (dispatchStep c ph s).responses = s.responses := by
  cases ph <;> simp [dispatchStep]
@[simp] theorem dispatchStep_irqLine (c : Config) (ph : Phase) (s : State) : (dispatchStep c ph s).irqLine = s.irqLine := by
  cases ph <;> simp [dispatchStep]

/-! ### A foreground action: the fields it never writes -/

@[simp] theorem foreground_rxBuf (c : Config) (i : Instr) (k : Nat) (t : Task) (ts : List Task) (s : State) :
    (foreground c i k t ts s).rxBuf = s.rxBuf := by
  cases t <;> first | (simp only [foreground]; split <;> simp) | simp [foreground]
@[simp] theorem foreground_irqPending (c : Config) (i : Instr) (k : Nat) (t : Task) (ts : List Task) (s : State) :
    (foreground c i k t ts s).irqPending = s.irqPending := by
  cases t <;> first | (simp only [foreground]; split <;> simp) | simp [foreground]
@[simp] theorem foreground_dispatch (c : Config) (i : Instr) (k : Nat) (t : Task) (ts : List Task) (s : State) :
    (foreground c i k t ts s).dispatch = s.dispatch := by
  cases t <;> first | (simp only [foreground]; split <;> simp) | simp [foreground]
@[simp] theorem foreground_irqLine (c : Config) (i : Instr) (k : Nat) (t : Task) (ts : List Task) (s : State) :
    (foreground c i k t ts s).irqLine = s.irqLine := by
  cases t <;> first | (simp only [foreground]; split <;> simp) | simp [foreground]
@[simp] theorem foreground_cmdStream (c : Config) (i : Instr) (k : Nat) (t : Task) (ts : List Task) (s : State) :
    (foreground c i k t ts s).cmdStream = s.cmdStream := by
  cases t <;> first | (simp only [foreground]; split <;> simp) | simp [foreground]

end Sys2Proof.Machine
end

