-- ==== Sys2Proof/Laws/Progress.lean ====
section
/-! SUPPORT. The run to the next command boundary ends there: every step makes the bound smaller, so the bound is fuel enough
(70_reset_and_hazards.md R264), and the run can be followed one step at a time. -/

namespace Sys2Proof.Machine

variable (c : Config)

theorem tasksCost_append (a b : List Task) : tasksCost c (a ++ b) = tasksCost c a + tasksCost c b := by
  induction a with
  | nil => simp [tasksCost]
  | cons t ts ih => simp [tasksCost, ih, Nat.add_assoc]

/-- A procedure call costs one more step than what it goes on with. -/
theorem proc_tasks_cost (p : Proc) (s : State) : tasksCost c (p.tasks c s) < p.cost := by
  cases p with
  | errata bw => simp only [Proc.tasks, errataTasks]; split <;> simp [tasksCost, Task.cost, Proc.cost]
  | baseline pre sw => simp [Proc.tasks, baselineTasks, tasksCost, Task.cost, Proc.cost]
  | setBwCr bw cr =>
    simp only [Proc.tasks, bwCrTasks]
    split
    · simp [tasksCost, Proc.cost]
    · split <;> simp [tasksCost, Task.cost, Proc.cost]
  | setSf sf =>
    simp only [Proc.tasks, sfTasks]
    split
    · simp [tasksCost, Proc.cost]
    · split <;> simp [tasksCost, Task.cost, Proc.cost]
  | setSync req =>
    simp only [Proc.tasks, syncTasks, tasksCost_append]
    split <;> split <;> simp [tasksCost, Task.cost, Proc.cost]
  | setPreamble n => simp only [Proc.tasks, preambleTasks]; split <;> simp [tasksCost, Task.cost, Proc.cost]
  | setPower pwr => simp only [Proc.tasks, powerTasks]; split <;> simp [tasksCost, Task.cost, Proc.cost]
  | setRxTimeout us => simp only [Proc.tasks, rxTimeoutTasks]; split <;> simp [tasksCost, Task.cost, Proc.cost]
  | setFreqHz hz => simp [Proc.tasks, freqHzTasks, tasksCost, Task.cost, Proc.cost]
  | setFreqReg frf => simp [Proc.tasks, freqRegTasks, tasksCost, Task.cost, Proc.cost]
  | armMode => simp only [Proc.tasks, armModeTasks]; split <;> simp [tasksCost, Task.cost, Proc.cost]

theorem afterProbeTasks_cost (i : Nat) (v : Byte) : tasksCost c (afterProbeTasks c i v) < (Task.probe i).cost c := by
  simp only [afterProbeTasks]
  split
  · simp [detectedTasks, tasksCost, Task.cost, Proc.cost]; omega
  · split
    · simp [tasksCost, Task.cost]; omega
    · simp [notDetectedTasks, tasksCost, Task.cost]; omega

/-- What the interrupt machinery still costs: the dispatch in progress, the pending interrupt and the assertions to come. -/
def State.irqBound (s : State) : Nat :=
  dispatchCost s.dispatch + 11 * s.irqPending.toNat + 11 * s.irqLine.length

theorem bound_eq (s : State) : s.bound c = s.seq.cost c + s.irqBound := by
  simp only [State.bound, State.irqBound]; omega

theorem sampleIrq_irqBound (s : State) : s.sampleIrq.irqBound ≤ s.irqBound := by
  unfold State.sampleIrq
  split
  · exact le_refl _
  · rename_i asserted rest h
    simp only [State.irqBound, h, List.length_cons]
    have : (s.irqPending || (asserted && s.detected)).toNat ≤ s.irqPending.toNat + 1 := by
      cases s.irqPending <;> cases asserted <;> cases s.detected <;> decide
    omega

/-- The interrupt machinery does not see a foreground action, and a foreground action makes the command's own cost smaller. -/
theorem foreground_cost (cmd : Instr) (step : Nat) (t : Task) (rest : List Task) (s : State) :
    (foreground c cmd step t rest s).irqBound = s.irqBound ∧
      (foreground c cmd step t rest s).seq.cost c < 1 + t.cost c + tasksCost c rest := by
  cases t with
  | probe i =>
    have := afterProbeTasks_cost c i s.nextByte
    refine ⟨by simp [foreground, State.irqBound], ?_⟩
    simp only [foreground, advance_seq, Seq.cost, tasksCost_append]; omega
  | modeCheck m =>
    simp only [foreground]
    split
    · simp [State.irqBound, Seq.cost, Task.cost]
    · simp [State.irqBound, Seq.cost, Task.cost, tasksCost]; omega
  | call p =>
    have := proc_tasks_cost c p s
    refine ⟨rfl, ?_⟩
    simp only [foreground, Seq.cost, tasksCost_append, Task.cost]; omega
  | readStats =>
    simp [foreground, State.irqBound, Seq.cost, afterStatsTasks, tasksCost, Task.cost]; omega
  | readFei =>
    simp [foreground, State.irqBound, Seq.cost, afterFeiTasks, tasksCost, Task.cost]; omega
  | _ => simp [foreground, State.irqBound, Seq.cost, Task.cost]

/-- A dispatch step leaves the sequencer alone (60_exceptions.md R223) and brings the dispatch nearer its end. -/
theorem dispatchStep_cost (ph : Phase) (s : State) (h : s.dispatch = some ph) :
    (dispatchStep c ph s).seq = s.seq ∧ (dispatchStep c ph s).irqBound < s.irqBound := by
  cases ph with
  | clearFlags f =>
    refine ⟨rfl, ?_⟩
    simp only [dispatchStep, afterClearPhase, afterTxPhase, State.irqBound, h, record_irqPending, record_irqLine]
    split
    · simp [dispatchCost, Phase.rank]
    · split <;> simp [dispatchCost, Phase.rank]
  | txEmit f =>
    refine ⟨rfl, ?_⟩
    simp only [dispatchStep, afterTxPhase, State.irqBound, h, emit_irqPending, emit_irqLine]
    split <;> simp [dispatchCost, Phase.rank]
  | _ => simp [dispatchStep, State.irqBound, dispatchCost, Phase.rank, h]

/-- Every step short of a command boundary makes the bound smaller. -/
theorem micro_bound (s : State) (h : s.atRest = false) : (micro c s).bound c < s.bound c := by
  have hs := sampleIrq_irqBound s
  simp only [bound_eq]
  rw [micro]
  cases hd : s.sampleIrq.dispatch with
  | some ph =>
    obtain ⟨h1, h2⟩ := dispatchStep_cost c ph s.sampleIrq hd
    simp only [h1, sampleIrq_seq]; omega
  | none =>
    dsimp only
    split
    · rename_i hp
      have hb : s.sampleIrq.enterDispatch.irqBound < s.sampleIrq.irqBound := by
        simp [State.irqBound, hp, dispatchCost, Phase.rank]
      have hq : s.sampleIrq.enterDispatch.seq = s.seq := by simp [State.enterDispatch]
      rw [hq]; omega
    · have hseq : s.sampleIrq.seq = s.seq := sampleIrq_seq s
      have hidle : s.seq.isIdle = false := by
        have : s.dispatch = none := by rw [← sampleIrq_dispatch]; exact hd
        simpa [State.atRest, State.inDispatch, this] using h
      unfold foregroundStep
      rw [hseq]
      cases hq : s.seq with
      | idle => simp [hq, Seq.isIdle] at hidle
      | busy cmd k todo =>
        cases todo with
        | nil => simp only [Seq.cost, tasksCost, State.irqBound] at *; omega
        | cons t rest =>
          obtain ⟨h1, h2⟩ := foreground_cost c cmd k t rest s.sampleIrq
          simp only [h1, Seq.cost, tasksCost] at *; omega

theorem settle_atRest_self (n : Nat) (s : State) (h : s.atRest = true) : settle c n s = s := by
  cases n with
  | zero => rfl
  | succ n => simp [settle, h]

/-- More fuel than the bound changes nothing. -/
theorem settle_fuel (n : Nat) : ∀ (m : Nat) (s : State), s.bound c ≤ n → s.bound c ≤ m → settle c n s = settle c m s := by
  induction n with
  | zero =>
    intro m s hn hm
    cases hr : s.atRest with
    | true => rw [settle_atRest_self c 0 s hr, settle_atRest_self c m s hr]
    | false => have := micro_bound c s hr; omega
  | succ n ih =>
    intro m s hn hm
    cases hr : s.atRest with
    | true => rw [settle_atRest_self c (n + 1) s hr, settle_atRest_self c m s hr]
    | false =>
      have hb := micro_bound c s hr
      cases m with
      | zero => omega
      | succ m =>
        simp only [settle, hr]
        exact ih m (micro c s) (by omega) (by omega)

/-- Where the machine is at rest, the run is over. -/
theorem runToRest_of_atRest (s : State) (h : s.atRest = true) : runToRest c s = s := settle_atRest_self c _ s h

/-- Where it is not, the run goes on with one step. -/
theorem runToRest_step (s : State) (h : s.atRest = false) : runToRest c s = runToRest c (micro c s) := by
  have hb := micro_bound c s h
  unfold runToRest
  obtain ⟨n, hn⟩ : ∃ n, s.bound c = n + 1 := ⟨s.bound c - 1, by omega⟩
  rw [hn, settle, if_neg (by simp [h])]
  exact settle_fuel c n _ _ (by omega) (le_refl _)

/-- Package of the induction: a property that every step keeps holds when the run is over. -/
theorem runToRest_keeps (P : State → Prop) (step : ∀ s, P s → P (micro c s)) (s : State) (h : P s) : P (runToRest c s) := by
  unfold runToRest
  generalize s.bound c = n
  induction n generalizing s with
  | zero => exact h
  | succ n ih =>
    rw [settle]
    split
    · exact h
    · exact ih _ (step _ h)

end Sys2Proof.Machine
end

