-- ==== Sys2Proof/Laws/Exec.lean ====
section
/-! SUPPORT. What one micro-operation, one dispatch step and one command can do, said once. -/

namespace Sys2Proof.Machine

variable {c : Config} {s : State}

theorem micro_dispatch {ph : Phase} (h : s.dispatch = some ph) : micro c s = dispatchStep c ph s.sampleIrq := by
  simp [micro, h]

theorem micro_entry (h : s.dispatch = none) (hp : s.sampleIrq.irqPending = true) :
    micro c s = s.sampleIrq.enterDispatch := by simp [micro, h, hp]

theorem micro_foreground (h : s.dispatch = none) (hp : s.sampleIrq.irqPending = false) :
    micro c s = foregroundStep c s.sampleIrq := by simp [micro, h, hp]

/-- Whose turn it is (60_exceptions.md R222), with everything the step does. -/
theorem micro_cases (c : Config) (s : State) :
    (∃ ph, s.dispatch = some ph ∧ micro c s = dispatchStep c ph s.sampleIrq) ∨
    (s.dispatch = none ∧ s.sampleIrq.irqPending = true ∧ micro c s = s.sampleIrq.enterDispatch) ∨
    (s.dispatch = none ∧ s.sampleIrq.irqPending = false ∧ s.seq = .idle ∧ micro c s = s.sampleIrq) ∨
    (∃ cmd k, s.dispatch = none ∧ s.sampleIrq.irqPending = false ∧ s.seq = .busy cmd k [] ∧
      micro c s = { s.sampleIrq with seq := .idle }) ∨
    (∃ cmd k t rest, s.dispatch = none ∧ s.sampleIrq.irqPending = false ∧ s.seq = .busy cmd k (t :: rest) ∧
      micro c s = foreground c cmd k t rest s.sampleIrq) := by
  cases h : s.dispatch with
  | some ph => exact .inl ⟨ph, rfl, micro_dispatch h⟩
  | none =>
    cases hp : s.sampleIrq.irqPending with
    | true => exact .inr (.inl ⟨rfl, rfl, micro_entry h hp⟩)
    | false =>
      have hm : micro c s = _ := micro_foreground h hp
      cases hs : s.seq with
      | idle => exact .inr (.inr (.inl ⟨rfl, rfl, rfl, by rw [hm]; simp [foregroundStep, hs]⟩))
      | busy cmd k todo =>
        cases todo with
        | nil => exact .inr (.inr (.inr (.inl ⟨cmd, k, rfl, rfl, rfl, by rw [hm]; simp [foregroundStep, hs]⟩)))
        | cons t rest =>
          exact .inr (.inr (.inr (.inr ⟨cmd, k, t, rest, rfl, rfl, rfl, by rw [hm]; simp [foregroundStep, hs]⟩)))

/-- The state a command may run in: what check 4 of R220 says of it. -/
def stateCheck (i : Instr) (s : State) : Option Status :=
  match i with
  | .setRxTimeout us => rxTimeoutCheck us s
  | .getFei => feiCheck s
  | .setPpm _ => ppmCheck s
  | _ => none

theorem rxTimeoutCheck_none (us : BitVec 32) (s : State) :
    rxTimeoutCheck us s = none ↔ us = 0 ∨ s.curSf ≠ sfInvalid ∧ s.curBw ≠ bwInvalid := by
  unfold rxTimeoutCheck
  by_cases h0 : us = 0 <;> by_cases h1 : s.curSf = sfInvalid <;> by_cases h2 : s.curBw = bwInvalid <;> simp_all

theorem feiCheck_none (s : State) : feiCheck s = none ↔ s.curBw ≠ bwInvalid := by
  unfold feiCheck; split <;> simp_all

theorem ppmCheck_none (s : State) : ppmCheck s = none ↔ s.freqHz ≠ 0 := by
  unfold ppmCheck; split <;> simp_all

/-- The tasks of a command, in the state it starts in. -/
def commandTasks (c : Config) (i : Instr) (s : State) : List Task :=
  match i with
  | .begin => beginTasks c
  | .config o => configTasks c o s
  | .setBwCr bw cr _ => [.call (.setBwCr bw cr), .respond .ok []]
  | .setSf sf => [.call (.setSf (sf.extractLsb' 0 4)), .respond .ok []]
  | .setSync sw => [.call (.setSync sw), .respond .ok []]
  | .setPreamble pre => [.call (.setPreamble pre), .respond .ok []]
  | .setPower _ pwr => [.call (.setPower pwr), .respond .ok []]
  | .setFreqHz hz => [.call (.setFreqHz hz), .respond .ok []]
  | .setFreqReg frf => [.call (.setFreqReg frf), .respond .ok []]
  | .setRxTimeout us => [.call (.setRxTimeout us), .respond .ok []]
  | .setHdrCrc _ hdr crc => [.regWrite (.headerExpl hdr), .regWrite (.crcEn crc), .respond .ok []]
  | .setMode mode => setModeTasks mode
  | .tx data => txTasks c data
  | .armRx => armRxTasks c
  | .getStats => [.readStats]
  | .getFei => [.readFei]
  | .setPpm off => ppmTasks c off s

/-- Every command is the one shape: the checks, then its tasks to the end. -/
theorem execWith_eq (c : Config) (i : Instr) (s : State) :
    execWith c i s = command c i (stateCheck i s) (commandTasks c i s) s := by
  cases i <;> rfl

/-- The machine is the machine with the default parameters (00_scope.md R7, log 28). -/
theorem exec_eq_execWith (i : Instr) (s : State) : exec i s = execWith config i s := by
  cases i <;> rfl

theorem step_eq_stepWith (s : State) : step s = stepWith config s := by
  simp only [step, stepWith, boundaryStep, exec_eq_execWith]

/-- A command is rejected or runs to the next command boundary; it never faults and is never refused (60_exceptions.md R234). -/
theorem execWith_cases (c : Config) (i : Instr) (s : State) :
    (∃ st, execWith c i s = .next (s.reject st)) ∨
    (operandsLegal c i = true ∧ readyFor i s = true ∧ stateCheck i s = none ∧
      execWith c i s = .next (runToRest c { s with seq := .busy i 0 (commandTasks c i s) })) := by
  rw [execWith_eq]
  unfold command
  split
  · rename_i h1
    split
    · rename_i h2
      cases h3 : stateCheck i s with
      | some st => exact .inl ⟨st, rfl⟩
      | none => exact .inr ⟨h1, h2, rfl, rfl⟩
    · exact .inl ⟨_, rfl⟩
  · exact .inl ⟨_, rfl⟩

/-- Package of the induction for commands: a property that a rejection, the start of a command and every step keep, a command keeps. -/
theorem execWith_keeps (c : Config) (P : State → Prop) (i : Instr) (s t : State) (hrej : ∀ st, P (s.reject st))
    (hstart : operandsLegal c i = true → readyFor i s = true → stateCheck i s = none →
      P { s with seq := .busy i 0 (commandTasks c i s) })
    (hstep : ∀ u, P u → P (micro c u)) (h : execWith c i s = .next t) : P t := by
  rcases execWith_cases c i s with ⟨st, he⟩ | ⟨h1, h2, h3, he⟩
  · rw [he] at h; cases h; exact hrej st
  · rw [he] at h; cases h
    exact runToRest_keeps c P hstep _ (hstart h1 h2 h3)

/-- Everything a step can answer, whatever the parameters. -/
theorem stepWith_cases (c : Config) (s t : State) (h : stepWith c s = .next t) :
    (s.atRest = false ∧ t = runToRest c s) ∨
    (s.atRest = true ∧ s.sampleIrq.irqPending = true ∧ t = runToRest c s.sampleIrq.enterDispatch) ∨
    (s.atRest = true ∧ s.sampleIrq.irqPending = false ∧
      ((∃ i rest, decode s.cmdStream = .command i rest ∧ execWith c i { s.sampleIrq with cmdStream := rest } = .next t) ∨
       (∃ op rest, decode s.cmdStream = .illegalOpcode op rest ∧ t = rejectOpcode rest s.sampleIrq) ∨
       (decode s.cmdStream = .incomplete ∧ t = s.sampleIrq))) := by
  unfold stepWith boundaryStep at h
  split at h
  · rename_i hr
    split at h
    · rename_i hp; cases h; exact .inr (.inl ⟨hr, hp, rfl⟩)
    · rename_i hp
      simp only [sampleIrq_cmdStream] at h
      refine .inr (.inr ⟨hr, by simpa using hp, ?_⟩)
      cases hd : decode s.cmdStream with
      | command i rest => rw [hd] at h; exact .inl ⟨i, rest, rfl, h⟩
      | illegalOpcode op rest => rw [hd] at h; cases h; exact .inr (.inl ⟨op, rest, rfl, rfl⟩)
      | incomplete => rw [hd] at h; cases h; exact .inr (.inr ⟨rfl, rfl⟩)
  · rename_i hr; cases h; exact .inl ⟨by simpa using hr, rfl⟩

/-- Package of the induction for a step: enough that the property survives sampling the line, taking an interrupt, consuming bytes, a
rejection, the start of a command, and every micro-operation. -/
theorem stepWith_keeps (c : Config) (P : State → Prop) (s t : State) (hs : P s)
    (hsample : ∀ u, P u → P u.sampleIrq)
    (hentry : ∀ u : State, u.atRest = true → u.irqPending = true → P u → P u.enterDispatch)
    (hstream : ∀ (u : State) q, P u → P { u with cmdStream := q })
    (hrej : ∀ u st, P u → P (u.reject st))
    (hstart : ∀ i (u : State), u.atRest = true → P u → operandsLegal c i = true → readyFor i u = true →
      stateCheck i u = none → P { u with seq := .busy i 0 (commandTasks c i u) })
    (hstep : ∀ u, P u → P (micro c u)) (h : stepWith c s = .next t) : P t := by
  have hat : ∀ u : State, u.sampleIrq.atRest = u.atRest := fun u => by simp [State.atRest, State.inDispatch]
  rcases stepWith_cases c s t h with ⟨_, rfl⟩ | ⟨hr, hp, rfl⟩ | ⟨hr, hp, hc⟩
  · exact runToRest_keeps c P hstep s hs
  · exact runToRest_keeps c P hstep _ (hentry _ (by rw [hat, hr]) hp (hsample s hs))
  · rcases hc with ⟨i, rest, _, he⟩ | ⟨op, rest, _, rfl⟩ | ⟨_, rfl⟩
    · have hP : P { s.sampleIrq with cmdStream := rest } := hstream _ _ (hsample s hs)
      refine execWith_keeps c P i _ t (fun st => hrej _ st hP) (fun h1 h2 h3 => hstart i _ ?_ hP h1 h2 h3) hstep he
      have := hat s; rw [hr] at this; simpa [State.atRest, State.inDispatch] using this
    · exact hstream _ _ (hrej _ _ (hsample s hs))
    · exact hsample s hs

/-! ### The same of `exec` and `step` -/

theorem exec_eq (i : Instr) (s : State) : exec i s = command config i (stateCheck i s) (commandTasks config i s) s := by
  rw [exec_eq_execWith, execWith_eq]

theorem exec_cases (i : Instr) (s : State) :
    (∃ st, exec i s = .next (s.reject st)) ∨
    (operandsLegal config i = true ∧ readyFor i s = true ∧ stateCheck i s = none ∧
      exec i s = .next (runToRest config { s with seq := .busy i 0 (commandTasks config i s) })) := by
  rw [exec_eq_execWith]; exact execWith_cases config i s

theorem exec_keeps (P : State → Prop) (i : Instr) (s t : State) (hrej : ∀ st, P (s.reject st))
    (hstart : operandsLegal config i = true → readyFor i s = true → stateCheck i s = none →
      P { s with seq := .busy i 0 (commandTasks config i s) })
    (hstep : ∀ u, P u → P (micro config u)) (h : exec i s = .next t) : P t :=
  execWith_keeps config P i s t hrej hstart hstep (by rw [← exec_eq_execWith]; exact h)

theorem step_cases (s t : State) (h : step s = .next t) :
    (s.atRest = false ∧ t = runToRest config s) ∨
    (s.atRest = true ∧ s.sampleIrq.irqPending = true ∧ t = runToRest config s.sampleIrq.enterDispatch) ∨
    (s.atRest = true ∧ s.sampleIrq.irqPending = false ∧
      ((∃ i rest, decode s.cmdStream = .command i rest ∧ exec i { s.sampleIrq with cmdStream := rest } = .next t) ∨
       (∃ op rest, decode s.cmdStream = .illegalOpcode op rest ∧ t = rejectOpcode rest s.sampleIrq) ∨
       (decode s.cmdStream = .incomplete ∧ t = s.sampleIrq))) := by
  simp only [exec_eq_execWith]
  exact stepWith_cases config s t (by rw [← step_eq_stepWith]; exact h)

theorem step_keeps (P : State → Prop) (s t : State) (hs : P s)
    (hsample : ∀ u, P u → P u.sampleIrq)
    (hentry : ∀ u : State, u.atRest = true → u.irqPending = true → P u → P u.enterDispatch)
    (hstream : ∀ (u : State) q, P u → P { u with cmdStream := q })
    (hrej : ∀ u st, P u → P (u.reject st))
    (hstart : ∀ i (u : State), u.atRest = true → P u → operandsLegal config i = true → readyFor i u = true →
      stateCheck i u = none → P { u with seq := .busy i 0 (commandTasks config i u) })
    (hstep : ∀ u, P u → P (micro config u)) (h : step s = .next t) : P t :=
  stepWith_keeps config P s t hs hsample hentry hstream hrej hstart hstep (by rw [← step_eq_stepWith]; exact h)

end Sys2Proof.Machine
end

