-- ==== Sys2Proof/Laws/Legal.lean ====
section
/-! SUPPORT. Every task the sequencer ever holds is one the rules allow: a command's tasks are legal when its operands are, a procedure
goes on with legal tasks, and a step keeps that. -/

namespace Sys2Proof.Machine

variable {s : State}

/-- The scan for a permitted sync word ends in the allow-list, for every request (40_config.md R140). -/
theorem syncSubstitute_mem (req : Byte) : syncSubstitute config.syncAllowed req ∈ config.syncAllowed := by
  revert req; decide +kernel

theorem legal_nil (c : Config) : ∀ t ∈ ([] : List Task), t.Legal c := by simp

theorem legal_cons {c : Config} {t : Task} {ts : List Task} :
    (∀ u ∈ t :: ts, u.Legal c) ↔ t.Legal c ∧ ∀ u ∈ ts, u.Legal c := List.forall_mem_cons

theorem legal_append {c : Config} {a b : List Task} :
    (∀ u ∈ a ++ b, u.Legal c) ↔ (∀ u ∈ a, u.Legal c) ∧ ∀ u ∈ b, u.Legal c := List.forall_mem_append

/-- A procedure with legal arguments goes on with legal tasks. -/
theorem proc_tasks_legal (p : Proc) (s : State) (h : p.Legal) : ∀ t ∈ p.tasks config s, t.Legal config := by
  have hreg : config.regs = regMap := rfl
  cases p with
  | errata bw =>
    simp only [Proc.tasks, errataTasks]
    split <;> simp [Task.Legal, hreg, regMap]
  | baseline pre sw => simp [Proc.tasks, baselineTasks, Task.Legal, Proc.Legal, hreg, regMap]
  | setBwCr bw cr =>
    obtain ⟨h1, h2⟩ := h
    simp only [Proc.tasks, bwCrTasks]
    split
    · exact legal_nil _
    · split <;> simp [Task.Legal, RegWrite.Legal, Proc.Legal, hreg, regMap, h1, h2]
  | setSf sf =>
    simp only [Proc.tasks, sfTasks]
    split
    · exact legal_nil _
    · split <;> simp only [legal_cons] <;> simp [Task.Legal, RegWrite.Legal, hreg, regMap] <;> exact h
  | setSync req =>
    have hm := syncSubstitute_mem req
    simp only [Proc.tasks, syncTasks]
    rw [legal_append]
    constructor
    · split
      · rename_i hne; simpa [Task.Legal, Event.Legal] using ⟨hm, hne⟩
      · exact legal_nil _
    · split
      · exact legal_nil _
      · simpa [Task.Legal, RegWrite.Legal, hreg, regMap] using hm
  | setPreamble n =>
    simp only [Proc.tasks, preambleTasks]
    split <;> simp [Task.Legal, RegWrite.Legal, hreg, regMap]
  | setPower pwr =>
    simp only [Proc.tasks, powerTasks]
    split <;> simp [Task.Legal, RegWrite.Legal, hreg, regMap]
  | setRxTimeout us =>
    simp only [Proc.tasks, rxTimeoutTasks]
    split <;> simp [Task.Legal, RegWrite.Legal, hreg, regMap]
  | setFreqHz hz => simp [Proc.tasks, freqHzTasks, Task.Legal, RegWrite.Legal, hreg, regMap, bytes24]
  | setFreqReg frf => simp [Proc.tasks, freqRegTasks, Task.Legal, RegWrite.Legal, hreg, regMap, bytes24]
  | armMode =>
    simp only [Proc.tasks, armModeTasks]
    split <;> simp [Task.Legal]

theorem afterProbeTasks_legal (i : Nat) (v : Byte) : ∀ t ∈ afterProbeTasks config i v, t.Legal config := by
  unfold afterProbeTasks
  split
  · simp [detectedTasks, Task.Legal, RegWrite.Legal, Proc.Legal]
  · split <;> simp [notDetectedTasks, Task.Legal, RegWrite.Legal]

/-- A command whose operands are legal starts with legal tasks. -/
theorem commandTasks_legal (i : Instr) (s : State) (h : operandsLegal config i = true) :
    ∀ t ∈ commandTasks config i s, t.Legal config := by
  have hreg : config.regs = regMap := rfl
  cases i with
  | begin => simp [commandTasks, beginTasks, config, Task.Legal]
  | config o =>
    simp only [operandsLegal, configLegal, Bool.and_eq_true, decide_eq_true_eq] at h
    obtain ⟨⟨⟨⟨⟨⟨hbw, hsf⟩, hcr⟩, -⟩, -⟩, hpl⟩, -⟩ := h
    simp only [commandTasks, configTasks, legal_cons]
    refine ⟨by simp [Task.Legal], by simpa [Task.Legal, RegWrite.Legal] using hpl, by simp [Task.Legal, RegWrite.Legal],
      by simp [Task.Legal, Proc.Legal], hsf, ⟨hbw, hcr⟩, ?_, by simp [Task.Legal, Proc.Legal], by simp [Task.Legal], legal_nil _⟩
    split <;> simp [Task.Legal, Proc.Legal]
  | setBwCr bw cr rsv =>
    simp only [operandsLegal, Bool.and_eq_true] at h
    simpa [commandTasks, Task.Legal, Proc.Legal] using h.1
  | setSf sf =>
    have h' : sfLegal (sf.extractLsb' 0 4).toNat = true := by
      simp only [operandsLegal, sfLegal, Bool.and_eq_true, decide_eq_true_eq] at h ⊢
      simp only [BitVec.extractLsb'_toNat]
      omega
    simpa [commandTasks, Task.Legal, Proc.Legal] using h'
  | setMode mode =>
    simp only [commandTasks, setModeTasks]
    cases hm : modeOfCode mode with
    | none => simp [Task.Legal]
    | some m =>
      have : m ≠ .unknown := by
        intro e; subst e; revert hm; unfold modeOfCode; repeat' split
        all_goals simp
      simpa [Task.Legal] using this
  | tx data => simp [commandTasks, txTasks, Task.Legal, hreg, regMap]
  | armRx => simp [commandTasks, armRxTasks, Task.Legal, Proc.Legal, hreg, regMap]
  | setPpm off => simp [commandTasks, ppmTasks, Task.Legal, RegWrite.Legal, hreg, regMap]
  | _ => simp [commandTasks, Task.Legal, RegWrite.Legal, Proc.Legal]

/-- A foreground action leaves legal tasks behind it. -/
theorem foreground_seq_legal (cmd : Instr) (k : Nat) (t : Task) (rest : List Task) (s : State) (ht : t.Legal config)
    (hr : ∀ u ∈ rest, u.Legal config) : (foreground config cmd k t rest s).seq.Legal config := by
  cases t with
  | probe i => simp only [foreground, advance_seq, Seq.Legal, legal_append]; exact ⟨afterProbeTasks_legal _ _, hr⟩
  | readStats =>
    simp only [foreground, advance_seq, Seq.Legal, legal_append]
    exact ⟨by simp [afterStatsTasks, Task.Legal, RegWrite.Legal], hr⟩
  | readFei =>
    simp only [foreground, advance_seq, Seq.Legal, legal_append]
    exact ⟨by simp [afterFeiTasks, Task.Legal, RegWrite.Legal], hr⟩
  | modeCheck m =>
    have ht' : m ≠ .unknown := ht
    simp only [foreground]
    split
    · simpa [Seq.Legal] using hr
    · simp only [advance_seq, Seq.Legal, legal_cons]; exact ⟨ht', ht', hr⟩
  | call p => simp only [foreground, Seq.Legal, legal_append]; exact ⟨proc_tasks_legal p s ht, hr⟩
  | respond st r => simp [foreground, Seq.Legal]
  | _ => simpa [foreground, Seq.Legal] using hr

/-- Legal tasks stay legal, whatever the step. -/
theorem micro_seq_legal (s : State) (h : s.seq.Legal config) : (micro config s).seq.Legal config := by
  rcases micro_cases config s with ⟨ph, -, he⟩ | ⟨-, -, he⟩ | ⟨-, -, -, he⟩ | ⟨cmd, k, -, -, -, he⟩ | ⟨cmd, k, t, rest, -, -, hs, he⟩
  · rw [he, dispatchStep_seq, sampleIrq_seq]; exact h
  · rw [he, enterDispatch_seq, sampleIrq_seq]; exact h
  · rw [he, sampleIrq_seq]; exact h
  · rw [he]; trivial
  · rw [hs] at h
    rw [he]
    exact foreground_seq_legal cmd k t rest _ (h t List.mem_cons_self) fun u hu => h u (List.mem_cons_of_mem _ hu)

end Sys2Proof.Machine
end

