-- ==== Sys2Proof/Laws/Ends.lean ====
section
/-! SUPPORT. Every command ends once: its last task, and no other, responds or leads to the response (30_encoding.md R114). -/

namespace Sys2Proof.Machine

variable (c : Config)

theorem endsOnce_cons (t : Task) (rest : List Task) :
    endsOnce (t :: rest) = true ↔ (rest = [] ∧ t.isLast = true) ∨ (t.isLast = false ∧ endsOnce rest = true) := by
  cases rest <;> simp [endsOnce]

theorem endsOnce_append (a rest : List Task) (h : ∀ t ∈ a, t.isLast = false) (hr : endsOnce rest = true) :
    endsOnce (a ++ rest) = true := by
  induction a with
  | nil => exact hr
  | cons t ts ih =>
    rw [List.cons_append, endsOnce_cons]
    exact .inr ⟨h t List.mem_cons_self, ih fun u hu => h u (List.mem_cons_of_mem _ hu)⟩

theorem proc_tasks_notLast (p : Proc) (s : State) : ∀ t ∈ p.tasks c s, t.isLast = false := by
  cases p <;> simp only [Proc.tasks, errataTasks, baselineTasks, bwCrTasks, sfTasks, syncTasks, preambleTasks, powerTasks,
    rxTimeoutTasks, freqHzTasks, freqRegTasks, armModeTasks]
  all_goals repeat' split
  all_goals simp [Task.isLast]

theorem commandTasks_endsOnce (i : Instr) (s : State) : endsOnce (commandTasks c i s) = true := by
  cases i <;> try rfl
  case begin => simp only [commandTasks, beginTasks]; split <;> rfl
  case setMode mode => simp only [commandTasks, setModeTasks]; split <;> rfl

theorem afterProbeTasks_endsOnce (i : Nat) (v : Byte) : endsOnce (afterProbeTasks c i v) = true := by
  unfold afterProbeTasks; repeat' split
  all_goals rfl

theorem foreground_endsOnce (cmd : Instr) (k : Nat) (t : Task) (rest : List Task) (s : State) (h : endsOnce (t :: rest) = true) :
    (foreground c cmd k t rest s).seq = .idle ∨ endsOnce (foreground c cmd k t rest s).seq.todo = true := by
  rw [endsOnce_cons] at h
  cases t with
  | probe i =>
    obtain ⟨rfl, -⟩ | ⟨h, -⟩ := h
    · right; simp [foreground, Seq.todo, afterProbeTasks_endsOnce]
    · cases h
  | readStats =>
    obtain ⟨rfl, -⟩ | ⟨h, -⟩ := h
    · right; simp [foreground, Seq.todo]; rfl
    · cases h
  | readFei =>
    obtain ⟨rfl, -⟩ | ⟨h, -⟩ := h
    · right; simp [foreground, Seq.todo]; rfl
    · cases h
  | respond st r => left; simp [foreground]
  | call p =>
    obtain ⟨-, h⟩ | ⟨-, h⟩ := h
    · cases h
    · right; exact endsOnce_append _ _ (proc_tasks_notLast c p s) h
  | modeCheck m =>
    obtain ⟨-, h⟩ | ⟨-, h⟩ := h
    · cases h
    · right; simp only [foreground]; split
      · simpa [Seq.todo] using h
      · simp [Seq.todo]; rw [endsOnce_cons, endsOnce_cons]; exact .inr ⟨rfl, .inr ⟨rfl, h⟩⟩
  | _ =>
    obtain ⟨-, h⟩ | ⟨-, h⟩ := h
    · cases h
    · right; simpa [foreground, Seq.todo] using h

end Sys2Proof.Machine
end

