-- ==== Sys2Proof/Laws/Memory.lean ====
section
/-! SUPPORT. RX_BUF as a byte memory (10_state.md R40): a write keeps the canonical form, a read sees the last write to its own address and
no other, and two canonical memories that read the same are the same data. -/

namespace Sys2Proof.Machine

theorem Memory.wf_iff (m : Memory) : m.wf = true ↔ m.Pairwise (fun x y => x.1 < y.1) := by simp [Memory.wf]

theorem Memory.wf_nil : Memory.wf [] = true := rfl

/-- The addresses after a write are the old ones and the written one. -/
theorem Memory.mem_write {m : Memory} {k : Nat} {v : Byte} {cell : Nat × Byte} (h : cell ∈ m.write k v) :
    cell = (k, v) ∨ cell ∈ m := by
  induction m with
  | nil => left; simpa [Memory.write] using h
  | cons c rest ih =>
    obtain ⟨a, b⟩ := c
    simp only [Memory.write] at h
    split at h
    · simpa using h
    · split at h
      · rcases List.mem_cons.mp h with h | h
        · exact .inl h
        · exact .inr (List.mem_cons_of_mem _ h)
      · rcases List.mem_cons.mp h with h | h
        · exact .inr (h ▸ List.mem_cons_self)
        · exact (ih h).imp id (List.mem_cons_of_mem _)

theorem Memory.write_wf {m : Memory} (k : Nat) (v : Byte) (h : m.wf = true) : (m.write k v).wf = true := by
  rw [Memory.wf_iff] at *
  induction m with
  | nil => simp [Memory.write]
  | cons c rest ih =>
    obtain ⟨a, b⟩ := c
    obtain ⟨ha, hr⟩ := List.pairwise_cons.mp h
    simp only [Memory.write]
    split
    · rename_i hk
      refine List.pairwise_cons.mpr ⟨fun cell hm => ?_, h⟩
      rcases List.mem_cons.mp hm with rfl | hm
      · exact hk
      · exact lt_trans hk (ha cell hm)
    · split
      · rename_i _ hk
        exact List.pairwise_cons.mpr ⟨fun cell hm => hk ▸ ha cell hm, hr⟩
      · rename_i h1 h2
        refine List.pairwise_cons.mpr ⟨fun cell hm => ?_, ih hr⟩
        rcases Memory.mem_write hm with rfl | hm
        · exact lt_of_le_of_ne (not_lt.mp h1) (Ne.symm h2)
        · exact ha cell hm

theorem Memory.writeBytes_wf (bs : List Byte) : ∀ {m : Memory} (k : Nat), m.wf = true → (m.writeBytes k bs).wf = true := by
  induction bs with
  | nil => intro m k h; exact h
  | cons b bs ih => intro m k h; exact ih (k + 1) (Memory.write_wf k b h)

/-- The addresses after a write of several bytes stay below `n` where they were and where the bytes fit. -/
theorem Memory.writeBytes_addresses (n : Nat) (bs : List Byte) : ∀ {m : Memory} (k : Nat), (∀ cell ∈ m, cell.1 < n) →
    k + bs.length ≤ n → ∀ cell ∈ m.writeBytes k bs, cell.1 < n := by
  induction bs with
  | nil => intro m k h _; exact h
  | cons b bs ih =>
    intro m k h hk
    rw [List.length_cons] at hk
    refine ih (k + 1) (fun cell hm => ?_) (by omega)
    rcases Memory.mem_write hm with rfl | hm
    · show k < n; omega
    · exact h cell hm

theorem Memory.read_write_same (m : Memory) (k : Nat) (v : Byte) : (m.write k v).read k = some v := by
  induction m with
  | nil => simp [Memory.write, Memory.read]
  | cons c rest ih =>
    obtain ⟨a, b⟩ := c
    simp only [Memory.write]
    split
    · simp [Memory.read]
    · split
      · simp [Memory.read]
      · rename_i _ h; simp [Memory.read, h, ih]

theorem Memory.read_write_other (m : Memory) (k j : Nat) (v : Byte) (h : j ≠ k) : (m.write k v).read j = m.read j := by
  induction m with
  | nil => simp [Memory.write, Memory.read, h]
  | cons c rest ih =>
    obtain ⟨a, b⟩ := c
    simp only [Memory.write]
    split
    · simp [Memory.read, h]
    · split
      · rename_i _ hk; subst hk; simp [Memory.read, h]
      · simp only [Memory.read, ih]

/-- A read after a write of several bytes: inside them the byte written, outside them what was there. -/
theorem Memory.read_writeBytes (bs : List Byte) : ∀ (m : Memory) (k j : Nat),
    (m.writeBytes k bs).read j = if k ≤ j ∧ j < k + bs.length then bs[j - k]? else m.read j := by
  induction bs with
  | nil => intro m k j; rw [if_neg (by simp)]; rfl
  | cons b bs ih =>
    intro m k j
    rw [Memory.writeBytes, ih]
    by_cases hj : j = k
    · subst hj
      rw [if_neg (by omega), if_pos (by simp), Memory.read_write_same]
      simp
    · rw [Memory.read_write_other _ _ _ _ hj]
      by_cases hin : k + 1 ≤ j ∧ j < k + 1 + bs.length
      · rw [if_pos hin, if_pos (by simp; omega)]
        obtain ⟨n, hn⟩ : ∃ n, j - k = n + 1 := ⟨j - k - 1, by omega⟩
        rw [hn, List.getElem?_cons_succ]
        congr 1
        omega
      · rw [if_neg hin, if_neg (by simp; omega)]

/-- A canonical memory reads nothing below its first address. -/
theorem Memory.read_none (m : Memory) (j : Nat) (h : ∀ cell ∈ m, j < cell.1) : m.read j = none := by
  induction m with
  | nil => rfl
  | cons c rest ih =>
    obtain ⟨a, b⟩ := c
    have := h (a, b) List.mem_cons_self
    simp only [Memory.read, Nat.ne_of_lt this]
    exact ih fun cell hm => h cell (List.mem_cons_of_mem _ hm)

/-- Equal memories are equal data: two canonical memories that read the same everywhere are the same list. -/
theorem Memory.ext_of_wf : ∀ {m m' : Memory}, m.wf = true → m'.wf = true → (∀ j, m.read j = m'.read j) → m = m'
  | [], [], _, _, _ => rfl
  | [], (a, b) :: _, _, _, h => by have := h a; simp [Memory.read] at this
  | (a, b) :: _, [], _, _, h => by have := h a; simp [Memory.read] at this
  | (a, b) :: r, (a', b') :: r', hm, hm', h => by
    rw [Memory.wf_iff] at hm hm'
    obtain ⟨h1, h2⟩ := List.pairwise_cons.mp hm
    obtain ⟨h1', h2'⟩ := List.pairwise_cons.mp hm'
    have haa : a = a' := by
      rcases Nat.lt_trichotomy a a' with hl | he | hl
      · have h3 := h a
        have h4 : Memory.read ((a', b') :: r') a = none :=
          Memory.read_none _ _ fun cell hc => by
            rcases List.mem_cons.mp hc with rfl | hc
            · exact hl
            · exact lt_trans hl (h1' cell hc)
        rw [h4] at h3
        simp [Memory.read] at h3
      · exact he
      · have h3 := h a'
        have h4 : Memory.read ((a, b) :: r) a' = none :=
          Memory.read_none _ _ fun cell hc => by
            rcases List.mem_cons.mp hc with rfl | hc
            · exact hl
            · exact lt_trans hl (h1 cell hc)
        rw [h4] at h3
        simp [Memory.read] at h3
    subst haa
    have hb : b = b' := by have := h a; simpa [Memory.read] using this
    subst hb
    have hr : r = r' := by
      refine Memory.ext_of_wf ((Memory.wf_iff _).mpr h2) ((Memory.wf_iff _).mpr h2') fun j => ?_
      by_cases hj : j = a
      · subst hj
        rw [Memory.read_none r j h1, Memory.read_none r' j h1']
      · have := h j; simpa [Memory.read, hj] using this
    rw [hr]

end Sys2Proof.Machine
end

