-- ==== Sys2Proof/Laws/PerInstr.lean ====
section
/-! SUPPORT. Per-command lemmas about commands as syntax. Family Length: the encoding of a command is as long as Table 5 says
(30_encoding.md R93, R118), whatever its operands. -/

namespace Sys2Proof.Laws.Length

/-- The bytes of the command are as many as Table 5 gives it. -/
def Statement (i : Instr) : Prop := (encode i).length = tableLength i

theorem begin : Statement .begin := rfl
theorem config (o : ConfigOperands) : Statement (.config o) := rfl
theorem setBwCr (bw : BitVec 4) (cr : BitVec 3) (rsv : BitVec 1) : Statement (.setBwCr bw cr rsv) := rfl
theorem setSf (sf : Byte) : Statement (.setSf sf) := rfl
theorem setSync (sw : Byte) : Statement (.setSync sw) := rfl
theorem setPreamble (pre : Byte) : Statement (.setPreamble pre) := rfl
theorem setPower (rsv pwr : BitVec 4) : Statement (.setPower rsv pwr) := rfl
theorem setFreqHz (hz : BitVec 32) : Statement (.setFreqHz hz) := rfl
theorem setFreqReg (frf : BitVec 24) : Statement (.setFreqReg frf) := rfl
theorem setRxTimeout (us : BitVec 32) : Statement (.setRxTimeout us) := rfl
theorem setHdrCrc (rsv : BitVec 6) (hdr crc : Bool) : Statement (.setHdrCrc rsv hdr crc) := rfl
theorem setMode (mode : Byte) : Statement (.setMode mode) := rfl
theorem tx (data : List Byte) : Statement (.tx data) := by simp [Statement, encode, tableLength]; omega
theorem armRx : Statement .armRx := rfl
theorem getStats : Statement .getStats := rfl
theorem getFei : Statement .getFei := rfl
theorem setPpm (off : BitVec 32) : Statement (.setPpm off) := rfl

end Sys2Proof.Laws.Length
end

