-- ==== Sys2Proof/Laws/Run.lean ====
section
/-! SUPPORT. A command's run with a quiet interrupt line, one task at a time. `runTasks` is the run with a given list of tasks; each lemma
says what one task does to it. -/

namespace Sys2Proof.Machine

/-- The run to the next command boundary of a command that has `ts` still to do. -/
def runTasks (c : Config) (i : Instr) (k : Nat) (ts : List Task) (s : State) : State :=
  runToRest c { s with seq := .busy i k ts }

variable {c : Config} {i : Instr} {k : Nat} {ts : List Task} {s : State}

/-! ### A quiet line stays quiet -/

@[simp] theorem calm_seq (q : Seq) : State.Calm { s with seq := q } ↔ s.Calm := Iff.rfl
@[simp] theorem calm_curMode (m : Mode) : State.Calm { s with curMode := m } ↔ s.Calm := Iff.rfl
@[simp] theorem calm_cmdStream (q : List Byte) : State.Calm { s with cmdStream := q } ↔ s.Calm := Iff.rfl
@[simp] theorem calm_record (t : PortOp) : (s.record t).Calm ↔ s.Calm := Iff.rfl
@[simp] theorem calm_emit (e : Event) : (s.emit e).Calm ↔ s.Calm := Iff.rfl
@[simp] theorem calm_drawOne : s.drawOne.Calm ↔ s.Calm := by simp [State.Calm]
@[simp] theorem calm_drawMany (n : Nat) : (s.drawMany n).Calm ↔ s.Calm := by simp [State.Calm]
@[simp] theorem calm_apply (w : RegWrite) : (w.apply s).Calm ↔ s.Calm := by simp [State.Calm]
@[simp] theorem calm_writeOpMode (m : Mode) : (s.writeOpMode c m).Calm ↔ s.Calm := by simp [State.Calm]

/-- With a quiet line, a step is the foreground's. -/
theorem micro_calm (h : s.Calm) : micro c s = foregroundStep c s := by
  obtain ⟨hd, hp, hl⟩ := h
  have hs : s.sampleIrq = s := by simp [State.sampleIrq, hl]
  simp [micro, hs, hd, hp]

/-- With a quiet line, the run with `t` to do first is the run after `t`. -/
theorem runTasks_cons (t : Task) (h : s.Calm) :
    runTasks c i k (t :: ts) s = runToRest c (foreground c i k t ts { s with seq := .busy i k (t :: ts) }) := by
  rw [runTasks, runToRest_step _ _ (by simp [State.atRest, Seq.isIdle]), micro_calm (by simpa using h)]
  rfl

theorem runTasks_portWrite (a : RegAddr) (v : Byte) (h : s.Calm) :
    runTasks c i k (.portWrite a v :: ts) s = runTasks c i (k + 1) ts (s.record (.write a v)) := runTasks_cons _ h

theorem runTasks_fieldWrite (a : RegAddr) (p : FieldPos) (f : Byte) (h : s.Calm) :
    runTasks c i k (.fieldWrite a p f :: ts) s = runTasks c i (k + 1) ts (s.record (.field a p.msb p.lsb f)) :=
  runTasks_cons _ h

theorem runTasks_burstWrite (a : RegAddr) (b : List Byte) (h : s.Calm) :
    runTasks c i k (.burstWrite a b :: ts) s = runTasks c i (k + 1) ts (s.record (.burstWrite a b)) := runTasks_cons _ h

theorem runTasks_fifoWrite (b : List Byte) (h : s.Calm) :
    runTasks c i k (.fifoWrite b :: ts) s = runTasks c i (k + 1) ts (s.record (.fifoWrite b)) := runTasks_cons _ h

theorem runTasks_txEnable (h : s.Calm) :
    runTasks c i k (.txEnable :: ts) s = runTasks c i (k + 1) ts (s.record .txEnable) := runTasks_cons _ h

theorem runTasks_rxEnable (h : s.Calm) :
    runTasks c i k (.rxEnable :: ts) s = runTasks c i (k + 1) ts (s.record .rxEnable) := runTasks_cons _ h

theorem runTasks_delay (ms : Nat) (h : s.Calm) :
    runTasks c i k (.delay ms :: ts) s = runTasks c i (k + 1) ts (s.record (.delay ms)) := runTasks_cons _ h

theorem runTasks_emit (e : Event) (h : s.Calm) :
    runTasks c i k (.emit e :: ts) s = runTasks c i (k + 1) ts (s.emit e) := runTasks_cons _ h

theorem runTasks_regWrite (w : RegWrite) (h : s.Calm) :
    runTasks c i k (.regWrite w :: ts) s = runTasks c i (k + 1) ts (w.apply s) := by
  rw [runTasks_cons _ h]; cases w <;> rfl

theorem runTasks_modeCache (m : Mode) (h : s.Calm) :
    runTasks c i k (.modeCache m :: ts) s = runTasks c i (k + 1) ts { s with curMode := m } := runTasks_cons _ h

theorem runTasks_modeWrite (m : Mode) (h : s.Calm) :
    runTasks c i k (.modeWrite m :: ts) s = runTasks c i (k + 1) ts (s.writeOpMode c m) := runTasks_cons _ h

@[simp] theorem calm_setMode (m : Mode) : (s.setMode c m).Calm ↔ s.Calm := by
  unfold State.setMode; split <;> exact Iff.rfl

theorem runTasks_modeCheck (m : Mode) (h : s.Calm) :
    ∃ k', runTasks c i k (.modeCheck m :: ts) s = runTasks c i k' ts (s.setMode c m) := by
  rw [runTasks_cons _ h]
  simp only [foreground, State.setMode]
  split
  · exact ⟨k + 1, rfl⟩
  · refine ⟨k + 3, ?_⟩
    change runTasks c i (k + 1) (.modeWrite m :: .modeCache m :: ts) s = _
    rw [runTasks_modeWrite _ h, runTasks_modeCache _ (by simpa using h)]

theorem runTasks_call (p : Proc) (h : s.Calm) :
    runTasks c i k (.call p :: ts) s = runTasks c i k (p.tasks c { s with seq := .busy i k (.call p :: ts) } ++ ts) s :=
  runTasks_cons _ h

theorem runTasks_probe (n : Nat) (h : s.Calm) :
    runTasks c i k (.probe n :: ts) s =
      runTasks c i (k + 1) (afterProbeTasks c n s.nextByte ++ ts) (s.drawOne.record (.read c.regs.version s.nextByte)) := by
  rw [runTasks_cons _ h]
  simp only [foreground, runTasks]
  congr 1
  simp only [State.drawOne, State.nextByte, State.advance, State.record]
  cases s.chipReads <;> rfl

theorem drawOne_seq_update (q : Seq) (s : State) : State.drawOne { s with seq := q } = { s.drawOne with seq := q } := by
  simp only [State.drawOne]; cases s.chipReads <;> rfl

theorem drawMany_seq_update (n : Nat) : ∀ (q : Seq) (s : State),
    State.drawMany n { s with seq := q } = { s.drawMany n with seq := q } := by
  induction n with
  | zero => intro q s; rfl
  | succ n ih => intro q s; rw [State.drawMany, drawOne_seq_update, ih]; rfl

theorem nextBytes_seq_update (n : Nat) : ∀ (q : Seq) (s : State), State.nextBytes n { s with seq := q } = s.nextBytes n := by
  induction n with
  | zero => intro q s; rfl
  | succ n ih => intro q s; rw [State.nextBytes, State.nextBytes, drawOne_seq_update, ih]; rfl

theorem nextBytes_length (n : Nat) : ∀ s : State, (s.nextBytes n).length = n := by
  induction n with
  | zero => intro s; rfl
  | succ n ih => intro s; rw [State.nextBytes, List.length_cons, ih]

/-- GET_STATS's burst read (43_telemetry.md R196). -/
theorem runTasks_readStats (h : s.Calm) :
    runTasks c i k (.readStats :: ts) s =
      runTasks c i (k + 1) (afterStatsTasks c (s.nextBytes 2) ++ ts)
        ((s.drawMany 2).record (.burstRead c.regs.pktSnrValue 2 (s.nextBytes 2))) := by
  rw [runTasks_cons _ h]
  simp only [foreground, runTasks, nextBytes_seq_update, drawMany_seq_update]
  rfl

/-- GET_FEI's burst read (43_telemetry.md R197). -/
theorem runTasks_readFei (h : s.Calm) :
    runTasks c i k (.readFei :: ts) s =
      runTasks c i (k + 1) (afterFeiTasks c (s.nextBytes 3) s ++ ts)
        ((s.drawMany 3).record (.burstRead c.regs.feiMsb 3 (s.nextBytes 3))) := by
  rw [runTasks_cons _ h]
  simp only [foreground, runTasks, nextBytes_seq_update, drawMany_seq_update]
  rfl

theorem runTasks_respond (st : Status) (r : List Byte) (h : s.Calm) :
    runTasks c i k (.respond st r :: ts) s = s.respond st r := by
  rw [runTasks_cons _ h]
  exact runToRest_of_atRest _ _ (by simp [foreground, State.atRest, State.inDispatch, Seq.isIdle, h.1])

end Sys2Proof.Machine
end

