-- ==== Sys2Proof/Laws/Quiet.lean ====
section
/-! SUPPORT. What each procedure of 40_config.md and 41_mode.md does with a quiet interrupt line. `Quiet c ts s s'` says that the tasks
`ts` take `s` to `s'`; the lemmas compose, so a command's run is the chain of its procedures' lemmas and no proof follows the
sequencer again. -/

namespace Sys2Proof.Machine

/-- With a quiet line, the tasks `ts` take `s` to `s'`, whatever is still to do after them. -/
structure Quiet (c : Config) (ts : List Task) (s s' : State) : Prop where
  calm : s.Calm → s'.Calm
  run : s.Calm → ∀ (i : Instr) (k : Nat) (rest : List Task),
    ∃ k', runTasks c i k (ts ++ rest) s = runTasks c i k' rest s'

variable {c : Config} {ts ts' : List Task} {s s' s'' : State}

theorem Quiet.nil : Quiet c [] s s := ⟨id, fun _ _ k _ => ⟨k, rfl⟩⟩

theorem Quiet.append (h : Quiet c ts s s') (h' : Quiet c ts' s' s'') : Quiet c (ts ++ ts') s s'' where
  calm := h'.calm ∘ h.calm
  run := by
    intro hc i k rest
    obtain ⟨k1, h1⟩ := h.run hc i k (ts' ++ rest)
    obtain ⟨k2, h2⟩ := h'.run (h.calm hc) i k1 rest
    exact ⟨k2, by rw [List.append_assoc, h1, h2]⟩

theorem Quiet.cons {t : Task} (h : Quiet c [t] s s') (h' : Quiet c ts s' s'') : Quiet c (t :: ts) s s'' := h.append h'

theorem Quiet.of_eq (h : Quiet c ts s s') (e : s' = s'') : Quiet c ts s s'' := e ▸ h

/-- A task that is one micro-operation and takes every quiet state to `s'`. -/
theorem Quiet.one {t : Task} (hc : s.Calm → s'.Calm)
    (h : s.Calm → ∀ i k rest, runTasks c i k (t :: rest) s = runTasks c i (k + 1) rest s') : Quiet c [t] s s' :=
  ⟨hc, fun hs i k rest => ⟨k + 1, h hs i k rest⟩⟩

theorem Quiet.portWrite (a : RegAddr) (v : Byte) : Quiet c [.portWrite a v] s (s.record (.write a v)) :=
  .one (by simp) fun h _ _ _ => runTasks_portWrite a v h

theorem Quiet.fieldWrite (a : RegAddr) (p : FieldPos) (f : Byte) :
    Quiet c [.fieldWrite a p f] s (s.record (.field a p.msb p.lsb f)) :=
  .one (by simp) fun h _ _ _ => runTasks_fieldWrite a p f h

theorem Quiet.burstWrite (a : RegAddr) (b : List Byte) : Quiet c [.burstWrite a b] s (s.record (.burstWrite a b)) :=
  .one (by simp) fun h _ _ _ => runTasks_burstWrite a b h

theorem Quiet.fifoWrite (b : List Byte) : Quiet c [.fifoWrite b] s (s.record (.fifoWrite b)) :=
  .one (by simp) fun h _ _ _ => runTasks_fifoWrite b h

theorem Quiet.txEnable : Quiet c [.txEnable] s (s.record .txEnable) := .one (by simp) fun h _ _ _ => runTasks_txEnable h

theorem Quiet.rxEnable : Quiet c [.rxEnable] s (s.record .rxEnable) := .one (by simp) fun h _ _ _ => runTasks_rxEnable h

theorem Quiet.delay (ms : Nat) : Quiet c [.delay ms] s (s.record (.delay ms)) :=
  .one (by simp) fun h _ _ _ => runTasks_delay ms h

theorem Quiet.emit (e : Event) : Quiet c [.emit e] s (s.emit e) := .one (by simp) fun h _ _ _ => runTasks_emit e h

theorem Quiet.regWrite (w : RegWrite) : Quiet c [.regWrite w] s (w.apply s) :=
  .one (by simp) fun h _ _ _ => runTasks_regWrite w h

theorem Quiet.modeCheck (m : Mode) : Quiet c [.modeCheck m] s (s.setMode c m) :=
  ⟨by simp, fun h _ _ _ => runTasks_modeCheck m h⟩

/-- A procedure decides from the registers, never from the sequencer. -/
theorem proc_tasks_seq (p : Proc) (s : State) (q : Seq) : p.tasks c { s with seq := q } = p.tasks c s := by cases p <;> rfl

theorem Quiet.call {p : Proc} (h : Quiet c (p.tasks c s) s s') : Quiet c [.call p] s s' where
  calm := h.calm
  run := by
    intro hs i k rest
    obtain ⟨k', h'⟩ := h.run hs i k rest
    refine ⟨k', ?_⟩
    rw [List.singleton_append, runTasks_call p hs, proc_tasks_seq, h']

/-- The end of a command: the tasks, then the response. -/
theorem Quiet.finish {i : Instr} {k : Nat} {st : Status} {r : List Byte} (h : Quiet c ts s s') (hs : s.Calm) :
    runTasks c i k (ts ++ [.respond st r]) s = s'.respond st r := by
  obtain ⟨k', h'⟩ := h.run hs i k [.respond st r]
  rw [h', runTasks_respond st r (h.calm hs)]

/-! ### The procedures, with the machine's parameters -/

/-- SetMode's effect as one record: the mode, FAULT_ABORT and the traffic. -/
theorem setMode_eq (m : Mode) : s.setMode config m =
    { s with curMode := m, faultAbort := s.faultAbort || abortsTransmit m s, trace := s.trace ++ modeTraffic m s.curMode } := by
  unfold State.setMode modeTraffic
  split
  · rename_i h; subst h; simp [abortsTransmit]
  · rename_i h; rw [if_neg (fun e => h e.symm)]; rfl

theorem quiet_errata (bw : BitVec 4) :
    Quiet config (Proc.tasks config (.errata bw) s) s { s with trace := s.trace ++ errataTraffic bw } := by
  dsimp only [Proc.tasks]
  unfold errataTasks errataTraffic
  split
  · exact ((Quiet.portWrite _ _).cons (Quiet.portWrite _ _)).of_eq (by simp [State.record, config, regMap])
  · exact Quiet.portWrite _ _

theorem quiet_preamble (n : Byte) : Quiet config (Proc.tasks config (.setPreamble n) s) s
    { s with curPre := ⟨true, n⟩, trace := s.trace ++ preambleTraffic n s.curPre } := by
  dsimp only [Proc.tasks]
  unfold preambleTasks preambleTraffic
  have hk : s.curPre.holds n = true ↔ s.curPre = ⟨true, n⟩ := by
    rcases s.curPre with ⟨v, w⟩; simp [Cache.holds]
  split
  · rename_i h
    rw [hk] at h
    exact Quiet.nil.of_eq (by rw [if_pos h, ← h]; simp)
  · rename_i h
    rw [hk] at h
    exact ((Quiet.portWrite _ _).cons (Quiet.regWrite _)).of_eq (by simp [State.record, RegWrite.apply, config, regMap, h])

theorem quiet_sync (req : Byte) : Quiet config (Proc.tasks config (.setSync req) s) s
    { s with
      curSync := ⟨true, syncSubstitute config.syncAllowed req⟩
      events := s.events ++ syncLog req (syncSubstitute config.syncAllowed req)
      trace := s.trace ++ syncTraffic (syncSubstitute config.syncAllowed req) s.curSync } := by
  dsimp only [Proc.tasks]
  unfold syncTasks syncLog syncTraffic
  generalize syncSubstitute config.syncAllowed req = w
  have hk : s.curSync.holds w = true ↔ s.curSync = ⟨true, w⟩ := by
    rcases s.curSync with ⟨v, x⟩; simp [Cache.holds]
  have hlog : Quiet config (if w ≠ req then [Task.emit (.syncSubst req w)] else []) s
      { s with events := s.events ++ (if w = req then [] else [Event.syncSubst req w]) } := by
    by_cases h : w = req
    · rw [if_neg (not_not.mpr h), if_pos h, List.append_nil]; exact Quiet.nil
    · rw [if_pos h, if_neg h]; exact Quiet.emit _
  refine hlog.append ?_
  split
  · rename_i h
    rw [hk] at h
    exact Quiet.nil.of_eq (by rw [if_pos h, ← h]; simp)
  · rename_i h
    rw [hk] at h
    exact ((Quiet.portWrite _ _).cons (Quiet.regWrite _)).of_eq (by simp [State.record, RegWrite.apply, config, regMap, h])

theorem quiet_sf (sf : BitVec 4) : Quiet config (Proc.tasks config (.setSf sf) s) s
    { s with curSf := sf, trace := s.trace ++ sfTraffic sf s.curSf } := by
  dsimp only [Proc.tasks]
  unfold sfTasks sfTraffic
  split
  · rename_i h; exact Quiet.nil.of_eq (by subst h; simp)
  · have hf : spreadingField sf = 2 * sf.zeroExtend 8 := by clear * -; revert sf; decide
    split
    · rename_i h
      subst h
      exact ((Quiet.fieldWrite _ _ _).cons ((Quiet.fieldWrite _ _ _).cons ((Quiet.portWrite _ _).cons
        (Quiet.regWrite _)))).of_eq (by simp [State.record, RegWrite.apply, config, regMap, fieldMap, spreadingField])
    · exact ((Quiet.fieldWrite _ _ _).cons ((Quiet.fieldWrite _ _ _).cons ((Quiet.portWrite _ _).cons
        (Quiet.regWrite _)))).of_eq (by rw [hf]; simp [State.record, RegWrite.apply, config, regMap, fieldMap])

theorem quiet_bwCr (bw : BitVec 4) (cr : BitVec 3) : Quiet config (Proc.tasks config (.setBwCr bw cr) s) s
    { s with curBw := bw, curCr := cr, trace := s.trace ++ bwCrTraffic bw cr s.curSf s } := by
  dsimp only [Proc.tasks]
  unfold bwCrTasks bwCrTraffic
  have hk : bwCrElided bw cr s = true ↔ s.curBw = bw ∧ s.curCr = cr := by simp [bwCrElided]
  split
  · rename_i h
    rw [hk] at h
    exact Quiet.nil.of_eq (by rw [if_pos h, ← h.1, ← h.2]; simp)
  · rename_i h
    rw [hk, not_and] at h
    split
    · exact ((Quiet.portWrite _ _).cons ((Quiet.fieldWrite _ _ _).cons ((Quiet.call (quiet_errata bw)).cons
        ((Quiet.regWrite _).cons (Quiet.regWrite _))))).of_eq
        (by simp [State.record, RegWrite.apply, config, regMap, fieldMap, modemConfig1Byte, bitField]; exact h)
    · exact ((Quiet.portWrite _ _).cons ((Quiet.fieldWrite _ _ _).cons ((Quiet.call (quiet_errata bw)).cons
        ((Quiet.regWrite _).cons (Quiet.regWrite _))))).of_eq
        (by
          cases hx : s.headerExpl <;> cases hc : s.crcEn <;>
            simp [hx, hc, State.record, RegWrite.apply, config, regMap, fieldMap, modemConfig1Byte, bitField] <;> exact h)

theorem quiet_mode (m : Mode) : Quiet config [.modeCheck m] s
    { s with curMode := m, faultAbort := s.faultAbort || abortsTransmit m s, trace := s.trace ++ modeTraffic m s.curMode } :=
  (Quiet.modeCheck m).of_eq (setMode_eq m)

theorem quiet_freqHz (hz : BitVec 32) : Quiet config (Proc.tasks config (.setFreqHz hz) s) s
    { s with
      curMode := .standby
      faultAbort := s.faultAbort || abortsTransmit .standby s
      freqHz := hz
      freqReg := BitVec.ofNat 24 (freqToReg config hz.toNat)
      trace := s.trace ++ modeTraffic .standby s.curMode ++ freqTraffic (BitVec.ofNat 24 (freqToReg config hz.toNat)) } := by
  dsimp only [Proc.tasks]
  unfold freqHzTasks
  generalize BitVec.ofNat 24 (freqToReg config hz.toNat) = frf
  exact (quiet_mode _).cons ((Quiet.burstWrite _ _).cons ((Quiet.regWrite _).cons (Quiet.regWrite _)))

/-- With the machine's parameters every register value has its equivalent in Hz within 32 bits, so no free value arises (log 29). -/
theorem appliedHz_config (frf : BitVec 24) : appliedHz config frf = BitVec.ofNat 32 (regToHz config frf.toNat) := by
  have h := frf.isLt
  have hfit : regToHz config frf.toNat < 2 ^ 32 := by simp only [regToHz, config]; omega
  simp only [appliedHz, if_pos hfit]

theorem quiet_freqReg (frf : BitVec 24) : Quiet config (Proc.tasks config (.setFreqReg frf) s) s
    { s with
      curMode := .standby
      faultAbort := s.faultAbort || abortsTransmit .standby s
      freqHz := BitVec.ofNat 32 (regToHz config frf.toNat)
      freqReg := frf
      trace := s.trace ++ modeTraffic .standby s.curMode ++ freqTraffic frf } := by
  dsimp only [Proc.tasks]
  unfold freqRegTasks
  rw [appliedHz_config]
  generalize BitVec.ofNat 32 (regToHz config frf.toNat) = hz
  exact (quiet_mode _).cons ((Quiet.burstWrite _ _).cons ((Quiet.regWrite _).cons (Quiet.regWrite _)))

theorem quiet_rxTimeout (us : BitVec 32) : Quiet config (Proc.tasks config (.setRxTimeout us) s) s
    { s with
      timeoutSymbols := timeoutCount s.curSf s.curBw us
      trace := s.trace ++ timeoutTraffic us (timeoutCount s.curSf s.curBw us) } := by
  have hn : us ≠ 0 → timeoutCount s.curSf s.curBw us = symbolCount config s.curSf s.curBw us := fun h => by
    rw [timeoutCount, if_neg h]; rfl
  by_cases h : us = 0
  · subst h
    exact (Quiet.regWrite _).of_eq (by simp [RegWrite.apply, timeoutCount, timeoutTraffic])
  · dsimp only [Proc.tasks]
    rw [hn h, rxTimeoutTasks, if_neg h, timeoutTraffic, if_neg h]
    generalize symbolCount config s.curSf s.curBw us = n
    exact ((Quiet.portWrite _ _).cons ((Quiet.fieldWrite _ _ _).cons (Quiet.regWrite _))).of_eq
      (by simp [State.record, RegWrite.apply, config, regMap, fieldMap])

theorem quiet_armMode : Quiet config (Proc.tasks config .armMode s) s
    { s with
      curMode := if s.timeoutSymbols = 0 then .rxContinuous else .rxSingle
      faultAbort := s.faultAbort || decide (s.curMode = .transmit)
      trace := s.trace ++ modeTraffic (if s.timeoutSymbols = 0 then .rxContinuous else .rxSingle) s.curMode } := by
  dsimp only [Proc.tasks]
  unfold armModeTasks
  by_cases h : s.timeoutSymbols = 0
  · rw [if_neg (not_not.mpr h), if_pos h]; exact (quiet_mode _).of_eq (by simp [abortsTransmit])
  · rw [if_pos h, if_neg h]; exact (quiet_mode _).of_eq (by simp [abortsTransmit])

theorem quiet_baseline (pre sw : Byte) : Quiet config (Proc.tasks config (.baseline pre sw) s) s
    { s with
      curMode := .standby
      faultAbort := s.faultAbort || abortsTransmit .standby s
      curPre := ⟨true, pre⟩
      curSync := ⟨true, syncSubstitute config.syncAllowed sw⟩
      events := s.events ++ syncLog sw (syncSubstitute config.syncAllowed sw)
      trace := s.trace ++ modeTraffic .standby s.curMode
        ++ baselineTraffic pre (syncSubstitute config.syncAllowed sw) s.payloadLen s.iqInvert s } := by
  have hbit : bitField s.iqInvert = if s.iqInvert then 1 else 0 := by cases s.iqInvert <;> rfl
  dsimp only [Proc.tasks]
  unfold baselineTasks
  refine ((quiet_mode _).cons ((Quiet.portWrite _ _).cons ((Quiet.portWrite _ _).cons ((Quiet.portWrite _ _).cons
    ((Quiet.fieldWrite _ _ _).cons ((Quiet.fieldWrite _ _ _).cons ((Quiet.call (quiet_errata _)).cons
    ((Quiet.call (quiet_preamble pre)).cons ((Quiet.call (quiet_sync sw)).cons (Quiet.fieldWrite _ _ _)))))))))).of_eq ?_
  rw [hbit]
  generalize syncSubstitute config.syncAllowed sw = w
  simp [State.record, baselineTraffic, config, regMap, fieldMap]

theorem quiet_power (pwr : BitVec 4) (h : s.curPwr ≠ ⟨true, pwr⟩) : Quiet config (Proc.tasks config (.setPower pwr) s) s
    { s with
      curMode := .standby
      faultAbort := s.faultAbort || abortsTransmit .standby s
      curPwr := ⟨true, pwr⟩
      trace := s.trace ++ modeTraffic .standby s.curMode ++ [.write 0x09 (paConfigByte config pwr)] } := by
  have hk : s.curPwr.holds pwr = true ↔ s.curPwr = ⟨true, pwr⟩ := by
    rcases s.curPwr with ⟨v, w⟩; simp [Cache.holds]
  dsimp only [Proc.tasks]
  unfold powerTasks
  rw [if_neg (by rw [hk]; exact h)]
  exact (quiet_mode _).cons ((Quiet.portWrite _ _).cons (Quiet.regWrite _))

theorem quiet_power_elided (pwr : BitVec 4) (h : s.curPwr = ⟨true, pwr⟩) :
    Quiet config (Proc.tasks config (.setPower pwr) s) s s := by
  dsimp only [Proc.tasks]
  unfold powerTasks
  rw [if_pos (by simp [Cache.holds, h])]
  exact Quiet.nil

/-! ### A whole command -/

/-- A command that passes its checks runs its tasks. -/
theorem exec_tasks {i : Instr} (h1 : operandsLegal config i = true) (h2 : s.detected = true ∨ i = .begin)
    (h3 : stateCheck i s = none) : exec i s = .next (runTasks config i 0 (commandTasks config i s) s) := by
  have h2' : readyFor i s = true := by simpa [readyFor] using h2
  rw [exec_eq]
  unfold command
  rw [if_pos h1, if_pos h2', h3]
  rfl

/-- A command that passes its checks, with a quiet line: its tasks' chain, then the response. -/
theorem exec_quiet {i : Instr} {st : Status} {r : List Byte} (hu : s.Undisturbed) (h1 : operandsLegal config i = true)
    (h2 : s.detected = true ∨ i = .begin) (h3 : stateCheck i s = none) (hb : commandTasks config i s = ts ++ [.respond st r])
    (hq : Quiet config ts s s') : exec i s = .next (s'.respond st r) := by
  rw [exec_tasks h1 h2 h3, hb, hq.finish hu.2]

end Sys2Proof.Machine
end

