-- ==== Sys2Proof/Machine/Assembler.lean ====
section
/-! DEFINITION. The assembler's text of a command (30_encoding.md R116): the mnemonic, then the operands separated by commas. Numbers
are written in decimal; bandwidths, coding rates and modes by their names (R107, R108, R110). -/

namespace Sys2Proof.Machine

/-- The bandwidth names of R107; a reserved code is written as a number. -/
def bwName (bw : BitVec 4) : String :=
  ["BW7_8", "BW10_4", "BW15_6", "BW20_8", "BW31_25", "BW41_7", "BW62_5", "BW125", "BW250", "BW500"].getD bw.toNat
    (toString bw.toNat)

/-- The coding-rate names of R108; a reserved code is written as a number. -/
def crName (cr : BitVec 3) : String :=
  if cr = 1 then "CR4_5" else if cr = 2 then "CR4_6" else if cr = 3 then "CR4_7" else if cr = 4 then "CR4_8"
  else toString cr.toNat

/-- The mode names of R110; a reserved code is written as a number. -/
def modeName (b : Byte) : String :=
  match modeOfCode b with
  | some .sleep => "SLEEP"
  | some .standby => "STANDBY"
  | some .transmit => "TRANSMIT"
  | some .rxContinuous => "RECEIVE-CONTINUOUS"
  | some .rxSingle => "RECEIVE-SINGLE"
  | some .unknown => toString b.toNat
  | none => toString b.toNat

/-- A one-bit operand. -/
def bitText (b : Bool) : String := if b then "1" else "0"

/-- CONFIG's frequency: `<n>hz` when FU = 1, `<n>reg` when FU = 0. -/
def freqText (o : ConfigOperands) : String := toString o.freq.toNat ++ (if o.fu then "hz" else "reg")

/-- CONFIG's sync word: a number when SWP = 1, `keep` when SWP = 0. -/
def syncText (o : ConfigOperands) : String := if o.swp then toString o.sw.toNat else "keep"

/-- The operands of a command, as text. -/
def operandTexts : Instr → List String
  | .begin => []
  | .config o =>
    [bwName o.bw, toString o.sf.toNat, crName o.cr, freqText o, toString o.pre.toNat, syncText o, bitText o.iq,
      toString o.plen.toNat, toString o.tout.toNat]
  | .setBwCr bw cr _ => [bwName bw, crName cr]
  | .setSf sf => [toString sf.toNat]
  | .setSync sw => [toString sw.toNat]
  | .setPreamble pre => [toString pre.toNat]
  | .setPower _ pwr => [toString pwr.toNat]
  | .setFreqHz hz => [toString hz.toNat]
  | .setFreqReg frf => [toString frf.toNat]
  | .setRxTimeout us => [toString us.toNat]
  | .setHdrCrc _ hdr crc => [bitText hdr, bitText crc]
  | .setMode mode => [modeName mode]
  | .tx data => ["[" ++ String.intercalate ", " (data.map (fun b => toString b.toNat)) ++ "]"]
  | .armRx => []
  | .getStats => []
  | .getFei => []
  | .setPpm off => [toString off.toInt]

/-- One line of an assembler listing. -/
def asmLine (i : Instr) : String :=
  match operandTexts i with
  | [] => mnemonic i
  | ops => mnemonic i ++ " " ++ String.intercalate ", " ops

end Sys2Proof.Machine
end

