-- ==== Sys2Proof/Tests/Slice0.lean ====
section
/-! SUPPORT. The model's own tests. The expected values are the spec's worked examples (95_test_vectors.md and the examples of the rules),
or are worked out by hand from its tables. Part 1: well-formedness. Part 2: decoding. Part 3: commands, one step each. Part 4: the
dispatch. Part 5: a witness for the hypotheses of each statement. -/

namespace Sys2Proof.Tests

open Sys2Proof.Machine

/-- The next state, or reset where there is none. -/
def after (r : Result) : State :=
  match r with
  | .next t => t
  | .fault _ => State.reset
  | .refused _ => State.reset

/-- The state "after BEGIN" of 95_test_vectors.md, with an empty trace. -/
def ready : State :=
  { State.reset with detected := true, curMode := .standby, curPre := ⟨true, 8⟩, curSync := ⟨true, 0x12⟩ }

/-- CONFIG of V-CFG 1: BW500, SF 6, CR4_5, 915 MHz, preamble 8, sync 0x12, payload 8, timeout 20000 us. -/
def cfg1 : ConfigOperands := ⟨9, 6, 1, false, true, true, 0, 8, 0x12, 8, 915000000, 20000⟩

/-! ### Part 1: ill-formed commands, one for each check -/

theorem test_wf_bw : ¬ (Instr.setBwCr 10 1 0).WellFormed := by decide
theorem test_wf_cr_low : ¬ (Instr.setBwCr 7 0 0).WellFormed := by decide
theorem test_wf_cr_high : ¬ (Instr.setBwCr 7 5 0).WellFormed := by decide
theorem test_wf_bwcr_reserved : ¬ (Instr.setBwCr 7 1 1).WellFormed := by decide
theorem test_wf_sf_low : ¬ (Instr.setSf 5).WellFormed := by decide
theorem test_wf_sf_high : ¬ (Instr.setSf 13).WellFormed := by decide
theorem test_wf_power_reserved : ¬ (Instr.setPower 1 0).WellFormed := by decide
theorem test_wf_hdrcrc_reserved : ¬ (Instr.setHdrCrc 1 true true).WellFormed := by decide
theorem test_wf_mode : ¬ (Instr.setMode 2).WellFormed ∧ ¬ (Instr.setMode 7).WellFormed := by decide
theorem test_wf_freq : ¬ (Instr.setFreqHz 1024000000).WellFormed ∧ (Instr.setFreqHz 1023999999).WellFormed := by decide
theorem test_wf_tx_empty : ¬ (Instr.tx []).WellFormed := by decide
theorem test_wf_tx_long : ¬ (Instr.tx (List.replicate 256 0)).WellFormed := by decide +kernel
theorem test_wf_config : (Instr.config cfg1).WellFormed := by decide
theorem test_wf_config_bw : ¬ (Instr.config { cfg1 with bw := 10 }).WellFormed := by decide
theorem test_wf_config_sf : ¬ (Instr.config { cfg1 with sf := 5 }).WellFormed := by decide
theorem test_wf_config_cr : ¬ (Instr.config { cfg1 with cr := 0 }).WellFormed := by decide
theorem test_wf_config_reserved : ¬ (Instr.config { cfg1 with rsv := 1 }).WellFormed := by decide
theorem test_wf_config_keep_sync : ¬ (Instr.config { cfg1 with swp := false, sw := 0x34 }).WellFormed := by decide
theorem test_wf_config_plen : ¬ (Instr.config { cfg1 with plen := 0 }).WellFormed := by decide
theorem test_wf_config_freq_reg : ¬ (Instr.config { cfg1 with fu := false, freq := 0x01E4C000 }).WellFormed := by decide
theorem test_wf_config_freq_hz : ¬ (Instr.config { cfg1 with freq := 1024000000 }).WellFormed := by decide

/-! ### Part 2: decoding, one word for each command, from the formats of R95 to R100 and the encodings of 95_test_vectors.md -/

theorem test_decode_begin : decode [0x01] = .command .begin [] := by decide
theorem test_decode_config :
    decode [0x02, 0x96, 0x2C, 0x08, 0x12, 0x08, 0x36, 0x89, 0xCA, 0xC0, 0x00, 0x00, 0x4E, 0x20] = .command (.config cfg1) [] := by
  decide
theorem test_decode_setBwCr : decode [0x03, 0x72, 0x55] = .command (.setBwCr 7 1 0) [0x55] := by decide
theorem test_decode_setSf : decode [0x04, 0b00001100] = .command (.setSf 12) [] := by decide
theorem test_decode_setSync : decode [0x05, 0xF8] = .command (.setSync 0xF8) [] := by decide
theorem test_decode_setPreamble : decode [0x06, 0x0C] = .command (.setPreamble 12) [] := by decide
theorem test_decode_setPower : decode [0x07, 0b0001_0010] = .command (.setPower 1 2) [] := by decide
theorem test_decode_setFreqHz : decode [0x08, 0x33, 0xBC, 0xA1, 0x00] = .command (.setFreqHz 868000000) [] := by decide
theorem test_decode_setFreqReg : decode [0x09, 0xD9, 0x00, 0x01] = .command (.setFreqReg 0xD90001) [] := by decide
theorem test_decode_setRxTimeout : decode [0x0A, 0x00, 0x00, 0x13, 0x88] = .command (.setRxTimeout 5000) [] := by decide
theorem test_decode_setHdrCrc : decode [0x0B, 0b000001_1_0] = .command (.setHdrCrc 1 true false) [] := by decide
theorem test_decode_setMode : decode [0x0C, 0x05] = .command (.setMode 5) [] := by decide
theorem test_decode_tx : decode [0x10, 0x02, 0xA5, 0x5A, 0x20] = .command (.tx [0xA5, 0x5A]) [0x20] := by decide
theorem test_decode_armRx : decode [0x11] = .command .armRx [] := by decide
theorem test_decode_getStats : decode [0x20] = .command .getStats [] := by decide
theorem test_decode_getFei : decode [0x21] = .command .getFei [] := by decide
theorem test_decode_setPpm : decode [0x22, 0xFF, 0xFF, 0x8A, 0xD0] = .command (.setPpm (BitVec.ofInt 32 (-30000))) [] := by decide
theorem test_decode_tx_empty : decode [0x10, 0x00, 0x01] = .command (.tx []) [0x01] := by decide
theorem test_decode_partial : decode [0x10, 0x02, 0xAA] = .incomplete := by decide
theorem test_decode_illegal : decode [0x0D, 0x01] = .illegalOpcode 0x0D [0x01] := by decide
theorem test_table_word : decodeTableWord 16 0x7203 = some (.setBwCr 7 1 0) := by decide +kernel
theorem test_table_word_tx : decodeTableWord 8 0x10 = some (.tx []) := by decide +kernel
theorem test_asm : asmLine (.config cfg1) = "CONFIG BW500, 6, CR4_5, 915000000hz, 8, 18, 0, 8, 20000" := by decide +kernel
theorem test_pseudo : expandPseudo (.rxSingle 5000) = [.setRxTimeout 5000, .armRx] := by decide

/-! ### Part 3: commands -/

/-- V-BEGIN 2. -/
theorem test_begin_second_try :
    (after (exec .begin { State.reset with chipReads := [0x00, 0x12] })).trace =
      [.read 0x42 0x00, .delay 200, .read 0x42 0x12, .write 0x01 0x80, .write 0x01 0x81, .write 0x22 0x08, .write 0x0E 0x00,
        .write 0x0F 0x00, .field 0x0C 1 0 0b11, .field 0x26 3 2 0b01, .write 0x36 0x03, .write 0x21 0x08, .write 0x39 0x12,
        .field 0x33 6 6 0b0] := by decide +kernel
/-- V-BEGIN 3, program P5. -/
theorem test_begin_fails :
    let t := after (exec .begin { State.reset with chipReads := [0x00, 0x13, 0xFF] })
    t.trace = [.read 0x42 0x00, .delay 200, .read 0x42 0x13, .delay 200, .read 0x42 0xFF] ∧
      t.responses.map Response.bytes = [[0x03]] ∧ t.detected = false := by decide +kernel
/-- V-CFG 1, program P1 entries 13 to 29. -/
theorem test_config_trace :
    (after (exec (.config cfg1) ready)).trace =
      [.write 0x22 0x08, .write 0x0E 0x00, .write 0x0F 0x00, .field 0x0C 1 0 0b11, .field 0x26 3 2 0b01, .write 0x36 0x03,
        .field 0x33 6 6 0b0, .field 0x1E 7 3 0b01100, .field 0x31 2 0 0b101, .write 0x37 0x0C, .write 0x1D 0x93,
        .field 0x1E 2 2 0b0, .write 0x36 0x02, .write 0x3A 0x64, .burstWrite 0x06 [0xE4, 0xC0, 0x00], .write 0x1F 0x9C,
        .field 0x1E 1 0 0b00] := by decide +kernel
/-- V-CFG 5. -/
theorem test_config_substitutes_sync :
    let t := after (exec (.config { cfg1 with sw := 0x13 }) ready)
    t.events.map Event.bytes = [[0x82, 0x13, 0x15]] ∧ t.curSync = ⟨true, 0x15⟩ ∧ t.timeoutSymbols = 156 := by decide +kernel
/-- V-BWCR 1. -/
theorem test_setBwCr :
    (after (exec (.setBwCr 7 1 0) { ready with curSf := 7, headerExpl := true, crcEn := true })).trace =
      [.write 0x1D 0x72, .field 0x1E 2 2 0b1, .write 0x36 0x03] := by decide +kernel
/-- V-BWCR 5: SF 6 forces the implicit header and the CRC off. -/
theorem test_setBwCr_at_sf6 :
    (after (exec (.setBwCr 8 1 0) { ready with curSf := 6, headerExpl := true, crcEn := true })).trace =
      [.write 0x1D 0x83, .field 0x1E 2 2 0b0, .write 0x36 0x03] := by decide +kernel
/-- V-SF 1. -/
theorem test_setSf_to_6 :
    (after (exec (.setSf 6) { ready with curSf := 7 })).trace =
      [.field 0x1E 7 3 0b01100, .field 0x31 2 0 0b101, .write 0x37 0x0C] := by decide +kernel
/-- V-SF 3. -/
theorem test_setSf_elided : (after (exec (.setSf 12) { ready with curSf := 12 })).trace = [] := by decide +kernel
/-- V-SYNC 1. -/
theorem test_setSync :
    let t := after (exec (.setSync 0x13) ready)
    t.events.map Event.bytes = [[0x82, 0x13, 0x15]] ∧ t.trace = [.write 0x39 0x15] := by decide +kernel
/-- V-SYNC 2: the log is emitted although the write is elided. -/
theorem test_setSync_elided :
    let t := after (exec (.setSync 0x13) { ready with curSync := ⟨true, 0x15⟩ })
    t.events.map Event.bytes = [[0x82, 0x13, 0x15]] ∧ t.trace = [] := by decide +kernel
/-- V-SYNC's table. -/
theorem test_sync_table :
    [0, 1, 18, 19, 131, 144, 200, 248, 255].map (syncSubstitute config.syncAllowed) = [0, 5, 18, 21, 138, 161, 201, 255, 255] := by
  decide +kernel
/-- V-PRE. -/
theorem test_setPreamble : (after (exec (.setPreamble 12) ready)).trace = [.write 0x21 0x0C] := by decide +kernel
/-- V-PWR 2: a repeated level changes nothing. -/
theorem test_setPower_elided :
    let t := after (exec (.setPower 0 15) { ready with curPwr := ⟨true, 15⟩, curMode := .sleep })
    t.trace = [] ∧ t.curMode = .sleep := by decide +kernel
/-- V-PWR 1 and 4: the register byte on each of the two paths. -/
theorem test_power_byte :
    paConfigByte { config with paBoost := true } 15 = 0xFF ∧ paConfigByte { config with paBoost := false } 15 = 0x7F := by decide
/-- V-FREQ's table. -/
theorem test_freq_table :
    [915000000, 868000000, 433920000, 1023999999, 100000000, 60].map (freqToReg config) =
      [0xE4C000, 0xD90000, 0x6C7AE1, 0xFFFFFF, 0x190000, 0x000000] := by decide +kernel
/-- R151: FRF = 0xFFFFFF. -/
theorem test_setFreqReg_max :
    let t := after (exec (.setFreqReg 0xFFFFFF) { ready with curMode := .sleep })
    t.freqHz = 1023999938 ∧ t.trace = [.write 0x01 0x81, .burstWrite 0x06 [0xFF, 0xFF, 0xFF]] := by decide +kernel
/-- R150's example. -/
theorem test_setFreqHz : (after (exec (.setFreqHz 915000000) ready)).freqReg = 0xE4C000 := by decide +kernel
/-- R147's example. -/
theorem test_setRxTimeout :
    let t := after (exec (.setRxTimeout 5000) { ready with curSf := 7, curBw := 9 })
    t.trace = [.write 0x1F 0x13, .field 0x1E 1 0 0b00] ∧ t.timeoutSymbols = 19 := by decide +kernel
/-- R147: a very large interval, and one shorter than a symbol. -/
theorem test_setRxTimeout_clamps :
    symbolCount config 12 0 1 = 1 ∧ symbolCount config 6 9 0xFFFFFFFF = 1023 := by decide +kernel
/-- R145's example. -/
theorem test_setHdrCrc :
    let t := after (exec (.setHdrCrc 0 true true) ready)
    t.headerExpl = true ∧ t.crcEn = true ∧ t.trace = [] := by decide +kernel
/-- V-MODE 4. -/
theorem test_setMode_aborts :
    let t := after (exec (.setMode 1) { ready with curMode := .transmit })
    t.trace = [.write 0x01 0x81] ∧ t.faultAbort = true ∧ t.curMode = .standby := by decide +kernel
/-- V-MODE 5. -/
theorem test_setMode_elided :
    let t := after (exec (.setMode 3) { ready with curMode := .transmit })
    t.trace = [] ∧ t.faultAbort = false := by decide +kernel
/-- V-TX 2: from RECEIVE-CONTINUOUS, without a mark. -/
theorem test_tx_from_receive :
    let t := after (exec (.tx [0x01]) { ready with curMode := .rxContinuous })
    t.trace = [.write 0x01 0x81, .txEnable, .write 0x0D 0x00, .fifoWrite [0x01], .write 0x01 0x83] ∧ t.faultAbort = false := by
  decide +kernel
/-- V-RX 1. -/
theorem test_armRx_single :
    let t := after (exec .armRx { ready with timeoutSymbols := 156 })
    t.trace = [.rxEnable, .write 0x0D 0x00, .write 0x01 0x86] ∧ t.curMode = .rxSingle := by decide +kernel
/-- V-RX 3. -/
theorem test_armRx_continuous :
    (after (exec .armRx { ready with curMode := .rxContinuous })).trace =
      [.write 0x01 0x81, .rxEnable, .write 0x0D 0x00, .write 0x01 0x85] := by decide +kernel
/-- V-STATS 2. -/
theorem test_getStats :
    (after (exec .getStats { ready with chipReads := [0xF4, 100] })).responses.map Response.bytes = [[0x00, 0xFF, 0xBB, 0xF4]] := by
  decide +kernel
/-- V-STATS 3: the lowest RSSI, and the negative SNR's correction. -/
theorem test_getStats_lowest : rssiOf config 0x80 0 = -285 ∧ rssiOf config 0x7F 255 = 98 ∧ rssiOf config 0 0 = -157 := by decide
/-- V-FEI 4: a negative error at the narrowest bandwidth. -/
theorem test_getFei :
    (after (exec .getFei { ready with curBw := 0, chipReads := [0x08, 0x00, 0x00] })).responses.map Response.bytes =
      [[0x00, 0xFF, 0xBF, 0xE0, 0x00]] := by decide +kernel
/-- V-FEI 7, 8 and 10: the floor shifts, and the ignored nibble. -/
theorem test_fei_floor :
    feiHz config 9 (feiDecode 0x0F 0xFF 0xFF) = -1 ∧ feiHz config 9 (feiDecode 0x0F 0xFF 0xF8) = -1 ∧
      feiHz config 9 (feiDecode 0xF0 0x01 0x00) = 32 := by decide
/-- R199's example. -/
theorem test_setPpm :
    let t := after (exec (.setPpm (BitVec.ofInt 32 (-30000))) { ready with freqHz := 915000000 })
    t.trace = [.write 0x27 0xE1] ∧ t.responses.map Response.bytes = [[0x00, 0xE1]] := by decide +kernel
/-- V-PPM: truncation toward zero, and saturation. -/
theorem test_ppm_table :
    ppmFromHz config (-1) 915000000 = 0 ∧ ppmFromHz config 9631 915000000 = 9 ∧ ppmFromHz config 9632 915000000 = 10 ∧
      ppmFromHz config 200000 100000000 = 127 ∧ ppmFromHz config (-200000) 100000000 = -128 := by decide
/-- V-DEC 3: a run of illegal bytes, one at a step. -/
theorem test_illegal_opcode :
    let t := after (step { State.reset with cmdStream := [0xFF, 0xFF] })
    t.responses.map Response.bytes = [[0x01]] ∧ t.cmdStream = [0xFF] := by decide +kernel
/-- V-DEC 4: the operand check comes before the readiness check. -/
theorem test_check_order : (after (exec (.setSf 13) State.reset)).status = .illegalOperand := by decide +kernel
/-- V-DEC 24. -/
theorem test_freq_zero : (after (exec (.setPpm 5000) ready)).responses.map Response.bytes = [[0x05]] := by decide +kernel
/-- The host's question: the word placed by `withFetchWord` runs as the first instruction after reset. -/
theorem test_fetch_word :
    (after (step (State.reset.withFetchWord 16 0x7203))).responses = [⟨.notReady, []⟩] := by decide +kernel

/-! ### Part 4: the dispatch (V-IRQ) -/

/-- V-IRQ 3: both flags in TRANSMIT. -/
theorem test_irq_both_flags :
    let t := after (step { ready with curMode := .transmit, irqPending := true, chipReads := [0x48] })
    t.trace = [.read 0x12 0x48, .write 0x12 0xFF, .pathsDisable] ∧ t.events.map Event.bytes = [[0x80]] ∧ t.curMode = .standby := by
  decide +kernel
/-- V-IRQ 5. -/
theorem test_irq_receive :
    let t := after (step { ready with
      curMode := .rxSingle, timeoutSymbols := 156, payloadLen := 4, irqPending := true, chipReads := [0x40, 1, 2, 3, 4] })
    t.events.map Event.bytes = [[0x81, 0x00, 0x04, 1, 2, 3, 4]] ∧ t.curMode = .standby ∧ t.rxBuf.read 3 = some 4 ∧
      t.rxBuf.read 4 = none := by decide +kernel
/-- V-IRQ 8: dropped while DETECTED = 0. -/
theorem test_irq_dropped :
    let t := after (step { State.reset with irqLine := [true] })
    t.irqPending = false ∧ t.trace = [] := by decide +kernel
/-- R40: an unwritten byte has no value. -/
theorem test_rxBuf_unwritten : State.readRxBuf State.reset 5 = .fault (.rxBufUnwritten 5) := by rfl
/-- R66: the example of a field write's effect. -/
theorem test_chipImage : chipImage [.write 0x1E 0xFF, .field 0x1E 7 3 0b01100] 0x1E = ⟨0xFF, 0x67⟩ := by decide

/-! ### Other parameter tables (00_scope.md R7) -/

theorem test_config_admissible : AdmissibleConfig config :=
  ⟨by decide, by decide, by decide, by decide, by decide, by decide, by decide, by decide, by decide, by decide, by decide⟩

/-- 40_config.md R151's corner case, and a table whose frequency leaves 32 bits: FREQ_REG and the burst are as the rule says, and only
FREQ_HZ is free (log 29). -/
theorem test_freqReg_largest :
    (after (exec (.setFreqReg 0xFFFFFF) ready)).freqHz = 1023999938 ∧
    let t := after (execWith { config with fxosc := 4294967295 } (.setFreqReg 0xFFFFFF) ready)
    t.freqReg = 0xFFFFFF ∧ t.trace = [.burstWrite 0x06 [0xFF, 0xFF, 0xFF]] ∧ t.status = .ok := by decide

/-- 93_implementation_defined.md G7: a build for the bands below 525 MHz sets P_HBW2_500 = 0x7F. -/
theorem test_low_band_errata :
    (after (execWith { config with hbw2At500 := 0x7F } (.setBwCr 9 1 0) { ready with curSf := 7 })).trace =
      [.write 0x1D 0x93, .field 0x1E 2 2 0, .write 0x36 0x02, .write 0x3A 0x7F] := by decide

/-- 40_config.md R144's example, a build with P_PA_BOOST = true, and its other path. -/
theorem test_power_paths :
    (after (execWith { config with paBoost := true } (.setPower 0 15) ready)).trace = [.write 0x09 0xFF] ∧
    (after (execWith { config with paBoost := false } (.setPower 0 15) ready)).trace = [.write 0x09 0x7F] := by decide

/-- A step with another default payload length, from its own reset: BEGIN writes it (92_eei_decisions.md D7). -/
theorem test_payload_default :
    (after ((coreWith { config with payloadDefault := 16 }).step
      { State.resetWith { config with payloadDefault := 16 } with cmdStream := [0x01], chipReads := [0x12] })).trace.take 4 =
      [.read 0x42 0x12, .write 0x01 0x80, .write 0x01 0x81, .write 0x22 16] := by decide

/-! ### Part 5: witnesses -/

theorem ready_undisturbed : ready.Undisturbed := ⟨rfl, rfl, rfl, rfl⟩

theorem reset_undisturbed : State.reset.Undisturbed := ⟨rfl, rfl, rfl, rfl⟩

theorem witness_DecodeOfEncode : (Instr.tx (List.replicate 255 0)).encodable = true ∧ (Instr.begin).encodable = true := by
  decide +kernel
theorem witness_DecodedBytesAreTheEncoding : decode [0x10, 0x01, 0x02, 0x20] = .command (.tx [0x02]) [0x20] := by decide
theorem witness_PartialCommandIsIncomplete :
    (Instr.setSf 6).encodable = true ∧ encode (.setSf 6) = [0x04] ++ [0x06] ∧ ([0x06] : List Byte) ≠ [] := by decide
theorem witness_StepRunsTheDecodedCommand :
    let s := { ready with cmdStream := [0x20, 0x21], irqLine := [false] }
    s.atRest = true ∧ s.sampleIrq.irqPending = false ∧ decode s.cmdStream = .command .getStats [0x21] := by decide
theorem witness_IllegalOpcode :
    [0x00, 0x0D, 0x0F, 0x12, 0x1F, 0x23, 0xFF].all (fun op => decide (decode [op] = .illegalOpcode op [])) = true ∧
    [0x01, 0x0C, 0x10, 0x11, 0x20, 0x22].all (fun op => decide (decode [op] ≠ .illegalOpcode op [])) = true ∧
    let s := { State.reset with cmdStream := [0x00] }
    s.atRest = true ∧ s.sampleIrq.irqPending = false ∧ s.cmdStream = [0x00] := by decide
theorem witness_PendingInterruptGoesFirst :
    let s := { ready with irqLine := [true] }
    s.atRest = true ∧ s.sampleIrq.irqPending = true := by decide
theorem witness_PartialStreamWaits :
    let s := { ready with cmdStream := [0x10, 0x02, 0xAA] }
    s.atRest = true ∧ s.sampleIrq.irqPending = false ∧ decode s.cmdStream = .incomplete := by decide
theorem witness_CheckOrder :
    operandsLegal config (.setSf 13) = false ∧ (operandsLegal config (.setSf 12) = true ∧ State.reset.detected = false) ∧
      (ready.detected = true ∧ ready.freqHz = 0 ∧ ready.curBw = 0xF ∧ ready.curSf = 0) ∧ (1 : BitVec 32) ≠ 0 := by decide
theorem witness_BeginDetects :
    (State.nextBytes 1 { State.reset with chipReads := [0x12] } = [] ++ [0x12]) ∧
    (([0x00, 0x13] : List Byte).length < 3 ∧ 0x12 ∉ ([0x00, 0x13] : List Byte) ∧
      State.nextBytes 3 { State.reset with chipReads := [0x00, 0x13, 0x12] } = [0x00, 0x13] ++ [0x12]) := by decide
theorem witness_BeginFails :
    State.nextBytes 3 { State.reset with chipReads := [0x00, 0x13, 0xFF] } = [0x00, 0x13, 0xFF] ∧ (0x00 : Byte) ≠ 0x12 ∧
      (0x13 : Byte) ≠ 0x12 ∧ (0xFF : Byte) ≠ 0x12 := by decide
/-- The premises on FREQ, the sync word and the count fix `req`, `w`, `frf`, `hz` and `n`. -/
theorem witness_ConfigResult :
    ready.Undisturbed ∧ ready.detected = true ∧ operandsLegal config (.config cfg1) = true ∧
      operandsLegal config (.config { cfg1 with swp := false, sw := 0, fu := false, freq := 0xFFFFFF, tout := 0 }) = true :=
  ⟨ready_undisturbed, rfl, by decide, by decide⟩
theorem witness_SetBwCrResult :
    ready.Undisturbed ∧ ready.detected = true ∧ operandsLegal config (.setBwCr 9 4 0) = true ∧
      operandsLegal config (.setBwCr 0 1 0) = true := ⟨ready_undisturbed, rfl, by decide, by decide⟩
theorem witness_SetSfResult :
    ready.Undisturbed ∧ ready.detected = true ∧ 6 ≤ (6 : Byte).toNat ∧ (12 : Byte).toNat ≤ 12 :=
  ⟨ready_undisturbed, rfl, by decide, by decide⟩
theorem witness_SetSyncResult :
    ready.Undisturbed ∧ ready.detected = true ∧ (0xFF : Byte) ∈ config.syncAllowed ∧ (0xF8 : Byte).toNat ≤ (0xFF : Byte).toNat ∧
      (∀ v ∈ config.syncAllowed, (0xF8 : Byte).toNat ≤ v.toNat → (0xFF : Byte).toNat ≤ v.toNat) :=
  ⟨ready_undisturbed, rfl, by decide, by decide, by decide +kernel⟩
theorem witness_SetPowerResult :
    ready.Undisturbed ∧ ready.detected = true ∧ ready.curPwr ≠ ⟨true, 15⟩ ∧
      ({ ready with curPwr := ⟨true, 15⟩ } : State).curPwr = ⟨true, 15⟩ := ⟨ready_undisturbed, rfl, by decide, rfl⟩
theorem witness_SetFreqHzResult :
    ready.Undisturbed ∧ ready.detected = true ∧ (1023999999 : BitVec 32).toNat ≤ 1023999999 ∧
      (0xFFFFFF : BitVec 24) = BitVec.ofNat 24 ((1023999999 : BitVec 32).toNat * 2 ^ 19 / 32000000) :=
  ⟨ready_undisturbed, rfl, by decide, by decide⟩
theorem witness_SetRxTimeoutResult :
    let s := { ready with curSf := 7, curBw := 9 }
    s.Undisturbed ∧ s.detected = true ∧ s.curSf ≠ 0 ∧ s.curBw ≠ 0xF ∧ (19 : BitVec 10) = timeoutCount s.curSf s.curBw 5000 ∧
      (0 : BitVec 10) = timeoutCount ready.curSf ready.curBw 0 :=
  ⟨⟨rfl, rfl, rfl, rfl⟩, rfl, by decide, by decide, by decide +kernel, by decide⟩
theorem witness_SetModeResult :
    ready.Undisturbed ∧ ready.detected = true ∧ Mode.sleep ≠ .unknown ∧ (0 : Byte) = Mode.sleep.code.zeroExtend 8 ∧
      Mode.rxSingle ≠ .unknown ∧ (6 : Byte) = Mode.rxSingle.code.zeroExtend 8 :=
  ⟨ready_undisturbed, rfl, by decide, by decide, by decide, by decide⟩
theorem witness_TxResult :
    ready.Undisturbed ∧ ready.detected = true ∧ 1 ≤ ([0xA5] : List Byte).length ∧ (List.replicate 255 (0 : Byte)).length ≤ 255 :=
  ⟨ready_undisturbed, rfl, by decide, by decide +kernel⟩
/-- The premises of the statements about SET_PREAMBLE, SET_FREQ_REG, SET_HDR_CRC and ARM_RX. -/
theorem witness_quiet_and_detected : ready.Undisturbed ∧ ready.detected = true := ⟨ready_undisturbed, rfl⟩
theorem witness_GetStatsResult :
    let s := { ready with chipReads := [0x80, 0x00] }
    s.Undisturbed ∧ s.detected = true ∧ s.nextBytes 2 = [0x80, 0x00] ∧
      (-285 : Int) = -157 + (0x00 : Byte).toNat + (if (0x80 : Byte).toInt < 0 then (0x80 : Byte).toInt else 0) :=
  ⟨⟨rfl, rfl, rfl, rfl⟩, rfl, by decide, by decide⟩
theorem witness_GetFeiResult :
    let s := { ready with chipReads := [0x08, 0x00, 0x00], curBw := 9 }
    s.Undisturbed ∧ s.detected = true ∧ s.curBw ≠ 0xF ∧ s.nextBytes 3 = [0x08, 0x00, 0x00] ∧
      (-524288 : Int) = (((0x08 : Byte).toNat % 16 * 2 ^ 16 : Nat) : Int) - 2 ^ 20 ∧
      (-65536 : Int) = Int.fdiv (Int.fdiv (-524288) 8 * config.feiNorm.getD s.curBw.toNat 0) 16 :=
  ⟨⟨rfl, rfl, rfl, rfl⟩, rfl, by decide, by decide, by decide, by decide⟩
theorem witness_SetPpmResult :
    let s := { ready with freqHz := 915000000 }
    s.Undisturbed ∧ s.detected = true ∧ s.freqHz ≠ 0 ∧
      (-31 : Int) = min 127 (max (-128) (Int.tdiv ((BitVec.ofInt 32 (-30000)).toInt * 1000000 * 95) (s.freqHz.toNat * 100))) :=
  ⟨⟨rfl, rfl, rfl, rfl⟩, rfl, by decide, by decide⟩
theorem witness_DispatchEntry :
    let s := { ready with irqLine := [true], seq := .busy .armRx 1 [.rxEnable] }
    s.dispatch = none ∧ s.sampleIrq.irqPending = true := by decide
theorem witness_AssertionLatchedOrDropped :
    (({ ready with irqLine := [true], dispatch := some .leave } : State).inDispatch = true) ∧
      (({ State.reset with irqLine := [true] } : State).inDispatch = false) := by decide
theorem witness_DispatchIsNotReentrant : ({ ready with dispatch := some .leave } : State).dispatch = some .leave := rfl
theorem witness_DispatchReturns :
    let s := { ready with irqPending := true, curMode := .rxContinuous, chipReads := [0x40] }
    s.dispatch = none ∧ s.sampleIrq.irqPending = true := by decide
theorem witness_TxCompletion :
    let s := { ready with irqPending := true, curMode := .transmit, chipReads := [0x08] }
    s.seq = .idle ∧ s.dispatch = none ∧ s.irqPending = true ∧ s.irqLine = [] ∧ s.curMode = .transmit ∧
      s.nextByte.getLsbD 3 = true := by decide
theorem witness_RxCompletion :
    let s := { ready with irqPending := true, curMode := .rxSingle, chipReads := [0x40, 1, 2], payloadLen := 2 }
    s.seq = .idle ∧ s.dispatch = none ∧ s.irqPending = true ∧ s.irqLine = [] ∧ s.curMode = .rxSingle ∧
      s.nextByte.getLsbD 6 = true ∧ s.drawOne.nextBytes s.payloadLen.toNat = [1, 2] := by decide
theorem witness_IgnoredFlags :
    let s := { ready with irqPending := true, chipReads := [0xFF] }
    s.seq = .idle ∧ s.dispatch = none ∧ s.irqPending = true ∧ s.irqLine = [] ∧ s.curMode ≠ .transmit ∧
      s.curMode ≠ .rxSingle ∧ s.curMode ≠ .rxContinuous := by decide
theorem witness_LostCompletion :
    let s := { ready with irqLine := List.replicate 6 false ++ [true], chipReads := [0x08] }
    s.seq = .idle ∧ s.dispatch = none ∧ s.irqPending = false ∧ s.detected = true ∧ s.curMode = .standby ∧
      s.nextByte.getLsbD 3 = true ∧ 1 ≤ ([0xA5] : List Byte).length ∧ ([0xA5] : List Byte).length ≤ 255 := by decide
theorem witness_EveryCommandCompletes : ({ ready with irqLine := [true, true] } : State).atRest = true := by decide
/-- The premise `exec i s = .next t` of the statements about every command. -/
theorem witness_exec_next : exec (.setSf 6) State.reset = .next (State.reset.reject .notReady) := by rfl
/-- The premise `step s = .next t` of the statements about every step. -/
theorem witness_step_next : step State.reset = .next State.reset := by rfl
theorem witness_FaultAbortIsSticky :
    step { State.reset with faultAbort := true } = .next { State.reset with faultAbort := true } := by rfl
theorem witness_ModeWriters : mnemonic (.setSf 6) ∈ ["SET_SF"] ∧ State.reset.Calm := ⟨by decide, rfl, rfl, rfl⟩
theorem witness_ObedientHostAbortsNothing :
    let s := { ready with curMode := .transmit }
    s.atRest = true ∧ hostWaits (.setMode 3) s = true ∧ hostWaits .getStats s = true ∧ hostWaits (.setSf 13) s = true ∧
      exec (.setMode 3) s = .next { s with responses := [⟨.ok, []⟩] } ∧
      exec (.setSf 13) s = .next (s.reject .illegalOperand) := ⟨by decide, by decide, by decide, by decide, by rfl, by rfl⟩
theorem witness_TransmitAborted :
    let s := { ready with curMode := .transmit }
    s.Undisturbed ∧ s.detected = true ∧ operandsLegal config .armRx = true ∧ s.curMode = .transmit ∧
      mnemonic .armRx ∈ ["CONFIG", "SET_FREQ_HZ", "SET_FREQ_REG", "TX", "ARM_RX"] ∧ s.curPwr ≠ ⟨true, 0⟩ ∧
      operandsLegal config (.setPower 0 0) = true ∧ operandsLegal config (.setMode 0) = true :=
  ⟨⟨rfl, rfl, rfl, rfl⟩, rfl, rfl, rfl, by decide, by decide, rfl, rfl⟩
theorem witness_WriteCountLaw :
    ready.Undisturbed ∧ ready.detected = true ∧ Mode.unknown ∉ [Mode.standby, .standby, .transmit, .transmit, .standby] ∧
      modeChanges .sleep [.standby, .standby, .transmit, .transmit, .standby] = 3 :=
  ⟨ready_undisturbed, rfl, by decide, by decide⟩
theorem witness_ConfigTwice :
    ready.Undisturbed ∧ ready.detected = true ∧ operandsLegal config (.config cfg1) = true ∧
      operandsLegal config (.config { cfg1 with sf := 7 }) = true := ⟨ready_undisturbed, rfl, by decide, by decide⟩
theorem witness_SfChangeKeepsHeaderMode :
    ready.Undisturbed ∧ exec (.setSf 13) ready = .next (ready.reject .illegalOperand) := ⟨ready_undisturbed, by rfl⟩
theorem witness_FrequencyRoundTrip : operandsLegal config (.setFreqHz 1023999999) = true := by decide
/-- 3479 Hz goes to 56 register units, and 56 units are 3417 Hz: 62 Hz less (log 27). -/
theorem test_round_trip_3479 :
    operandsLegal config (.setFreqHz 3479) = true ∧ freqToReg config 3479 = 56 ∧ regToHz config 56 = 3417 := by decide
theorem witness_FieldWriteImage :
    ((0 : Nat) ≤ 7 ∧ (7 : Nat) ≤ 7 ∧ (2 : Nat) ≤ 2) ∧
    (([0xE4, 0xC0, 0x00] : List Byte)[2]? = some 0x00 ∧ (0x08 : RegAddr).toNat = (0x06 : RegAddr).toNat + 2) ∧
    ((0x05 : RegAddr).toNat < (0x06 : RegAddr).toNat ∧ (0x06 : RegAddr).toNat + 3 ≤ (0x09 : RegAddr).toNat) ∧
    (PortOp.read 0x12 0x40).writes 0x12 = false ∧ (PortOp.burstWrite 0x06 [0xE4, 0xC0, 0x00]).writes 0x09 = false := by decide
theorem witness_SmallestPermittedSyncWord : ([0x34] : List Byte) ≠ [] := by decide
theorem witness_PpmTruncates :
    (0 : Int) ≤ 9632 ∧ (9632 : Int) * 95000000 < 128 * ((915000000 : Nat) * 100) ∧ (-30000 : Int) ≤ 0 ∧
      (-129 : Int) * ((915000000 : Nat) * 100) < -30000 * 95000000 := by decide
/-- The invariants hold in a state with a command in progress. -/
theorem witness_invariants :
    let s := { ready with seq := .busy (.setSf 6) 0 [.call (.setSf 6), .respond .ok []], rxBuf := [(0, 1), (255, 2)] }
    s.CachesLegal ∧ s.BufferLegal ∧ s.TrafficLegal ∧ s.SilentUndetected ∧ s.ModeKnown := by
  have hl : (Seq.busy (.setSf 6) 0 [.call (.setSf 6), .respond .ok []]).Legal config := by
    intro t ht
    simp only [List.mem_cons, List.not_mem_nil, or_false] at ht
    rcases ht with rfl | rfl
    · show sfLegal _ = true; decide
    · trivial
  refine ⟨⟨.inr rfl, .inr rfl, .inr rfl, fun _ => by decide, by decide, hl⟩,
    ⟨by decide, by decide, (by intro ph h; cases h), (by intro e h; cases h), hl⟩, ⟨(by intro t h; cases h), hl⟩,
    fun h => (by cases h), ⟨fun _ h => (by cases h), rfl, .inr rfl, hl⟩⟩

end Sys2Proof.Tests
end

