-- ==== Sys2Proof/Proofs/Boundary.lean ====
section
/-! SUPPORT. A step at a command boundary (30_encoding.md R91, 60_exceptions.md R222): with no interrupt to take, it is the command at
the head of the stream. -/

namespace Sys2Proof.Machine

/-- Whatever gives the commands their meaning, a boundary step with no interrupt to take runs the decoded command. -/
theorem boundaryStep_of_command {c : Config} {run : Instr → State → Result} {s : State} {i : Instr} {rest : List Byte}
    (hrest : s.atRest = true) (hirq : s.sampleIrq.irqPending = false) (hdec : decode s.cmdStream = .command i rest) :
    boundaryStep c run s = run i { s.sampleIrq with cmdStream := rest } := by
  simp [boundaryStep, hrest, hirq, hdec]

/-- Settles O6: both machines are `boundaryStep` with their own meaning of the commands, and `exec` is `execWith` at the default table. -/
theorem stepRunsTheDecodedCommand : Obligations.StepRunsTheDecodedCommand :=
  ⟨fun _ _ _ hrest hirq hdec =>
      ⟨boundaryStep_of_command hrest hirq hdec, fun _ => boundaryStep_of_command hrest hirq hdec⟩,
    fun s i => exec_eq_execWith i s, step_eq_stepWith⟩

end Sys2Proof.Machine
end

