-- ==== Sys2Proof/Proofs/Traffic.lean ====
section
/-! SUPPORT. What each action appends to the port trace (20_memory.md R61), said once for the foreground and once for the dispatch, and
that it is legal traffic: REG_OP_MODE is written by SetMode only, with the byte of a real mode (00_scope.md R13, R75). -/

namespace Sys2Proof.Machine

variable {c : Config} {s : State}

/-- The transactions a foreground action makes. -/
def Task.traffic (c : Config) (s : State) : Task → List PortOp
  | .portWrite a v => [.write a v]
  | .fieldWrite a p f => [.field a p.msb p.lsb f]
  | .burstWrite a bytes => [.burstWrite a bytes]
  | .fifoWrite bytes => [.fifoWrite bytes]
  | .txEnable => [.txEnable]
  | .rxEnable => [.rxEnable]
  | .delay ms => [.delay ms]
  | .probe _ => [.read c.regs.version s.nextByte]
  | .readStats => [.burstRead c.regs.pktSnrValue 2 (s.nextBytes 2)]
  | .readFei => [.burstRead c.regs.feiMsb 3 (s.nextBytes 3)]
  | .modeWrite m => [.write c.regs.opMode (opModeByte c m)]
  | .regWrite _ | .modeCheck _ | .modeCache _ | .emit _ | .respond _ _ | .call _ => []

/-- The transactions a micro-operation of the dispatch makes (60_exceptions.md R224, R229, R230). -/
def Phase.traffic (c : Config) (s : State) : Phase → List PortOp
  | .readFlags => [.read c.regs.irqFlags s.nextByte]
  | .clearFlags _ => [.write c.regs.irqFlags 0xFF]
  | .txDisable _ => [.pathsDisable]
  | .rxRead => [.fifoRead s.payloadLen.toNat (s.nextBytes s.payloadLen.toNat)]
  | .txStandby _ | .txEmit _ | .rxStore _ _ | .rxStandby _ _ | .rxEmit _ _ | .leave => []

theorem foreground_trace (cmd : Instr) (k : Nat) (t : Task) (rest : List Task) :
    (foreground c cmd k t rest s).trace = s.trace ++ t.traffic c s := by
  cases t with
  | modeCheck m => simp only [foreground]; split <;> simp [Task.traffic]
  | _ => simp [foreground, Task.traffic]

theorem dispatchStep_trace (ph : Phase) : (dispatchStep c ph s).trace = s.trace ++ ph.traffic c s := by
  cases ph <;> simp [dispatchStep, Phase.traffic]

/-- A legal task makes legal transactions only. -/
theorem task_traffic_legal {t : Task} (h : t.Legal c) : ∀ op ∈ t.traffic c s, op.Legal c := by
  cases t with
  | portWrite a v =>
    have hne : a ≠ c.regs.opMode := h
    simp [Task.traffic, PortOp.Legal, hne]
  | fieldWrite a p f =>
    have hne : a ≠ c.regs.opMode := h
    simpa [Task.traffic, PortOp.Legal] using hne
  | burstWrite a bytes =>
    have hspan : c.regs.opMode.toNat < a.toNat ∧ a.toNat + bytes.length ≤ 128 := h
    simpa [Task.traffic, PortOp.Legal] using hspan
  | modeWrite m =>
    have hm : m ≠ .unknown := h
    simpa [Task.traffic, PortOp.Legal] using ⟨m, hm, rfl⟩
  | _ => simp [Task.traffic, PortOp.Legal]

/-- The dispatch writes no register but the interrupt flags, so never REG_OP_MODE. -/
theorem phase_traffic_legal (hflags : c.regs.irqFlags ≠ c.regs.opMode) (ph : Phase) :
    ∀ op ∈ ph.traffic c s, op.Legal c := by
  cases ph <;> simp [Phase.traffic, PortOp.Legal, hflags]

/-- Legal transactions appended to a legal trace. -/
theorem trace_legal_append {s' : State} {ops : List PortOp} (ht : ∀ t ∈ s.trace, t.Legal c) (he : s'.trace = s.trace ++ ops)
    (hops : ∀ op ∈ ops, op.Legal c) : ∀ t ∈ s'.trace, t.Legal c := by
  rw [he]; exact List.forall_mem_append.mpr ⟨ht, hops⟩

/-- Every micro-operation of either context keeps the trace legal, when the tasks to do are. -/
theorem micro_trace_legal (h : s.TrafficLegal) : ∀ t ∈ (micro config s).trace, t.Legal config := by
  obtain ⟨htrace, htodo⟩ := h
  have hsampled : ∀ t ∈ s.sampleIrq.trace, t.Legal config := by simpa using htrace
  rcases micro_cases config s with
    ⟨ph, -, he⟩ | ⟨-, -, he⟩ | ⟨-, -, -, he⟩ | ⟨cmd, k, -, -, -, he⟩ | ⟨cmd, k, t, rest, -, -, hs, he⟩
  · rw [he]
    exact trace_legal_append hsampled (dispatchStep_trace ph) (phase_traffic_legal (by decide) ph)
  · rw [he]; exact hsampled
  · rw [he]; exact hsampled
  · rw [he]; exact hsampled
  · rw [hs] at htodo
    have ht : t.Legal config := htodo t List.mem_cons_self
    rw [he]
    exact trace_legal_append hsampled (foreground_trace cmd k t rest) (task_traffic_legal ht)

theorem micro_trafficLegal (h : s.TrafficLegal) : (micro config s).TrafficLegal :=
  ⟨micro_trace_legal h, micro_seq_legal s h.todo⟩

/-- Settles O57: legal operands start legal tasks, and every micro-operation of legal tasks makes legal traffic and leaves legal tasks. -/
theorem trafficStaysLegal : Obligations.TrafficStaysLegal := by
  intro s t hs hstep
  refine step_keeps State.TrafficLegal s t hs ?sample ?entry ?stream ?reject ?start (fun _ => micro_trafficLegal) hstep
  case sample => exact fun u ⟨htrace, htodo⟩ => ⟨by simpa using htrace, by simpa using htodo⟩
  case entry => exact fun u _ _ ⟨htrace, htodo⟩ => ⟨htrace, htodo⟩
  case stream => exact fun u _ ⟨htrace, htodo⟩ => ⟨htrace, htodo⟩
  case reject => exact fun u _ ⟨htrace, htodo⟩ => ⟨htrace, htodo⟩
  case start => exact fun i u _ ⟨htrace, _⟩ hlegal _ _ => ⟨htrace, commandTasks_legal i u hlegal⟩

end Sys2Proof.Machine
end

