-- ==== Sys2Proof/Proofs/Completion.lean ====
section
/-! SUPPORT. Every command ends with exactly one response (30_encoding.md R114, 70_reset_and_hazards.md R264). The run reaches a command
boundary because its bound is fuel enough; on the way the sequencer holds tasks that end the command once, with a response of Table 6's
length, and no response has been given yet. -/

namespace Sys2Proof.Machine

variable {c : Config} {i : Instr} {s : State} {rs : List Response}

theorem settle_atRest (n : Nat) : ∀ s : State, s.bound c ≤ n → (settle c n s).atRest = true := by
  induction n with
  | zero =>
    intro s hn
    cases hr : s.atRest with
    | true => rw [settle_atRest_self c 0 s hr, hr]
    | false => have := micro_bound c s hr; omega
  | succ n ih =>
    intro s hn
    cases hr : s.atRest with
    | true => rw [settle_atRest_self c (n + 1) s hr, hr]
    | false =>
      have hb := micro_bound c s hr
      rw [settle, if_neg (by simp [hr])]
      exact ih _ (by omega)

/-- The run to the next command boundary gets there. -/
theorem runToRest_atRest (s : State) : (runToRest c s).atRest = true := settle_atRest _ s le_rfl

/-- The tasks a foreground action puts before those already waiting. -/
def Task.followUp (c : Config) (s : State) : Task → List Task
  | .probe n => afterProbeTasks c n s.nextByte
  | .readStats => afterStatsTasks c (s.nextBytes 2)
  | .readFei => afterFeiTasks c (s.nextBytes 3) s
  | .modeCheck m => if m = s.curMode then [] else [.modeWrite m, .modeCache m]
  | .call p => p.tasks c s
  | _ => []

/-- Any action but Respond keeps the command in SEQ, goes on with its follow-up, and answers nothing. -/
theorem foreground_goesOn (cmd : Instr) (k : Nat) (t : Task) (rest : List Task) (h : ∀ st r, t ≠ .respond st r) :
    (∃ k', (foreground c cmd k t rest s).seq = .busy cmd k' (t.followUp c s ++ rest)) ∧
      (foreground c cmd k t rest s).responses = s.responses := by
  cases t with
  | respond st r => exact absurd rfl (h st r)
  | modeCheck m => simp only [foreground, Task.followUp]; split <;> simp
  | _ => simp [foreground, Task.followUp]

/-- How many result bytes a response to `i` with the status `st` carries (30_encoding.md R114, Table 6). -/
def responseLength (i : Instr) (st : Status) : Nat := if st = .ok then resultLength i else 0

/-- If the task responds to `i`, or leads to the response, it does so with as many result bytes as Table 6 says. -/
def Task.Answers (i : Instr) : Task → Prop
  | .respond st result => result.length = responseLength i st
  | .probe _ => resultLength i = 0
  | .readStats => resultLength i = 3
  | .readFei => resultLength i = 4
  | _ => True

theorem answers_of_notLast {t : Task} (h : t.isLast = false) : t.Answers i := by
  cases t <;> simp_all [Task.isLast, Task.Answers]

theorem commandTasks_answer (c : Config) (i : Instr) (s : State) : ∀ t ∈ commandTasks c i s, t.Answers i := by
  cases i with
  | begin =>
    simp only [commandTasks, beginTasks]
    split <;> simp [notDetectedTasks, Task.Answers, resultLength, responseLength]
  | config o => simp [commandTasks, configTasks, Task.Answers, resultLength, responseLength]
  | setMode mode =>
    simp only [commandTasks, setModeTasks]
    split <;> simp [Task.Answers, resultLength, responseLength]
  | tx data => simp [commandTasks, txTasks, Task.Answers, resultLength, responseLength]
  | armRx => simp [commandTasks, armRxTasks, Task.Answers, resultLength, responseLength]
  | setPpm off => simp [commandTasks, ppmTasks, Task.Answers, resultLength, responseLength]
  | _ => simp [commandTasks, Task.Answers, resultLength, responseLength]

theorem afterProbeTasks_answer (n : Nat) (v : Byte) (h : resultLength i = 0) :
    ∀ t ∈ afterProbeTasks c n v, t.Answers i := by
  unfold afterProbeTasks
  split
  · simp [detectedTasks, Task.Answers, responseLength, h]
  · split <;> simp [notDetectedTasks, Task.Answers, responseLength, h]

/-- A follow-up answers as its task does. -/
theorem followUp_answers (t : Task) (h : t.Answers i) : ∀ u ∈ t.followUp c s, u.Answers i := by
  cases t with
  | probe n => exact afterProbeTasks_answer n _ h
  | readStats =>
    have hlen : resultLength i = 3 := h
    simp [Task.followUp, afterStatsTasks, Task.Answers, responseLength, bytes16, hlen]
  | readFei =>
    have hlen : resultLength i = 4 := h
    simp [Task.followUp, afterFeiTasks, Task.Answers, responseLength, bytes32, hlen]
  | modeCheck m => simp only [Task.followUp]; split <;> simp [Task.Answers]
  | call p => exact fun u hu => answers_of_notLast (proc_tasks_notLast c p s u hu)
  | _ => simp [Task.followUp]

/-- Exactly one response has been given since the responses were `rs`: STATUS holds its status, and its length is Table 6's for `i`. -/
def State.Answered (i : Instr) (rs : List Response) (s : State) : Prop :=
  ∃ r, s.responses = rs ++ [r] ∧ s.status = r.status ∧ r.result.length = responseLength i r.status

/-- Command `i` is in progress and has answered nothing yet, with tasks that answer it once. -/
def State.Answering (i : Instr) (rs : List Response) (s : State) : Prop :=
  ∃ k ts, s.seq = .busy i k ts ∧ endsOnce ts = true ∧ (∀ t ∈ ts, t.Answers i) ∧ s.responses = rs

/-- The invariant of a command's run: the command is in progress, or it has ended with its response. -/
def State.AnswersOnce (i : Instr) (rs : List Response) (s : State) : Prop :=
  s.Answering i rs ∨ s.seq = .idle ∧ s.Answered i rs

/-- The invariant speaks of SEQ, the responses and STATUS only. -/
theorem State.AnswersOnce.of_same {s' : State} (h : s.AnswersOnce i rs) (hseq : s'.seq = s.seq)
    (hresp : s'.responses = s.responses) (hstatus : s'.status = s.status) : s'.AnswersOnce i rs := by
  simpa only [State.AnswersOnce, State.Answering, State.Answered, hseq, hresp, hstatus] using h

/-- A foreground action of a command in progress goes on with it, or gives its one response. -/
theorem foreground_answersOnce {k : Nat} {t : Task} {rest : List Task} (hends : endsOnce (t :: rest) = true)
    (hans : ∀ u ∈ t :: rest, u.Answers i) (hresp : s.responses = rs) : (foreground c i k t rest s).AnswersOnce i rs := by
  obtain ⟨ht, hrest⟩ := List.forall_mem_cons.mp hans
  by_cases hr : ∃ st r, t = .respond st r
  · obtain ⟨st, r, rfl⟩ := hr
    exact .inr ⟨rfl, ⟨st, r⟩, by simp [foreground, hresp], rfl, ht⟩
  · obtain ⟨⟨k', hseq⟩, hsame⟩ := foreground_goesOn (c := c) (s := s) i k t rest fun st r h => hr ⟨st, r, h⟩
    have hends' : endsOnce (t.followUp c s ++ rest) = true := by
      simpa [hseq, Seq.todo] using foreground_endsOnce c i k t rest s hends
    exact .inl ⟨k', _, hseq, hends', List.forall_mem_append.mpr ⟨followUp_answers t ht, hrest⟩, hsame.trans hresp⟩

theorem micro_answersOnce (h : s.AnswersOnce i rs) : (micro c s).AnswersOnce i rs := by
  have hsampled : s.sampleIrq.AnswersOnce i rs := h.of_same (by simp) (by simp) (by simp)
  rcases micro_cases c s with
    ⟨ph, -, he⟩ | ⟨-, -, he⟩ | ⟨-, -, -, he⟩ | ⟨cmd, k, -, -, hs, he⟩ | ⟨cmd, k, t, rest, -, -, hs, he⟩
  · rw [he]; exact hsampled.of_same (by simp) (by simp) (by simp)
  · rw [he]; exact hsampled.of_same rfl rfl rfl
  · rw [he]; exact hsampled
  · obtain ⟨k', ts, hseq, hends, -⟩ | ⟨hidle, -⟩ := h
    · rw [hs] at hseq; cases hseq; cases hends
    · rw [hs] at hidle; cases hidle
  · obtain ⟨k', ts, hseq, hends, hans, hresp⟩ | ⟨hidle, -⟩ := h
    · rw [hs] at hseq; cases hseq
      rw [he]
      exact foreground_answersOnce hends hans (by simpa using hresp)
    · rw [hs] at hidle; cases hidle

/-- At a command boundary the command has answered. -/
theorem State.AnswersOnce.answered (h : s.AnswersOnce i rs) (hr : s.atRest = true) : s.Answered i rs := by
  obtain ⟨k, ts, hseq, -⟩ | ⟨-, ha⟩ := h
  · simp [State.atRest, Seq.isIdle, hseq] at hr
  · exact ha

/-- No state check fails with the status OK. -/
theorem stateCheck_ne_ok {i : Instr} {s : State} {st : Status} (h : stateCheck i s = some st) : st ≠ .ok := by
  rintro rfl
  cases i with
  | setRxTimeout us => change rxTimeoutCheck us s = _ at h; unfold rxTimeoutCheck at h; split at h <;> cases h
  | getFei => change feiCheck s = _ at h; unfold feiCheck at h; split at h <;> cases h
  | setPpm off => change ppmCheck s = _ at h; unfold ppmCheck at h; split at h <;> cases h
  | _ => cases h

/-- A command is rejected with a status other than OK, or its tasks run to the next command boundary (60_exceptions.md R220). -/
theorem execWith_rejects_or_runs (c : Config) (i : Instr) (s : State) :
    (∃ st, st ≠ .ok ∧ execWith c i s = .next (s.reject st)) ∨
      execWith c i s = .next (runToRest c { s with seq := .busy i 0 (commandTasks c i s) }) := by
  rw [execWith_eq]
  unfold command
  split
  · split
    · cases hc : stateCheck i s with
      | some st => exact .inl ⟨st, stateCheck_ne_ok hc, rfl⟩
      | none => exact .inr rfl
    · exact .inl ⟨.notReady, by decide, rfl⟩
  · exact .inl ⟨.illegalOperand, by decide, rfl⟩

theorem reject_answered {st : Status} (h : st ≠ .ok) : (s.reject st).Answered i s.responses :=
  ⟨⟨st, []⟩, rfl, rfl, by simp [responseLength, h]⟩

theorem reject_atRest (st : Status) : (s.reject st).atRest = s.atRest := rfl

/-- The run of a started command answers it. -/
theorem runToRest_answered : (runToRest c { s with seq := .busy i 0 (commandTasks c i s) }).Answered i s.responses := by
  have hstart : State.AnswersOnce i s.responses { s with seq := .busy i 0 (commandTasks c i s) } :=
    .inl ⟨0, _, rfl, commandTasks_endsOnce c i s, commandTasks_answer c i s, rfl⟩
  exact (runToRest_keeps c (State.AnswersOnce i s.responses) (fun _ => micro_answersOnce) _ hstart).answered (runToRest_atRest _)

/-- With any parameters, a command started at a boundary ends at one, with its one response. -/
theorem execWith_completes (c : Config) (i : Instr) (s : State) (hs : s.atRest = true) :
    ∃ t, execWith c i s = .next t ∧ t.atRest = true ∧ t.Answered i s.responses := by
  obtain ⟨st, hst, he⟩ | he := execWith_rejects_or_runs c i s
  · exact ⟨_, he, (reject_atRest st).trans hs, reject_answered hst⟩
  · exact ⟨_, he, runToRest_atRest _, runToRest_answered⟩

/-- Settles O37: the machine is the configured one at the default table, and with any table a command is rejected with one response, or
runs, within the bound, to its one response. -/
theorem everyCommandCompletes : Obligations.EveryCommandCompletes := by
  have hall : ∀ (c : Config) (i : Instr) (s : State), s.atRest = true →
      ∃ t r, execWith c i s = .next t ∧ t.atRest = true ∧ t.responses = s.responses ++ [r] ∧ t.status = r.status ∧
        r.result.length = if r.status = .ok then resultLength i else 0 := by
    intro c i s hs
    obtain ⟨t, he, hrest, r, hresp, hstatus, hlen⟩ := execWith_completes c i s hs
    exact ⟨t, r, he, hrest, hresp, hstatus, hlen⟩
  refine ⟨fun i s hs => ?_, hall⟩
  rw [exec_eq_execWith]
  exact hall config i s hs

end Sys2Proof.Machine
end

