-- ==== Sys2Proof/Proofs/Invariants.lean ====
section
/-! SUPPORT. Invariants of the machine, packaged once: what a property must survive to be kept by every micro-operation, by every command
and by every step; and how the tasks still to do change. -/

namespace Sys2Proof.Machine

variable {c : Config} {P : State → Prop}

/-- `P` survives whatever one micro-step can do (60_exceptions.md R222): the sampling of the line, a step of the dispatch, its entry, and
the foreground's turn with no interrupt pending. -/
structure MicroKeeps (c : Config) (P : State → Prop) : Prop where
  sample : ∀ u, P u → P u.sampleIrq
  dispatch : ∀ u ph, P u → u.dispatch = some ph → P (dispatchStep c ph u)
  entry : ∀ u, P u → u.dispatch = none → u.irqPending = true → P u.enterDispatch
  ends : ∀ u cmd k, P u → u.seq = .busy cmd k [] → P { u with seq := .idle }
  foreground : ∀ u cmd k t rest, P u → u.dispatch = none → u.irqPending = false → u.seq = .busy cmd k (t :: rest) →
    P (foreground c cmd k t rest u)

theorem MicroKeeps.micro (K : MicroKeeps c P) (s : State) (h : P s) : P (micro c s) := by
  have hs := K.sample s h
  rcases micro_cases c s with
    ⟨ph, hd, he⟩ | ⟨hd, hp, he⟩ | ⟨-, -, -, he⟩ | ⟨cmd, k, -, -, hq, he⟩ | ⟨cmd, k, t, rest, hd, hp, hq, he⟩
  · rw [he]; exact K.dispatch _ ph hs (by simpa using hd)
  · rw [he]; exact K.entry _ hs (by simpa using hd) hp
  · rw [he]; exact hs
  · rw [he]; exact K.ends _ cmd k hs (by simpa using hq)
  · rw [he]; exact K.foreground _ cmd k t rest hs (by simpa using hd) hp (by simpa using hq)

theorem dispatch_of_atRest {u : State} (h : u.atRest = true) : u.dispatch = none := by
  simpa [State.atRest, State.inDispatch] using (Bool.and_eq_true_iff.mp h).2

theorem seq_of_atRest {u : State} (h : u.atRest = true) : u.seq = .idle := by
  cases hq : u.seq with
  | idle => rfl
  | busy cmd k ts => simp [State.atRest, Seq.isIdle, hq] at h

/-- A command is rejected, or it keeps what its start has and every micro-operation keeps. -/
theorem MicroKeeps.exec (K : MicroKeeps config P) {i : Instr} {s t : State} (h : exec i s = .next t)
    (start : operandsLegal config i = true → readyFor i s = true → stateCheck i s = none →
      P { s with seq := .busy i 0 (commandTasks config i s) }) : (∃ st, t = s.reject st) ∨ P t := by
  rcases exec_cases i s with ⟨st, he⟩ | ⟨hl, hready, hcheck, he⟩
  · rw [he] at h; cases h; exact .inl ⟨st, rfl⟩
  · rw [he] at h; cases h
    exact .inr (runToRest_keeps config P K.micro _ (start hl hready hcheck))

/-- What every micro-operation keeps, a step keeps, if it also survives what only happens at a command boundary: bytes consumed, a
rejection, and the start of a command. -/
theorem MicroKeeps.step (K : MicroKeeps config P) {s t : State} (hs : P s) (h : step s = .next t)
    (stream : ∀ (u : State) q, P u → P { u with cmdStream := q })
    (reject : ∀ u st, P u → P (u.reject st))
    (start : ∀ i (u : State), u.atRest = true → P u → operandsLegal config i = true → readyFor i u = true →
      P { u with seq := .busy i 0 (commandTasks config i u) }) : P t :=
  step_keeps P s t hs K.sample (fun u hr hp hu => K.entry u hu (dispatch_of_atRest hr) hp) stream reject
    (fun i u hr hu hl hready _ => start i u hr hu hl hready) K.micro h

/-! ### The tasks still to do -/

/-- After a foreground action its follow-up is to do, and what waited behind it; after Respond, nothing at all. -/
theorem foreground_todo (cmd : Instr) (k : Nat) (t : Task) (rest : List Task) (s : State) :
    (foreground c cmd k t rest s).seq.todo = [] ∨ (foreground c cmd k t rest s).seq.todo = t.followUp c s ++ rest := by
  by_cases hr : ∃ st r, t = .respond st r
  · obtain ⟨st, r, rfl⟩ := hr
    exact .inl rfl
  · obtain ⟨⟨k', hseq⟩, -⟩ := foreground_goesOn (c := c) (s := s) cmd k t rest fun st r h => hr ⟨st, r, h⟩
    exact .inr (by rw [hseq]; rfl)

theorem foreground_todo_subset (cmd : Instr) (k : Nat) (t : Task) (rest : List Task) (s : State) :
    (foreground c cmd k t rest s).seq.todo ⊆ t.followUp c s ++ rest := by
  obtain he | he := foreground_todo (c := c) cmd k t rest s
  · rw [he]; exact List.nil_subset _
  · rw [he]; exact List.Subset.refl _

/-- A property of tasks that each hands on to its follow-up holds of all tasks to do after a foreground action. -/
theorem foreground_forall_todo {Q : Task → Prop} (follow : ∀ s t, Q t → ∀ u ∈ t.followUp c s, Q u) {cmd : Instr} {k : Nat}
    {t : Task} {rest : List Task} {s : State} (hq : s.seq = .busy cmd k (t :: rest)) (h : ∀ u ∈ s.seq.todo, Q u) :
    ∀ u ∈ (foreground c cmd k t rest s).seq.todo, Q u := by
  rw [hq] at h
  obtain ⟨ht, hrest⟩ := List.forall_mem_cons.mp h
  intro u hu
  rcases List.mem_append.mp (foreground_todo_subset cmd k t rest s hu) with hu | hu
  · exact follow s t ht u hu
  · exact hrest u hu

end Sys2Proof.Machine
end

