-- ==== Sys2Proof/Proofs/Registers.lean ====
section
/-! SUPPORT. The shadow registers and result registers of the foreground (10_state.md R23 to R39, R41) as one family: each is written by
one kind of register write only, and by nothing else. From it follow the legal values of the caches and the access table (R49). -/

namespace Sys2Proof.Machine

variable {c : Config} {s : State}

/-- The registers that `RegWrite` writes: rows CUR_BW to DETECTED of Table 4 (10_state.md R49), RX_BUF apart. -/
inductive Reg where
  | curBw | curCr | curSf | curPre | curSync | curPwr | payloadLen | iqInvert | headerExpl | crcEn | timeoutSymbols | freqHz | freqReg
  | lastRssi | lastSnr | lastFeiHz | lastPpm | detected
deriving DecidableEq

/-- What a register holds. -/
abbrev Reg.Val : Reg → Type
  | .curBw | .curSf => BitVec 4
  | .curCr => BitVec 3
  | .curPre | .curSync => Cache 8
  | .curPwr => Cache 4
  | .payloadLen | .lastSnr | .lastPpm => BitVec 8
  | .iqInvert | .headerExpl | .crcEn | .detected => Bool
  | .timeoutSymbols => BitVec 10
  | .freqHz | .lastFeiHz => BitVec 32
  | .freqReg => BitVec 24
  | .lastRssi => BitVec 16

/-- The register's content. -/
def Reg.read (s : State) : (r : Reg) → r.Val
  | .curBw => s.curBw
  | .curCr => s.curCr
  | .curSf => s.curSf
  | .curPre => s.curPre
  | .curSync => s.curSync
  | .curPwr => s.curPwr
  | .payloadLen => s.payloadLen
  | .iqInvert => s.iqInvert
  | .headerExpl => s.headerExpl
  | .crcEn => s.crcEn
  | .timeoutSymbols => s.timeoutSymbols
  | .freqHz => s.freqHz
  | .freqReg => s.freqReg
  | .lastRssi => s.lastRssi
  | .lastSnr => s.lastSnr
  | .lastFeiHz => s.lastFeiHz
  | .lastPpm => s.lastPpm
  | .detected => s.detected

/-- The register a register write writes. -/
def RegWrite.reg : RegWrite → Reg
  | .curBw _ => .curBw
  | .curCr _ => .curCr
  | .curSf _ => .curSf
  | .curPre _ => .curPre
  | .curSync _ => .curSync
  | .curPwr _ => .curPwr
  | .payloadLen _ => .payloadLen
  | .iqInvert _ => .iqInvert
  | .headerExpl _ => .headerExpl
  | .crcEn _ => .crcEn
  | .timeoutSymbols _ => .timeoutSymbols
  | .freqHz _ => .freqHz
  | .freqReg _ => .freqReg
  | .lastRssi _ => .lastRssi
  | .lastSnr _ => .lastSnr
  | .lastFeiHz _ => .lastFeiHz
  | .lastPpm _ => .lastPpm
  | .detected _ => .detected

/-- A register write leaves every other register alone: but for the excluded pairs of a write and its own register, the two sides are
the same field of the same state. -/
theorem read_apply_other {w : RegWrite} {r : Reg} (h : w.reg ≠ r) : r.read (w.apply s) = r.read s := by
  cases w <;> cases r <;> try exact absurd rfl h
  all_goals rfl

@[simp] theorem read_sampleIrq (r : Reg) (s : State) : r.read s.sampleIrq = r.read s := by cases r <;> simp [Reg.read]

@[simp] theorem read_dispatchStep (r : Reg) (ph : Phase) (s : State) : r.read (dispatchStep c ph s) = r.read s := by
  cases r <;> simp [Reg.read]

/-- A foreground action leaves a register alone unless it is a write of it. -/
theorem read_foreground {r : Reg} {cmd : Instr} {k : Nat} {t : Task} {rest : List Task} (h : ∀ w, t = .regWrite w → w.reg ≠ r) :
    r.read (foreground c cmd k t rest s) = r.read s := by
  cases t with
  | regWrite w => exact read_apply_other (h w rfl)
  | modeCheck m => simp only [foreground]; split <;> rfl
  | _ => cases r <;> simp [foreground, Reg.read]

/-! ### The legal values of the caches -/

/-- Legal caches speak of the registers and of SEQ only. -/
theorem State.CachesLegal.of_reads {s' : State} (h : s.CachesLegal) (hr : ∀ r : Reg, r.read s' = r.read s)
    (hseq : s'.seq.Legal config) : s'.CachesLegal := by
  have hbw : s'.curBw = s.curBw := hr .curBw
  have hcr : s'.curCr = s.curCr := hr .curCr
  have hsf : s'.curSf = s.curSf := hr .curSf
  have hsync : s'.curSync = s.curSync := hr .curSync
  have hpay : s'.payloadLen = s.payloadLen := hr .payloadLen
  exact ⟨hbw ▸ h.bw, hcr ▸ h.cr, hsf ▸ h.sf, hsync ▸ h.sync, hpay ▸ h.payload, hseq⟩

/-- A legal register write leaves legal caches. -/
theorem State.CachesLegal.apply {w : RegWrite} (h : s.CachesLegal) (hw : w.Legal config) : (w.apply s).CachesLegal := by
  obtain ⟨hbw, hcr, hsf, hsync, hpay, htodo⟩ := h
  cases w with
  | curBw v => exact ⟨.inl hw, hcr, hsf, hsync, hpay, htodo⟩
  | curCr v => exact ⟨hbw, .inl hw, hsf, hsync, hpay, htodo⟩
  | curSf v => exact ⟨hbw, hcr, .inl hw, hsync, hpay, htodo⟩
  | curSync v => exact ⟨hbw, hcr, hsf, fun _ => hw, hpay, htodo⟩
  | payloadLen v => exact ⟨hbw, hcr, hsf, hsync, hw, htodo⟩
  | _ => exact ⟨hbw, hcr, hsf, hsync, hpay, htodo⟩

/-- The task and the tasks behind it, of a legal sequencer. -/
theorem Seq.Legal.cons {cmd : Instr} {k : Nat} {t : Task} {rest : List Task} (h : s.seq.Legal c)
    (hq : s.seq = .busy cmd k (t :: rest)) : t.Legal c ∧ ∀ u ∈ rest, u.Legal c := by
  rw [hq] at h; exact legal_cons.mp h

theorem foreground_cachesLegal {cmd : Instr} {k : Nat} {t : Task} {rest : List Task} (h : s.CachesLegal)
    (hq : s.seq = .busy cmd k (t :: rest)) : (foreground config cmd k t rest s).CachesLegal := by
  obtain ⟨ht, hrest⟩ := h.todo.cons hq
  have hseq := foreground_seq_legal cmd k t rest s ht hrest
  by_cases hw : ∃ w, t = .regWrite w
  · obtain ⟨w, rfl⟩ := hw
    exact (h.apply ht).of_reads (fun _ => rfl) hseq
  · exact h.of_reads (fun _ => read_foreground fun w he => absurd ⟨w, he⟩ hw) hseq

theorem cachesLegal_kept : MicroKeeps config State.CachesLegal where
  sample u h := h.of_reads (fun r => read_sampleIrq r u) (by simpa using h.todo)
  dispatch u ph h _ := h.of_reads (fun r => read_dispatchStep r ph u) (by simpa using h.todo)
  entry _ h _ _ := h.of_reads (fun _ => rfl) h.todo
  ends _ _ _ h _ := h.of_reads (fun _ => rfl) trivial
  foreground _ _ _ _ _ h _ _ hq := foreground_cachesLegal h hq

/-- Settles O55: legal operands start legal tasks, a legal task writes a legal value, and nothing else writes a cache. -/
theorem cachesStayLegal : Obligations.CachesStayLegal := by
  intro s t hs hstep
  refine cachesLegal_kept.step hs hstep ?stream ?reject ?start
  case stream => exact fun u _ h => h.of_reads (fun _ => rfl) h.todo
  case reject => exact fun u _ h => h.of_reads (fun _ => rfl) h.todo
  case start => exact fun i u _ h hlegal _ => h.of_reads (fun _ => rfl) (commandTasks_legal i u hlegal)

/-! ### The access table -/

/-- The registers a procedure may write. -/
def Proc.targets : Proc → List Reg
  | .errata _ | .armMode => []
  | .baseline _ _ => [.curPre, .curSync]
  | .setBwCr _ _ => [.curBw, .curCr]
  | .setSf _ => [.curSf]
  | .setSync _ => [.curSync]
  | .setPreamble _ => [.curPre]
  | .setPower _ => [.curPwr]
  | .setRxTimeout _ => [.timeoutSymbols]
  | .setFreqHz _ | .setFreqReg _ => [.freqHz, .freqReg]

/-- The registers a task may write, with all it goes on with. -/
def Task.targets : Task → List Reg
  | .regWrite w => [w.reg]
  | .call p => p.targets
  | .probe _ => [.detected, .curPre, .curSync]
  | .readStats => [.lastRssi, .lastSnr]
  | .readFei => [.lastFeiHz]
  | _ => []

/-- The commands that Table 4 lists as writers of a register (10_state.md R49). -/
def Reg.writers : Reg → List String
  | .curBw | .curCr => ["CONFIG", "SET_BW_CR"]
  | .curSf => ["CONFIG", "SET_SF"]
  | .curPre => ["BEGIN", "CONFIG", "SET_PREAMBLE"]
  | .curSync => ["BEGIN", "CONFIG", "SET_SYNC"]
  | .curPwr => ["SET_POWER"]
  | .payloadLen | .iqInvert => ["CONFIG"]
  | .headerExpl | .crcEn => ["SET_HDR_CRC"]
  | .timeoutSymbols => ["CONFIG", "SET_RX_TIMEOUT"]
  | .freqHz | .freqReg => ["CONFIG", "SET_FREQ_HZ", "SET_FREQ_REG"]
  | .lastRssi | .lastSnr => ["GET_STATS"]
  | .lastFeiHz => ["GET_FEI"]
  | .lastPpm => ["SET_PPM"]
  | .detected => ["BEGIN"]

theorem proc_tasks_targets (p : Proc) (s : State) : ∀ t ∈ p.tasks c s, t.targets ⊆ p.targets := by
  cases p <;> simp only [Proc.tasks, errataTasks, baselineTasks, bwCrTasks, sfTasks, syncTasks, preambleTasks, powerTasks,
    rxTimeoutTasks, freqHzTasks, freqRegTasks, armModeTasks]
  all_goals repeat' split
  all_goals simp [Task.targets, Proc.targets, RegWrite.reg]

theorem followUp_targets (s : State) (t : Task) : ∀ u ∈ t.followUp c s, u.targets ⊆ t.targets := by
  cases t with
  | probe n =>
    simp only [Task.followUp, afterProbeTasks]
    split
    · simp [detectedTasks, Task.targets, Proc.targets, RegWrite.reg]
    · split <;> simp [notDetectedTasks, Task.targets, RegWrite.reg]
  | readStats => simp [Task.followUp, afterStatsTasks, Task.targets, RegWrite.reg]
  | readFei => simp [Task.followUp, afterFeiTasks, Task.targets, RegWrite.reg]
  | modeCheck m => simp only [Task.followUp]; split <;> simp [Task.targets]
  | call p => exact proc_tasks_targets p s
  | _ => simp [Task.followUp]

/-- A command's tasks write a register only where the access table lists the command. -/
theorem commandTasks_targets (i : Instr) (s : State) :
    ∀ t ∈ commandTasks c i s, ∀ r ∈ t.targets, mnemonic i ∈ r.writers := by
  cases i with
  | begin =>
    simp only [commandTasks, beginTasks]
    split <;> simp [notDetectedTasks, Task.targets, RegWrite.reg, mnemonic, Reg.writers]
  | config o =>
    simp only [commandTasks, configTasks]
    split <;> simp [Task.targets, Proc.targets, RegWrite.reg, mnemonic, Reg.writers]
  | setMode mode => simp only [commandTasks, setModeTasks]; split <;> simp [Task.targets]
  | tx data => simp [commandTasks, txTasks, Task.targets]
  | armRx => simp [commandTasks, armRxTasks, Task.targets, Proc.targets]
  | setPpm off => simp [commandTasks, ppmTasks, Task.targets, RegWrite.reg, mnemonic, Reg.writers]
  | _ => simp [commandTasks, Task.targets, Proc.targets, RegWrite.reg, mnemonic, Reg.writers]

/-- Register `r` holds `v`, and no task to do writes it. -/
def State.Untouched (r : Reg) (v : r.Val) (s : State) : Prop := r.read s = v ∧ ∀ t ∈ s.seq.todo, r ∉ t.targets

theorem untouched_kept (r : Reg) (v : r.Val) : MicroKeeps c (State.Untouched r v) where
  sample u h := ⟨(read_sampleIrq r u).trans h.1, by simpa using h.2⟩
  dispatch u ph h _ := ⟨(read_dispatchStep r ph u).trans h.1, by simpa using h.2⟩
  entry _ h _ _ := h
  ends _ _ _ h _ := ⟨h.1, List.forall_mem_nil _⟩
  foreground u cmd k t rest h _ _ hq := by
    obtain ⟨hval, htodo⟩ := h
    refine ⟨(read_foreground fun w he hw => ?_).trans hval,
      foreground_forall_todo (fun s t hn u hu hm => hn (followUp_targets s t u hu hm)) hq htodo⟩
    subst he hw
    rw [hq] at htodo
    exact htodo (.regWrite w) List.mem_cons_self List.mem_cons_self

/-- A command leaves alone every register of which the access table does not list it as a writer, interrupts anywhere. -/
theorem exec_read {i : Instr} {s t : State} (h : exec i s = .next t) (r : Reg) (hr : mnemonic i ∉ r.writers) :
    r.read t = r.read s := by
  rcases (untouched_kept r (r.read s)).exec h fun _ _ _ =>
    ⟨rfl, fun t ht hm => hr (commandTasks_targets i s t ht r hm)⟩ with ⟨st, rfl⟩ | hfinal
  · rfl
  · exact hfinal.1

/-- Settles O40: each clause is the frame of one row of the table. -/
theorem accessTable : Obligations.AccessTable := by
  intro i s t h
  have keep := exec_read h
  exact ⟨fun hm => ⟨keep .curBw hm, keep .curCr hm⟩, keep .curSf, keep .curPre, keep .curSync, keep .curPwr,
    fun hm => ⟨keep .payloadLen hm, keep .iqInvert hm⟩, fun hm => ⟨keep .headerExpl hm, keep .crcEn hm⟩, keep .timeoutSymbols,
    fun hm => ⟨keep .freqHz hm, keep .freqReg hm⟩, fun hm => ⟨keep .lastRssi hm, keep .lastSnr hm⟩, keep .lastFeiHz, keep .lastPpm,
    keep .detected⟩

end Sys2Proof.Machine
end

