-- ==== Sys2Proof/Proofs/Buffer.lean ====
section
/-! SUPPORT. RX_BUF and the events: what each action emits (30_encoding.md R115), and that RX_BUF keeps its form and its addresses
(10_state.md R40; log 10) and every event its legal data (60_exceptions.md R230, 40_config.md R140). -/

namespace Sys2Proof.Machine

variable {c : Config} {s : State}

/-- The events a foreground action emits. -/
def Task.emits : Task → List Event
  | .emit e => [e]
  | _ => []

/-- The events a micro-operation of the dispatch emits (60_exceptions.md R229, R230). -/
def Phase.emits : Phase → List Event
  | .txEmit _ => [.txDone]
  | .rxEmit n d => [.rxDone 0x00 n d]
  | _ => []

theorem foreground_events (cmd : Instr) (k : Nat) (t : Task) (rest : List Task) :
    (foreground c cmd k t rest s).events = s.events ++ t.emits := by
  cases t with
  | modeCheck m => simp only [foreground]; split <;> simp [Task.emits]
  | _ => simp [foreground, Task.emits]

theorem dispatchStep_events (ph : Phase) : (dispatchStep c ph s).events = s.events ++ ph.emits := by
  cases ph <;> simp [dispatchStep, Phase.emits]

theorem task_emits_legal {t : Task} (h : t.Legal c) : ∀ e ∈ t.emits, e.Legal c := by
  cases t with
  | emit e => exact List.forall_mem_singleton.mpr h
  | _ => exact List.forall_mem_nil _

theorem phase_emits_legal {ph : Phase} (h : ph.Legal) : ∀ e ∈ ph.emits, e.Legal c := by
  cases ph with
  | rxEmit n d => exact List.forall_mem_singleton.mpr ⟨rfl, h⟩
  | txEmit flags => exact List.forall_mem_singleton.mpr trivial
  | _ => exact List.forall_mem_nil _

theorem afterTxPhase_legal (flags : Byte) (s : State) : (afterTxPhase c flags s).Legal := by
  unfold afterTxPhase; split <;> trivial

/-- The dispatch goes on with as many bytes as it says: the FIFO read answers PAYLOAD_LEN bytes (60_exceptions.md R230). -/
theorem dispatchStep_phase_legal {ph : Phase} (h : ph.Legal) :
    ∀ next, (dispatchStep c ph s).dispatch = some next → next.Legal := by
  intro next hn
  cases ph with
  | readFlags | txDisable | txStandby | rxEmit => cases hn; trivial
  | clearFlags flags =>
    cases hn
    unfold afterClearPhase
    split
    · trivial
    · exact afterTxPhase_legal flags s
  | txEmit flags => cases hn; exact afterTxPhase_legal flags _
  | rxRead => cases hn; exact nextBytes_length _ _
  | rxStore n d => cases hn; exact h
  | rxStandby n d => cases hn; exact h
  | leave => cases hn

/-- The part of the invariant about RX_BUF. -/
def Memory.InRxBuf (m : Memory) : Prop := m.wf = true ∧ ∀ cell ∈ m, cell.1 < 256

/-- A receive completion stores at most 255 bytes from address 0; nothing else of the dispatch writes RX_BUF. -/
theorem dispatchStep_inRxBuf {ph : Phase} (h : ph.Legal) (hm : s.rxBuf.InRxBuf) : (dispatchStep c ph s).rxBuf.InRxBuf := by
  cases ph with
  | rxStore n d =>
    have hlen : d.length = n.toNat := h
    have hn := n.isLt
    exact ⟨Memory.writeBytes_wf d 0 hm.1, Memory.writeBytes_addresses 256 d 0 hm.2 (by omega)⟩
  | _ => simpa [dispatchStep] using hm

theorem bufferLegal_kept : MicroKeeps config State.BufferLegal where
  sample u h :=
    ⟨by simpa using h.form, by simpa using h.addresses, by simpa using h.phase, by simpa using h.events, by simpa using h.todo⟩
  dispatch u ph h hd := by
    have hph := h.phase ph hd
    have hbuf := dispatchStep_inRxBuf (c := config) hph ⟨h.form, h.addresses⟩
    refine ⟨hbuf.1, hbuf.2, dispatchStep_phase_legal hph, ?_, by simpa using h.todo⟩
    rw [dispatchStep_events]
    exact List.forall_mem_append.mpr ⟨h.events, phase_emits_legal hph⟩
  entry u h _ _ := ⟨h.form, h.addresses, fun ph he => by cases he; trivial, h.events, h.todo⟩
  ends _ _ _ h _ := ⟨h.form, h.addresses, h.phase, h.events, trivial⟩
  foreground u cmd k t rest h _ _ hq := by
    obtain ⟨ht, hrest⟩ := h.todo.cons hq
    refine ⟨by simpa using h.form, by simpa using h.addresses, by simpa using h.phase, ?_, foreground_seq_legal cmd k t rest u ht hrest⟩
    rw [foreground_events]
    exact List.forall_mem_append.mpr ⟨h.events, task_emits_legal ht⟩

/-- Settles O56: legal tasks emit legal events, and a dispatch stores and reports the bytes it read, as many as PAYLOAD_LEN says. -/
theorem bufferStaysLegal : Obligations.BufferStaysLegal := by
  intro s t hs hstep
  refine bufferLegal_kept.step hs hstep ?stream ?reject ?start
  case stream => exact fun _ _ h => ⟨h.form, h.addresses, h.phase, h.events, h.todo⟩
  case reject => exact fun _ _ h => ⟨h.form, h.addresses, h.phase, h.events, h.todo⟩
  case start =>
    exact fun i u _ h hlegal _ => ⟨h.form, h.addresses, h.phase, h.events, commandTasks_legal i u hlegal⟩

end Sys2Proof.Machine
end

