-- ==== Sys2Proof/Proofs/Detection.lean ====
section
/-! SUPPORT. DETECTED: while it is 0 the interrupt machinery is silent (10_state.md R41, R44), and once it is 1 CUR_MODE is a real mode at
every command boundary, since a SetMode follows wherever it is set (40_config.md R131). -/

namespace Sys2Proof.Machine

variable {c : Config} {s : State}

/-! ### Silence while undetected -/

/-- An assertion is latched only while DETECTED = 1 (10_state.md R44). -/
theorem sampleIrq_silent (h : s.SilentUndetected) : s.sampleIrq.SilentUndetected := by
  intro hdet
  rw [sampleIrq_detected] at hdet
  obtain ⟨hp, hd⟩ := h hdet
  refine ⟨?_, by simpa using hd⟩
  unfold State.sampleIrq
  split
  · exact hp
  · simp [hp, hdet]

/-- An interrupt that is pending or in service shows that the chip is detected, and neither context's next action clears DETECTED
then. -/
theorem silentUndetected_kept : MicroKeeps c State.SilentUndetected where
  sample _ h := sampleIrq_silent h
  dispatch u ph h hd hdet := by
    have hnone := (h (by simpa using hdet)).2
    rw [hd] at hnone; cases hnone
  entry u h _ hp hdet := by
    have hquiet := (h hdet).1
    rw [hp] at hquiet; cases hquiet
  ends _ _ _ h _ := h
  foreground u cmd k t rest _ hd hp _ _ := by simp [hd, hp]

/-- Settles O58: an assertion is dropped while DETECTED = 0, and the foreground writes DETECTED only with no interrupt pending. -/
theorem undetectedStaysSilent : Obligations.UndetectedStaysSilent := by
  intro s t hs hstep
  exact silentUndetected_kept.step hs hstep (fun _ _ h => h) (fun _ _ h => h) (fun _ _ _ h _ _ => h)

/-! ### A known mode once detected -/

theorem modeAfterDetection_cons {t : Task} {rest : List Task} :
    modeAfterDetection (t :: rest) = true ↔
      (t = .regWrite (.detected true) → rest.any Task.setsMode = true) ∧ modeAfterDetection rest = true := by
  by_cases h : t = .regWrite (.detected true)
  · subst h; simp [modeAfterDetection]
  · rw [modeAfterDetection]
    · simp [h]
    · exact h

theorem modeAfterDetection_append {a b : List Task} (ha : modeAfterDetection a = true) (hb : modeAfterDetection b = true) :
    modeAfterDetection (a ++ b) = true := by
  induction a with
  | nil => exact hb
  | cons t ts ih =>
    obtain ⟨hany, hrest⟩ := modeAfterDetection_cons.mp ha
    exact modeAfterDetection_cons.mpr ⟨fun h => List.any_append.trans (by rw [hany h, Bool.true_or]), ih hrest⟩

/-- Tasks none of which sets DETECTED need no SetMode. -/
theorem modeAfterDetection_of_not_mem {ts : List Task} (h : Task.regWrite (.detected true) ∉ ts) : modeAfterDetection ts = true := by
  induction ts with
  | nil => rfl
  | cons t ts ih =>
    obtain ⟨hne, hrest⟩ := List.ne_and_not_mem_of_not_mem_cons h
    exact modeAfterDetection_cons.mpr ⟨fun e => absurd e.symm hne, ih hrest⟩

/-- No procedure writes DETECTED (10_state.md R49). -/
theorem proc_tasks_modeAfterDetection (p : Proc) (s : State) : modeAfterDetection (p.tasks c s) = true := by
  refine modeAfterDetection_of_not_mem fun hm => ?_
  have htarget := proc_tasks_targets p s _ hm List.mem_cons_self
  cases p <;> simp [Proc.targets, RegWrite.reg] at htarget

theorem followUp_modeAfterDetection (t : Task) (s : State) : modeAfterDetection (t.followUp c s) = true := by
  cases t with
  | probe n =>
    simp only [Task.followUp, afterProbeTasks]
    split
    · rfl
    · split <;> rfl
  | modeCheck m => simp only [Task.followUp]; split <;> rfl
  | call p => exact proc_tasks_modeAfterDetection p s
  | _ => rfl

/-- A command starts with no write of DETECTED; BEGIN's comes with the probe's answer. -/
theorem commandTasks_modeAfterDetection (i : Instr) (s : State) : modeAfterDetection (commandTasks c i s) = true := by
  cases i with
  | begin => simp only [commandTasks, beginTasks]; split <;> rfl
  | setMode mode => simp only [commandTasks, setModeTasks]; split <;> rfl
  | _ => rfl

/-- The order survives a foreground action: its follow-up has it, and so had the tasks that waited. -/
theorem foreground_modeAfterDetection (cmd : Instr) (k : Nat) (t : Task) (rest : List Task) (s : State)
    (h : modeAfterDetection rest = true) : modeAfterDetection (foreground c cmd k t rest s).seq.todo = true := by
  obtain he | he := foreground_todo (c := c) cmd k t rest s
  · rw [he]; rfl
  · rw [he]; exact modeAfterDetection_append (followUp_modeAfterDetection t s) h

/-- The promise of a mode, in full: the chip detected and CUR_MODE still UNKNOWN mean that a SetMode is to come. -/
def State.ModePromised (s : State) : Prop := s.detected = true → s.curMode = .unknown → s.seq.todo.any Task.setsMode = true

/-- The promise survives a foreground action: a SetMode is kept or fulfilled, and where DETECTED is set one follows. -/
theorem foreground_modePromised {cmd : Instr} {k : Nat} {t : Task} {rest : List Task} (h : s.ModeKnown)
    (hq : s.seq = .busy cmd k (t :: rest)) : (foreground c cmd k t rest s).ModePromised := by
  obtain ⟨hknown, horder, hends, htodo⟩ := h
  obtain ⟨ht, -⟩ := htodo.cons hq
  simp only [hq, Seq.todo, List.any_cons, Bool.or_eq_true, reduceCtorEq, false_or] at hknown horder hends
  obtain ⟨hany, -⟩ := modeAfterDetection_cons.mp horder
  intro hdet hmode
  cases t with
  | modeCache m => exact absurd hmode ht
  | modeCheck m =>
    have hm : m ≠ .unknown := ht
    have hne : m ≠ s.curMode := by
      rintro rfl
      simp only [foreground] at hmode
      exact hm hmode
    simp [foreground, hne, Seq.todo, Task.setsMode, hm]
  | regWrite w =>
    by_cases hw : w = .detected true
    · exact hany (by rw [hw])
    · have hdet' : s.detected = true := by
        cases w with
        | detected v => exact absurd (congrArg RegWrite.detected hdet) hw
        | _ => exact hdet
      exact (hknown hdet' (by simpa [foreground] using hmode)).resolve_left Bool.false_ne_true
  | respond st r =>
    obtain ⟨rfl, -⟩ | ⟨hlast, -⟩ := (endsOnce_cons _ _).mp hends
    · exact absurd (hknown hdet hmode) (by simp [Task.setsMode])
    · cases hlast
  | _ =>
    have hrest := (hknown (by simpa [foreground] using hdet) (by simpa [foreground] using hmode)).resolve_left Bool.false_ne_true
    simp [foreground, Seq.todo, hrest]

/-- A dispatch leaves CUR_MODE as it was, or sets it to STANDBY (60_exceptions.md R229, R230). -/
theorem dispatchStep_curMode (ph : Phase) (s : State) :
    (dispatchStep c ph s).curMode = s.curMode ∨ (dispatchStep c ph s).curMode = .standby := by
  cases ph with
  | txStandby flags => exact .inr rfl
  | rxStandby n d =>
    by_cases h : s.timeoutSymbols = 0
    · exact .inl (if_neg (not_not.mpr h))
    · exact .inr (if_pos h)
  | _ => exact .inl (by simp [dispatchStep])

theorem modeKnown_kept : MicroKeeps config State.ModeKnown where
  sample u h :=
    ⟨by simpa using h.known, by simpa using h.order, by simpa using h.ends, by simpa using h.todo⟩
  dispatch u ph h _ := by
    refine ⟨fun hdet hmode => ?_, by simpa using h.order, by simpa using h.ends, by simpa using h.todo⟩
    rw [dispatchStep_seq]
    obtain he | he := dispatchStep_curMode (c := config) ph u
    · exact h.known (by simpa using hdet) (he ▸ hmode)
    · rw [he] at hmode; cases hmode
  entry _ h _ _ := ⟨h.known, h.order, h.ends, h.todo⟩
  ends u cmd k h hq := by
    have hends := h.ends
    simp [hq, Seq.todo, endsOnce] at hends
  foreground u cmd k t rest h _ _ hq := by
    have hends := h.ends
    have horder := h.order
    obtain ⟨ht, hrest⟩ := h.todo.cons hq
    simp only [hq, Seq.todo, reduceCtorEq, false_or] at hends horder
    exact ⟨foreground_modePromised h hq, foreground_modeAfterDetection cmd k t rest u (modeAfterDetection_cons.mp horder).2,
      foreground_endsOnce config cmd k t rest u hends, foreground_seq_legal cmd k t rest u ht hrest⟩

/-- A command that starts at a boundary finds the mode known, or the chip not detected. -/
theorem start_modeKnown {i : Instr} (hrest : s.atRest = true) (h : s.ModeKnown) (hlegal : operandsLegal config i = true) :
    State.ModeKnown { s with seq := .busy i 0 (commandTasks config i s) } where
  known hdet hmode := by
    have hpromise := h.known hdet hmode
    rw [seq_of_atRest hrest] at hpromise
    cases hpromise
  order := commandTasks_modeAfterDetection i s
  ends := .inr (commandTasks_endsOnce config i s)
  todo := commandTasks_legal i s hlegal

/-- Settles O59: DETECTED is set with a SetMode behind it, a SetMode leaves a real mode, and a command ends only after its last task. -/
theorem modeStaysKnown : Obligations.ModeStaysKnown := by
  intro s t hs hstep
  refine modeKnown_kept.step hs hstep ?stream ?reject ?start
  case stream => exact fun _ _ h => ⟨h.known, h.order, h.ends, h.todo⟩
  case reject => exact fun _ _ h => ⟨h.known, h.order, h.ends, h.todo⟩
  case start => exact fun i u hrest h hlegal _ => start_modeKnown hrest h hlegal

end Sys2Proof.Machine
end

