-- ==== Sys2Proof/Proofs/ModeRegister.lean ====
section
/-! SUPPORT. CUR_MODE and FAULT_ABORT (10_state.md R22, R46): the modes a task may ask for, the commands that ask for none (41_mode.md
R173), and when a transmit in flight is aborted (70_reset_and_hazards.md R261). -/

namespace Sys2Proof.Machine

variable {c : Config} {s : State}

/-! ### The modes a task may ask for -/

/-- The modes a procedure may ask SetMode for. -/
def Proc.modes : Proc → List Mode
  | .baseline _ _ | .setPower _ | .setFreqHz _ | .setFreqReg _ => [.standby]
  | .armMode => [.rxSingle, .rxContinuous]
  | .errata _ | .setBwCr _ _ | .setSf _ | .setSync _ | .setPreamble _ | .setRxTimeout _ => []

/-- The modes a task may ask SetMode for, with all it goes on with. -/
def Task.modes : Task → List Mode
  | .modeCheck m | .modeWrite m | .modeCache m => [m]
  | .call p => p.modes
  | .probe _ => [.sleep, .standby]
  | _ => []

theorem proc_tasks_modes (p : Proc) (s : State) : ∀ t ∈ p.tasks c s, t.modes ⊆ p.modes := by
  cases p <;> simp only [Proc.tasks, errataTasks, baselineTasks, bwCrTasks, sfTasks, syncTasks, preambleTasks, powerTasks,
    rxTimeoutTasks, freqHzTasks, freqRegTasks, armModeTasks]
  all_goals repeat' split
  all_goals simp [Task.modes, Proc.modes]

theorem followUp_modes (s : State) (t : Task) : ∀ u ∈ t.followUp c s, u.modes ⊆ t.modes := by
  cases t with
  | probe n =>
    simp only [Task.followUp, afterProbeTasks]
    split
    · simp [detectedTasks, Task.modes, Proc.modes]
    · split <;> simp [notDetectedTasks, Task.modes]
  | modeCheck m => simp only [Task.followUp]; split <;> simp [Task.modes]
  | call p => exact proc_tasks_modes p s
  | readStats => simp [Task.followUp, afterStatsTasks, Task.modes]
  | readFei => simp [Task.followUp, afterFeiTasks, Task.modes]
  | _ => simp [Task.followUp]

/-- A foreground action leaves CUR_MODE alone, or sets it to a mode its task asks for. -/
theorem foreground_curMode (cmd : Instr) (k : Nat) (t : Task) (rest : List Task) (s : State) :
    (foreground c cmd k t rest s).curMode = s.curMode ∨ (foreground c cmd k t rest s).curMode ∈ t.modes := by
  cases t with
  | modeCache m => exact .inr List.mem_cons_self
  | modeCheck m => simp only [foreground]; split <;> exact .inl rfl
  | _ => exact .inl (by simp [foreground])

/-- A foreground action sets FAULT_ABORT only where it leaves TRANSMIT for a mode its task asks for (10_state.md R46). -/
theorem foreground_faultAbort (cmd : Instr) (k : Nat) (t : Task) (rest : List Task) (s : State) :
    (foreground c cmd k t rest s).faultAbort = s.faultAbort ∨
      (foreground c cmd k t rest s).faultAbort = true ∧ s.curMode = .transmit ∧ ∃ m ∈ t.modes, m ≠ .transmit := by
  cases t with
  | modeWrite m =>
    cases ha : abortsTransmit m s with
    | false => exact .inl (by simp [foreground, ha])
    | true => exact .inr ⟨by simp [foreground, ha], by simpa [abortsTransmit, Task.modes] using ha⟩
  | modeCheck m => simp only [foreground]; split <;> exact .inl rfl
  | _ => exact .inl (by simp [foreground])

/-! ### FAULT_ABORT is sticky -/

theorem faultAbort_kept : MicroKeeps c fun u => u.faultAbort = true where
  sample _ h := by simpa using h
  dispatch _ _ h _ := by simpa using h
  entry _ h _ _ := h
  ends _ _ _ h _ := h
  foreground u cmd k t rest h _ _ _ := by
    obtain he | ⟨he, -⟩ := foreground_faultAbort (c := c) cmd k t rest u
    · exact he.trans h
    · exact he

/-- Settles O42: only SetMode writes FAULT_ABORT, and it only adds to it. -/
theorem faultAbortIsSticky : Obligations.FaultAbortIsSticky := by
  intro s t hstep hs
  exact faultAbort_kept.step hs hstep (fun _ _ h => h) (fun _ _ h => h) (fun _ _ _ h _ _ => h)

/-! ### The commands that ask for no mode -/

/-- A quiet line stays quiet, so a property is kept that the foreground alone keeps. -/
theorem calm_kept {P : State → Prop} (ends : ∀ u cmd k, P u → u.seq = .busy cmd k [] → P { u with seq := .idle })
    (foreground : ∀ u cmd k t rest, P u → u.seq = .busy cmd k (t :: rest) → P (foreground c cmd k t rest u)) :
    MicroKeeps c fun u => u.Calm ∧ P u where
  sample u := by
    rintro ⟨⟨hd, hp, hl⟩, hP⟩
    have hs : u.sampleIrq = u := by simp [State.sampleIrq, hl]
    rw [hs]
    exact ⟨⟨hd, hp, hl⟩, hP⟩
  dispatch u ph := by
    rintro ⟨⟨hnone, -⟩, -⟩ hd
    rw [hnone] at hd; cases hd
  entry u := by
    rintro ⟨⟨-, hquiet, -⟩, -⟩ - hp
    rw [hquiet] at hp; cases hp
  ends u cmd k := fun ⟨hcalm, hP⟩ hq => ⟨hcalm, ends u cmd k hP hq⟩
  foreground u cmd k t rest := fun ⟨hcalm, hP⟩ _ _ hq => ⟨by simpa [State.Calm] using hcalm, foreground u cmd k t rest hP hq⟩

/-- No task to do asks for a mode. -/
def State.AsksNoMode (s : State) : Prop := ∀ t ∈ s.seq.todo, t.modes = []

/-- Tasks that ask for no mode change none, and go on with such tasks. -/
theorem foreground_asksNoMode {cmd : Instr} {k : Nat} {t : Task} {rest : List Task} (h : s.AsksNoMode)
    (hq : s.seq = .busy cmd k (t :: rest)) :
    (foreground c cmd k t rest s).curMode = s.curMode ∧ (foreground c cmd k t rest s).AsksNoMode := by
  refine ⟨?_, foreground_forall_todo (fun s t hn u hu => List.subset_nil.mp (hn ▸ followUp_modes s t u hu)) hq h⟩
  have ht : t.modes = [] := h t (by simp [hq, Seq.todo])
  simpa [ht] using foreground_curMode (c := c) cmd k t rest s

/-- With interrupts, only a completion's STANDBY can appear in CUR_MODE. -/
theorem mode_kept (m : Mode) : MicroKeeps c fun u => (u.curMode = m ∨ u.curMode = .standby) ∧ u.AsksNoMode where
  sample _ h := by simpa [State.AsksNoMode] using h
  dispatch u ph h _ := by
    obtain ⟨hm, hno⟩ := h
    refine ⟨?_, by simpa [State.AsksNoMode] using hno⟩
    obtain he | he := dispatchStep_curMode (c := c) ph u
    · rwa [he]
    · exact .inr he
  entry _ h _ _ := h
  ends _ _ _ h _ := ⟨h.1, List.forall_mem_nil _⟩
  foreground u cmd k t rest h _ _ hq := by
    obtain ⟨hm, hno⟩ := h
    obtain ⟨he, hno'⟩ := foreground_asksNoMode (c := c) hno hq
    exact ⟨he ▸ hm, hno'⟩

theorem calm_mode_kept (m : Mode) : MicroKeeps c fun u => u.Calm ∧ u.curMode = m ∧ u.AsksNoMode :=
  calm_kept (fun _ _ _ h _ => ⟨h.1, List.forall_mem_nil _⟩) fun _ _ _ _ _ h hq =>
    (foreground_asksNoMode h.2 hq).imp_left fun he => he.trans h.1

theorem calm_rxBuf_kept (m : Memory) : MicroKeeps c fun u => u.Calm ∧ u.rxBuf = m :=
  calm_kept (fun _ _ _ h _ => h) fun _ _ _ _ _ h _ => (foreground_rxBuf ..).trans h

/-- The commands of 41_mode.md R173. -/
theorem commandTasks_no_mode {i : Instr} (hi : mnemonic i ∈ ["SET_BW_CR", "SET_SF", "SET_SYNC", "SET_PREAMBLE", "SET_RX_TIMEOUT",
    "SET_HDR_CRC", "GET_STATS", "GET_FEI", "SET_PPM"]) : ∀ t ∈ commandTasks c i s, t.modes = [] := by
  cases i <;> simp [mnemonic] at hi
  all_goals simp [commandTasks, ppmTasks, Task.modes, Proc.modes]

/-- Settles O41: tasks that ask for no mode leave CUR_MODE to the dispatch, and only the dispatch writes RX_BUF. -/
theorem modeWriters : Obligations.ModeWriters := by
  intro i s t h
  refine ⟨fun hi => ⟨?_, fun hcalm => ?_⟩, fun hcalm => ?_⟩
  · obtain ⟨st, rfl⟩ | hfinal := (mode_kept s.curMode).exec h fun _ _ _ => ⟨.inl rfl, commandTasks_no_mode hi⟩
    · exact .inl rfl
    · exact hfinal.1
  · obtain ⟨st, rfl⟩ | hfinal := (calm_mode_kept s.curMode).exec h fun _ _ _ => ⟨hcalm, rfl, commandTasks_no_mode hi⟩
    · rfl
    · exact hfinal.2.1
  · obtain ⟨st, rfl⟩ | hfinal := (calm_rxBuf_kept s.rxBuf).exec h fun _ _ _ => ⟨hcalm, rfl⟩
    · rfl
    · exact hfinal.2

/-! ### A host that waits for the transmit to end -/

/-- The task leaves TRANSMIT for no mode, and CUR_PWR as it is. -/
def Task.StaysInTransmit (t : Task) : Prop := (∀ m ∈ t.modes, m = .transmit) ∧ .curPwr ∉ t.targets

/-- Once `t` may have entered TRANSMIT, `u` stays in it. -/
def Task.ThenStays (t u : Task) : Prop := .transmit ∈ t.modes → u.StaysInTransmit

theorem followUp_staysInTransmit {t : Task} (h : t.StaysInTransmit) : ∀ u ∈ t.followUp c s, u.StaysInTransmit :=
  fun u hu => ⟨fun m hm => h.1 m (followUp_modes s t u hu hm), fun hm => h.2 (followUp_targets s t u hu hm)⟩

/-- A task that may enter TRANSMIT asks for nothing else. -/
theorem staysInTransmit_of_mem {t : Task} (h : .transmit ∈ t.modes) : t.StaysInTransmit := by
  cases t with
  | modeCheck m | modeWrite m | modeCache m => simpa [Task.StaysInTransmit, Task.modes, Task.targets, eq_comm] using h
  | call p => cases p <;> simp [Task.modes, Proc.modes] at h
  | _ => simp [Task.modes] at h

/-- The order survives a foreground action. -/
theorem foreground_pairwise {cmd : Instr} {k : Nat} {t : Task} {rest : List Task} (h : (t :: rest).Pairwise Task.ThenStays) :
    (foreground c cmd k t rest s).seq.todo.Pairwise Task.ThenStays := by
  obtain ⟨ht, hrest⟩ := List.pairwise_cons.mp h
  have hfollow : (t.followUp c s ++ rest).Pairwise Task.ThenStays := by
    refine List.pairwise_append.mpr ⟨?_, hrest, fun u hu v hv hm => ht v hv (followUp_modes s t u hu hm)⟩
    exact List.pairwise_of_forall_mem_list fun u hu v hv hm =>
      followUp_staysInTransmit (staysInTransmit_of_mem (followUp_modes s t u hu hm)) v hv
  obtain he | he := foreground_todo (c := c) cmd k t rest s
  · rw [he]; exact List.Pairwise.nil
  · rw [he]; exact hfollow

/-- The task leaves TRANSMIT for no mode, as things stand: a repeated power level asks for none (40_config.md R144). -/
def Task.KeepsTransmit (s : State) (t : Task) : Prop :=
  t.StaysInTransmit ∨ ∃ pwr, t = .call (.setPower pwr) ∧ s.curPwr.holds pwr = true

theorem Task.KeepsTransmit.of_curPwr {s' : State} {t : Task} (h : t.KeepsTransmit s) (he : s'.curPwr = s.curPwr) :
    t.KeepsTransmit s' := by
  unfold Task.KeepsTransmit at *; rwa [he]

/-- Nothing to do aborts a transmit: none is in flight, and once one may be, no task leaves it; or every task keeps it. -/
def State.AbortFree (s : State) : Prop :=
  s.curMode ≠ .transmit ∧ s.seq.todo.Pairwise Task.ThenStays ∨ ∀ t ∈ s.seq.todo, t.KeepsTransmit s

/-- Neither a completion's STANDBY nor anything else outside SEQ, CUR_MODE and CUR_PWR matters. -/
theorem State.AbortFree.of_same {s' : State} (h : s.AbortFree) (hm : s'.curMode = s.curMode ∨ s'.curMode = .standby)
    (hseq : s'.seq = s.seq) (hpwr : s'.curPwr = s.curPwr) : s'.AbortFree := by
  obtain ⟨hmode, horder⟩ | hkeeps := h
  · refine .inl ⟨?_, hseq ▸ horder⟩
    obtain he | he := hm
    · rwa [he]
    · rw [he]; simp
  · exact .inr fun t ht => (hkeeps t (hseq ▸ ht)).of_curPwr hpwr

/-- With no transmit in flight nothing is aborted; and where the action enters TRANSMIT, what is left to do stays in it. -/
theorem foreground_abortFree_of_ne {cmd : Instr} {k : Nat} {t : Task} {rest : List Task} (hmode : s.curMode ≠ .transmit)
    (horder : (t :: rest).Pairwise Task.ThenStays) :
    (foreground c cmd k t rest s).faultAbort = s.faultAbort ∧ (foreground c cmd k t rest s).AbortFree := by
  refine ⟨(foreground_faultAbort cmd k t rest s).resolve_right fun ⟨_, hm, _⟩ => hmode hm, ?_⟩
  by_cases hentered : (foreground c cmd k t rest s).curMode = .transmit
  · have ht : .transmit ∈ t.modes := by
      obtain he | he := foreground_curMode (c := c) cmd k t rest s
      · exact absurd (he.symm.trans hentered) hmode
      · rwa [hentered] at he
    refine .inr fun u hu => .inl ?_
    rcases List.mem_append.mp (foreground_todo_subset cmd k t rest s hu) with hu | hu
    · exact followUp_staysInTransmit (staysInTransmit_of_mem ht) u hu
    · exact (List.pairwise_cons.mp horder).1 u hu ht
  · exact .inl ⟨hentered, foreground_pairwise horder⟩

/-- Tasks that keep TRANSMIT abort nothing, and go on with such tasks. -/
theorem foreground_abortFree_of_keeps {cmd : Instr} {k : Nat} {t : Task} {rest : List Task}
    (hkeeps : ∀ u ∈ t :: rest, u.KeepsTransmit s) :
    (foreground c cmd k t rest s).faultAbort = s.faultAbort ∧ (foreground c cmd k t rest s).AbortFree := by
  obtain ⟨ht, hrest⟩ := List.forall_mem_cons.mp hkeeps
  obtain hstay | ⟨pwr, rfl, hholds⟩ := ht
  · refine ⟨(foreground_faultAbort cmd k t rest s).resolve_right fun ⟨_, _, m, hm, hne⟩ => hne (hstay.1 m hm), .inr fun u hu => ?_⟩
    have hpwr : (foreground c cmd k t rest s).curPwr = s.curPwr :=
      read_foreground (r := .curPwr) fun w he hw => hstay.2 (by simp [he, Task.targets, hw])
    rcases List.mem_append.mp (foreground_todo_subset cmd k t rest s hu) with hu | hu
    · exact .inl (followUp_staysInTransmit hstay u hu)
    · exact (hrest u hu).of_curPwr hpwr
  · have helided : foreground c cmd k (.call (.setPower pwr)) rest s = { s with seq := .busy cmd k rest } := by
      simp [foreground, Proc.tasks, powerTasks, hholds]
    rw [helided]
    exact ⟨rfl, .inr hrest⟩

theorem abortFree_kept (fa : Bool) : MicroKeeps c fun u => u.faultAbort = fa ∧ u.AbortFree where
  sample u h := ⟨by simpa using h.1, h.2.of_same (.inl (sampleIrq_curMode u)) (sampleIrq_seq u) (sampleIrq_curPwr u)⟩
  dispatch u ph h _ :=
    ⟨by simpa using h.1, h.2.of_same (dispatchStep_curMode ph u) (dispatchStep_seq c ph u) (dispatchStep_curPwr c ph u)⟩
  entry _ h _ _ := h
  ends _ _ _ h _ := ⟨h.1, .inr (List.forall_mem_nil _)⟩
  foreground u cmd k t rest h _ _ hq := by
    obtain ⟨hfa, hfree⟩ := h
    simp only [State.AbortFree, hq, Seq.todo] at hfree
    obtain ⟨hmode, horder⟩ | hkeeps := hfree
    · exact (foreground_abortFree_of_ne hmode horder).imp_left fun he => he.trans hfa
    · exact (foreground_abortFree_of_keeps hkeeps).imp_left fun he => he.trans hfa

/-- No command leaves TRANSMIT once it has entered it: TX enters it last, and SET_MODE asks for one mode (42_txrx.md R181). -/
theorem commandTasks_pairwise (i : Instr) (s : State) : (commandTasks c i s).Pairwise Task.ThenStays := by
  cases i with
  | begin =>
    simp only [commandTasks, beginTasks]
    split <;> simp [notDetectedTasks, Task.ThenStays, Task.modes]
  | config o =>
    simp only [commandTasks, configTasks]
    split <;> simp [Task.ThenStays, Task.modes, Proc.modes]
  | setMode mode =>
    simp only [commandTasks, setModeTasks]
    split <;> simp [Task.ThenStays, Task.StaysInTransmit, Task.modes, Task.targets]
  | tx data => simp [commandTasks, txTasks, Task.ThenStays, Task.StaysInTransmit, Task.modes, Task.targets]
  | armRx => simp [commandTasks, armRxTasks, Task.ThenStays, Task.modes, Proc.modes]
  | setPpm off => simp [commandTasks, ppmTasks, Task.ThenStays, Task.modes]
  | _ => simp [commandTasks, Task.ThenStays, Task.modes, Proc.modes]

/-- While a transmit is in flight, the commands a waiting host may issue keep it (70_reset_and_hazards.md R261). -/
theorem commandTasks_keepTransmit {i : Instr} (hm : s.curMode = .transmit) (h : hostWaits i s = true) :
    ∀ t ∈ commandTasks c i s, t.KeepsTransmit s := by
  cases i with
  | begin | config o | setFreqHz hz | setFreqReg frf | tx data | armRx => simp [hostWaits, hm] at h
  | setPower rsv pwr =>
    have hholds : s.curPwr.holds pwr = true := by simpa [hostWaits, hm] using h
    simp [commandTasks, Task.KeepsTransmit, Task.StaysInTransmit, Task.modes, Task.targets, hholds]
  | setMode mode =>
    have hmode : mode = 3 := by simpa [hostWaits, hm] using h
    subst hmode
    simp [commandTasks, setModeTasks, modeOfCode, Task.KeepsTransmit, Task.StaysInTransmit, Task.modes, Task.targets]
  | _ =>
    simp [commandTasks, ppmTasks, Task.KeepsTransmit, Task.StaysInTransmit, Task.modes, Proc.modes, Task.targets, Proc.targets,
      RegWrite.reg]

/-- Settles O43: a waiting host's command starts with nothing to do that aborts a transmit, and that survives every micro-step. -/
theorem obedientHostAbortsNothing : Obligations.ObedientHostAbortsNothing := by
  intro i s t _ hwaits h
  have hstart : State.AbortFree { s with seq := .busy i 0 (commandTasks config i s) } := by
    by_cases hm : s.curMode = .transmit
    · exact .inr (commandTasks_keepTransmit hm hwaits)
    · exact .inl ⟨hm, commandTasks_pairwise i s⟩
  obtain ⟨st, rfl⟩ | hfinal := (abortFree_kept s.faultAbort).exec h fun _ _ _ => ⟨rfl, hstart⟩
  · rfl
  · exact hfinal.1

/-! ### The commands that abort a transmit -/

/-- A command that passes its checks and whose tasks set FAULT_ABORT completes with it set, and with OK (60_exceptions.md R234). -/
theorem exec_aborts {i : Instr} {ts : List Task} {s' : State} (hu : s.Undisturbed) (hd : s.detected = true)
    (hl : operandsLegal config i = true) (hcheck : stateCheck i s = none) (hb : commandTasks config i s = ts ++ [.respond .ok []])
    (hq : Quiet config ts s s') (hf : s'.faultAbort = true) :
    ∃ t, exec i s = .next t ∧ t.faultAbort = true ∧ t.status = .ok :=
  ⟨_, exec_quiet hu hl (.inl hd) hcheck hb hq, hf, rfl⟩

/-- SetMode aborts a transmit in flight unless it asks for TRANSMIT (10_state.md R46). -/
theorem abortsTransmit_of_ne {m : Mode} (hm : s.curMode = .transmit) (hne : m ≠ .transmit) : abortsTransmit m s = true := by
  simp [abortsTransmit, hm, hne]

theorem modeOfCode_transmit {mode : Byte} (h : modeOfCode mode = some .transmit) : mode = 3 := by
  revert h mode; decide

/-- CONFIG's frequency, in either unit, keeps FAULT_ABORT set (40_config.md R148, R149). -/
theorem quiet_config_frequency (o : ConfigOperands) (s : State) : ∃ s',
    Quiet config [.call (if o.fu then .setFreqHz o.freq else .setFreqReg (o.freq.extractLsb' 0 24))] s s' ∧
      (s.faultAbort = true → s'.faultAbort = true) := by
  split
  · exact ⟨_, .call (quiet_freqHz o.freq), fun h => by simp [h]⟩
  · exact ⟨_, .call (quiet_freqReg _), fun h => by simp [h]⟩

/-- CONFIG's chain of procedures with a quiet line (40_config.md R135): its first SetMode sets FAULT_ABORT, and the rest keeps it. -/
theorem quiet_config_aborts (o : ConfigOperands) (hm : s.curMode = .transmit) :
    ∃ ts s', commandTasks config (.config o) s = ts ++ [.respond .ok []] ∧ Quiet config ts s s' ∧ s'.faultAbort = true := by
  obtain ⟨s₁, hq₁, hf₁⟩ : ∃ s₁, Quiet config [.modeCheck .standby, .regWrite (.payloadLen o.plen), .regWrite (.iqInvert o.iq),
      .call (.baseline o.pre (configSync config o s)), .call (.setSf o.sf), .call (.setBwCr o.bw o.cr)] s s₁ ∧
        s₁.faultAbort = true :=
    ⟨_, (quiet_mode .standby).cons ((Quiet.regWrite _).cons ((Quiet.regWrite _).cons ((Quiet.call (quiet_baseline _ _)).cons
      ((Quiet.call (quiet_sf _)).cons (Quiet.call (quiet_bwCr _ _)))))), by
        simp [abortsTransmit_of_ne hm (m := .standby) (by decide)]⟩
  obtain ⟨s₂, hq₂, hf₂⟩ := quiet_config_frequency o s₁
  refine ⟨_, _, ?_, hq₁.append (hq₂.cons (Quiet.call (quiet_rxTimeout o.tout))), hf₂ hf₁⟩
  rfl

/-- Settles O44: each of these commands' first SetMode asks for STANDBY, or for the mode of SET_MODE, and so sets FAULT_ABORT. -/
theorem transmitAborted : Obligations.TransmitAborted := by
  intro i s hu hd hl hm hi
  have hstandby : abortsTransmit .standby s = true := abortsTransmit_of_ne hm (by decide)
  obtain hi | ⟨pwr, rfl, hpwr⟩ | ⟨mode, rfl, hne⟩ := hi
  · cases i with
    | config o =>
      obtain ⟨ts, s', hb, hq, hf⟩ := quiet_config_aborts o hm
      exact exec_aborts hu hd hl rfl hb hq hf
    | setFreqHz hz => exact exec_aborts hu hd hl rfl rfl (.call (quiet_freqHz hz)) (by simp [hstandby])
    | setFreqReg frf => exact exec_aborts hu hd hl rfl rfl (.call (quiet_freqReg frf)) (by simp [hstandby])
    | tx data =>
      exact exec_aborts hu hd hl rfl rfl ((quiet_mode .standby).cons (Quiet.txEnable.cons ((Quiet.portWrite _ _).cons
        ((Quiet.fifoWrite data).cons (quiet_mode .transmit))))) (by simp [hstandby])
    | armRx =>
      exact exec_aborts hu hd hl rfl rfl ((quiet_mode .standby).cons (Quiet.rxEnable.cons ((Quiet.portWrite _ _).cons
        (Quiet.call quiet_armMode)))) (by simp [hstandby])
    | _ => simp [mnemonic] at hi
  · exact exec_aborts hu hd hl rfl rfl (.call (quiet_power pwr hpwr)) (by simp [hstandby])
  · obtain ⟨m, hcode⟩ := Option.isSome_iff_exists.mp hl
    have hleaves : m ≠ .transmit := fun e => hne (modeOfCode_transmit (e ▸ hcode))
    have hb : commandTasks config (.setMode mode) s = [.modeCheck m] ++ [.respond .ok []] := by
      simp [commandTasks, setModeTasks, hcode]
    exact exec_aborts hu hd hl rfl hb (quiet_mode m) (by simp [abortsTransmit_of_ne hm hleaves])

end Sys2Proof.Machine
end

