-- ==== Sys2Proof/Proofs/Interrupt.lean ====
section
/-! SUPPORT. The interrupt line and the dispatch, one micro-step at a time (60_exceptions.md R221 to R232): what a sampling latches, that a
dispatch in progress has the machine to itself, and the run of a whole dispatch with no assertion to come. -/

namespace Sys2Proof.Machine

variable {c : Config} {s t : State}

/-! ### Sampling the line -/

/-- An assertion is consumed, and latched exactly while DETECTED = 1 (10_state.md R44). -/
theorem sampleIrq_asserted {later : List Bool} (h : s.irqLine = true :: later) :
    s.sampleIrq.irqPending = (s.irqPending || s.detected) ∧ s.sampleIrq.irqLine = later := by
  simp [State.sampleIrq, h]

theorem sampleIrq_quiet (h : s.irqLine = []) : s.sampleIrq = s := by simp [State.sampleIrq, h]

@[simp] theorem foregroundStep_irqLine (s : State) : (foregroundStep c s).irqLine = s.irqLine := by
  unfold foregroundStep; split <;> simp

@[simp] theorem foregroundStep_dispatch (s : State) : (foregroundStep c s).dispatch = s.dispatch := by
  unfold foregroundStep; split <;> simp

/-- A micro-step uses one entry of the schedule. -/
theorem micro_irqLine (c : Config) (s : State) : (micro c s).irqLine = s.sampleIrq.irqLine := by
  cases hd : s.dispatch with
  | some ph => rw [micro_dispatch hd, dispatchStep_irqLine]
  | none =>
    cases hp : s.sampleIrq.irqPending with
    | true => rw [micro_entry hd hp, enterDispatch_irqLine]
    | false => rw [micro_foreground hd hp, foregroundStep_irqLine]

/-- With no dispatch in progress, one starts exactly if an interrupt is pending once the line is sampled (60_exceptions.md R222). -/
theorem micro_inDispatch (c : Config) (hd : s.dispatch = none) : (micro c s).inDispatch = s.sampleIrq.irqPending := by
  cases hp : s.sampleIrq.irqPending with
  | true => rw [micro_entry hd hp]; rfl
  | false => rw [micro_foreground hd hp]; simp [State.inDispatch, hd]

theorem inDispatch_eq_true : s.inDispatch = true ↔ ∃ ph, s.dispatch = some ph := Option.isSome_iff_exists

theorem inDispatch_eq_false : s.inDispatch = false ↔ s.dispatch = none := Option.isSome_eq_false_iff.trans Option.isNone_iff_eq_none

/-- Settles O30: the sampling latches the assertion or drops it, a dispatch in progress leaves IRQ_PENDING alone, and elsewhere a pending
interrupt is taken at once. -/
theorem assertionLatchedOrDropped : Obligations.AssertionLatchedOrDropped := by
  intro s later hline
  obtain ⟨hpending, hlater⟩ := sampleIrq_asserted hline
  refine ⟨fun hin => ?_, fun hout => ?_, (micro_irqLine config s).trans hlater⟩
  · obtain ⟨ph, hd⟩ := inDispatch_eq_true.mp hin
    rw [micro_dispatch hd, dispatchStep_irqPending, hpending]
  · rw [micro_inDispatch config (inDispatch_eq_false.mp hout), hpending]

/-! ### A dispatch in progress -/

/-- The dispatch is over after its last micro-operation and no other (60_exceptions.md R231). -/
theorem dispatchStep_ends_iff (ph : Phase) : (dispatchStep c ph s).inDispatch = false ↔ ph = .leave := by
  cases ph <;> simp [dispatchStep, State.inDispatch]

/-- No micro-operation of the dispatch leads back to its first (60_exceptions.md R232). -/
theorem dispatchStep_ne_first (ph : Phase) : (dispatchStep c ph s).dispatch ≠ some .readFlags := by
  have hafter : ∀ (flags : Byte) (u : State), afterTxPhase c flags u ≠ .readFlags := by
    intro flags u; unfold afterTxPhase; split <;> simp
  cases ph with
  | clearFlags flags =>
    simp only [dispatchStep, ne_eq, Option.some.injEq]
    unfold afterClearPhase
    split
    · simp
    · exact hafter flags s
  | txEmit flags => simpa [dispatchStep] using hafter flags _
  | _ => simp [dispatchStep]

/-- Settles O31: a dispatch in progress has every micro-step to itself, and no micro-operation of it touches the foreground. -/
theorem dispatchIsNotReentrant : Obligations.DispatchIsNotReentrant := by
  intro s ph hd
  rw [micro_dispatch hd]
  exact ⟨by simp, by simp, by simp, by simp, dispatchStep_irqPending _ _ _, dispatchStep_ends_iff ph, dispatchStep_ne_first ph⟩

/-! ### The bytes drawn from the chip, in closed form -/

/-- Drawing bytes changes the answers laid out and the counter only (00_scope.md R15). -/
theorem drawMany_eq (n : Nat) : ∀ s : State, s.drawMany n =
    { s with chipReads := s.chipReads.drop n, draws := s.draws + (n - s.chipReads.length) } := by
  induction n with
  | zero => intro s; simp [State.drawMany]
  | succ n ih =>
    intro s
    rw [State.drawMany, ih]
    cases hr : s.chipReads with
    | nil => simp [State.drawOne, hr, Nat.add_assoc, Nat.add_comm 1 n]
    | cons b rest => simp [State.drawOne, hr]

theorem drawOne_eq (s : State) : s.drawOne =
    { s with chipReads := s.chipReads.drop 1, draws := s.draws + (1 - s.chipReads.length) } := drawMany_eq 1 s

/-- The next bytes depend on the answers laid out and the counter only. -/
theorem nextBytes_congr (n : Nat) : ∀ {s t : State}, s.chipReads = t.chipReads → s.draws = t.draws →
    s.nextBytes n = t.nextBytes n := by
  induction n with
  | zero => intros; rfl
  | succ n ih =>
    intro s t hr hd
    have hbyte : s.nextByte = t.nextByte := by simp only [State.nextByte, hr, hd]
    rw [State.nextBytes, State.nextBytes, hbyte]
    congr 1
    exact ih (by simp [drawOne_eq, hr]) (by simp [drawOne_eq, hr, hd])

/-! ### The run of a dispatch -/

/-- `n` micro-steps take `s` to `t`, and none of them starts at a command boundary, so a run from `s` passes through `t`. -/
structure MicroRun (c : Config) (n : Nat) (s t : State) : Prop where
  iterate : (micro c)^[n] s = t
  run : runToRest c s = runToRest c t

theorem MicroRun.nil (h : s = t) : MicroRun c 0 s t := h ▸ ⟨rfl, rfl⟩

/-- With no assertion to come, a dispatch in progress goes on with its next micro-operation. -/
theorem MicroRun.dispatch {n : Nat} (ph : Phase) (hd : s.dispatch = some ph) (hl : s.irqLine = [])
    (h : MicroRun c n (dispatchStep c ph s) t) : MicroRun c (n + 1) s t := by
  have hstep : micro c s = dispatchStep c ph s := by rw [micro_dispatch hd, sampleIrq_quiet hl]
  have hbusy : s.atRest = false := by simp [State.atRest, State.inDispatch, hd]
  exact ⟨by rw [Function.iterate_succ_apply, hstep, h.iterate], by rw [runToRest_step c s hbusy, hstep, h.run]⟩

/-- A pending interrupt is taken, and the dispatch runs to its return; at a command boundary that is the whole step. -/
theorem MicroRun.completes {n : Nat} (hd : s.dispatch = none) (hp : s.irqPending = true) (hl : s.irqLine = [])
    (h : MicroRun config n s.enterDispatch t) (htd : t.dispatch = none) (hts : t.seq = s.seq) :
    (micro config)^[n + 1] s = t ∧ (s.seq = .idle → step s = .next t) := by
  have hentry : micro config s = s.enterDispatch := by
    rw [micro_entry hd (by rw [sampleIrq_quiet hl, hp]), sampleIrq_quiet hl]
  refine ⟨by rw [Function.iterate_succ_apply, hentry, h.iterate], fun hidle => ?_⟩
  have hs : s.atRest = true := by simp [State.atRest, State.inDispatch, Seq.isIdle, hidle, hd]
  have ht : t.atRest = true := by simp [State.atRest, State.inDispatch, Seq.isIdle, hts, hidle, htd]
  have hrun : runToRest config s.enterDispatch = t := h.run.trans (runToRest_of_atRest config t ht)
  simp [step, boundaryStep, hs, sampleIrq_quiet hl, hp, hrun]

/-- The state of a dispatch that has read the flags and cleared them, before its next micro-operation `ph` (60_exceptions.md R224). -/
def State.flagsCleared (c : Config) (s : State) (ph : Phase) : State :=
  { s.drawOne with
    irqPending := false
    dispatch := some ph
    trace := s.trace ++ [.read c.regs.irqFlags s.nextByte, .write c.regs.irqFlags 0xFF] }

/-- Every dispatch starts with the flag read and the clear-all write; the guards then see the flags read and CUR_MODE. -/
theorem MicroRun.flags {n : Nat} (hl : s.irqLine = [])
    (h : MicroRun c n (s.flagsCleared c (afterClearPhase c s.nextByte s)) t) : MicroRun c (n + 2) s.enterDispatch t := by
  refine .dispatch .readFlags rfl hl (.dispatch (.clearFlags s.nextByte) rfl (by simpa [dispatchStep] using hl) ?_)
  have hcleared : dispatchStep c (.clearFlags s.nextByte) (dispatchStep c .readFlags s.enterDispatch) =
      s.flagsCleared c (afterClearPhase c s.nextByte s) := by
    simp only [dispatchStep, State.flagsCleared, drawOne_eq, State.record, State.enterDispatch, List.append_assoc]
    rfl
  rw [hcleared]
  exact h

@[simp] theorem flagsCleared_irqLine (ph : Phase) : (s.flagsCleared c ph).irqLine = s.irqLine := by simp [State.flagsCleared]

@[simp] theorem flagsCleared_payloadLen (ph : Phase) : (s.flagsCleared c ph).payloadLen = s.payloadLen := by
  simp [State.flagsCleared]

theorem isReceive_eq_false {m : Mode} : m.isReceive = false ↔ m ≠ .rxSingle ∧ m ≠ .rxContinuous := by
  cases m <;> simp [Mode.isReceive]

/-- Where neither guard holds, the dispatch returns at once (60_exceptions.md R226). -/
theorem afterClearPhase_ignored {flags : Byte} (htx : flags.getLsbD 3 = true → s.curMode ≠ .transmit)
    (hrx : flags.getLsbD 6 = true → s.curMode ≠ .rxSingle ∧ s.curMode ≠ .rxContinuous) :
    afterClearPhase config flags s = .leave := by
  have htx' : txGuard config flags s = false := by simpa [txGuard, txDoneFlag, config] using htx
  have hrx' : rxGuard config flags s = false := by simpa [rxGuard, rxDoneFlag, config, isReceive_eq_false] using hrx
  simp [afterClearPhase, afterTxPhase, htx', hrx']

/-- In a receive mode with RX_DONE set, the dispatch goes on with the receive completion (60_exceptions.md R225). -/
theorem afterClearPhase_received {flags : Byte} (hm : s.curMode = .rxSingle ∨ s.curMode = .rxContinuous)
    (hf : flags.getLsbD 6 = true) : afterClearPhase config flags s = .rxRead := by
  obtain hm | hm := hm <;>
    simp [afterClearPhase, afterTxPhase, txGuard, rxGuard, rxDoneFlag, Mode.isReceive, config, hm, hf]

/-- Settles O35: neither guard holds of the flags read, so the dispatch returns after the clear-all write. -/
theorem ignoredFlags : Obligations.IgnoredFlags := by
  intro s t hd hp hl htx hrx ht
  have hend : dispatchStep config .leave (s.flagsCleared config .leave) = t := by
    subst ht
    simp [dispatchStep, State.flagsCleared, State.leaveDispatch, drawOne_eq, hd, config, regMap]
  have hrun : MicroRun config 3 s.enterDispatch t := by
    refine .flags hl ?_
    rw [afterClearPhase_ignored htx hrx]
    exact .dispatch .leave rfl (by simpa using hl) (.nil hend)
  exact hrun.completes hd hp hl (by simp [ht, hd]) (by simp [ht])

/-- What a receive completion makes of a state (60_exceptions.md R230): PAYLOAD_LEN bytes read into RX_BUF from 0, STANDBY if a timeout is
configured, and the event. -/
def State.received (u : State) : State :=
  { u.drawMany u.payloadLen.toNat with
    dispatch := none
    curMode := if u.timeoutSymbols = 0 then u.curMode else .standby
    rxBuf := u.rxBuf.writeBytes 0 (u.nextBytes u.payloadLen.toNat)
    trace := u.trace ++ [.fifoRead u.payloadLen.toNat (u.nextBytes u.payloadLen.toNat)]
    events := u.events ++ [.rxDone 0x00 u.payloadLen (u.nextBytes u.payloadLen.toNat)] }

/-- The receive completion's four micro-operations and the return. -/
theorem MicroRun.receive {u : State} (hd : u.dispatch = some .rxRead) (hl : u.irqLine = []) : MicroRun c 5 u u.received := by
  refine .dispatch .rxRead hd hl (.dispatch (.rxStore u.payloadLen (u.nextBytes u.payloadLen.toNat)) rfl (by simpa using hl)
    (.dispatch (.rxStandby u.payloadLen (u.nextBytes u.payloadLen.toNat)) rfl (by simpa using hl)
    (.dispatch (.rxEmit u.payloadLen (u.nextBytes u.payloadLen.toNat)) rfl (by simpa using hl)
    (.dispatch .leave rfl (by simpa using hl) (.nil ?_)))))
  simp only [dispatchStep, State.received, drawMany_eq, State.record, State.emit, State.leaveDispatch, ne_eq, ite_not]

/-- Settles O34: the flags send the dispatch to the receive completion, which runs to its return. -/
theorem rxCompletion : Obligations.RxCompletion := by
  intro s d hd hp hl hm hf hbytes
  have hdata : (s.flagsCleared config .rxRead).nextBytes s.payloadLen.toNat = d := hbytes ▸ nextBytes_congr _ rfl rfl
  have hlen : d.length = s.payloadLen.toNat := by rw [hbytes, nextBytes_length]
  have hrun : MicroRun config 7 s.enterDispatch (s.flagsCleared config .rxRead).received := by
    refine .flags hl ?_
    rw [afterClearPhase_received hm hf]
    exact .receive rfl (by simpa using hl)
  obtain ⟨hiterate, hstep⟩ := hrun.completes hd hp hl rfl (by simp [State.received, State.flagsCleared])
  refine ⟨s.rxBuf.writeBytes 0 d, _, ?_, hiterate, hstep, hlen, fun a => ?_⟩
  · simp only [State.received, flagsCleared_payloadLen, hdata]
    simp [State.flagsCleared, drawMany_eq, drawOne_eq, hd, config, regMap]
  · simp [Memory.read_writeBytes, hlen]

end Sys2Proof.Machine
end

