-- ==== Sys2Proof/Proofs/Boundaries.lean ====
section
/-! SUPPORT. GET_STATS with a quiet line (43_telemetry.md R196), and the state at reset (10_state.md R50). -/

namespace Sys2Proof.Machine

variable {s : State}

/-! ### GET_STATS -/

/-- The RSSI as R196 gives it: the offset plus the raw byte, lowered by the magnitude of a negative SNR. -/
theorem rssiOf_config (snr raw : Byte) :
    rssiOf config snr raw = -157 + raw.toNat + (if snr.toInt < 0 then snr.toInt else 0) := by
  have hoffset : config.rssiOffset = -157 := rfl
  unfold rssiOf
  split <;> simp [hoffset]

/-- R36's range, which 16 bits hold. -/
theorem rssi_range (snr raw : Byte) {rssi : Int}
    (h : rssi = -157 + raw.toNat + (if snr.toInt < 0 then snr.toInt else 0)) :
    -285 ≤ rssi ∧ rssi ≤ 98 ∧ (BitVec.ofInt 16 rssi).toInt = rssi := by
  have hraw := raw.isLt
  have hlow := BitVec.le_toInt snr
  have hrange : -285 ≤ rssi ∧ rssi ≤ 98 := by split at h <;> omega
  exact ⟨hrange.1, hrange.2, BitVec.toInt_ofInt_eq_self (by decide) (by omega) (by omega)⟩

/-- Settles O26: the burst read, then the two result registers and the response computed from its bytes. -/
theorem getStatsResult : Obligations.GetStatsResult := by
  intro s snr raw rssi hu hd hbytes hrssi
  refine ⟨rssi_range snr raw hrssi, ?_⟩
  have hcalm : ((s.drawMany 2).record (.burstRead config.regs.pktSnrValue 2 [snr, raw])).Calm := by simpa using hu.2
  have hafter : afterStatsTasks config [snr, raw] =
      [.regWrite (.lastSnr snr), .regWrite (.lastRssi (.ofInt 16 rssi))] ++ [.respond .ok (bytes16 (.ofInt 16 rssi) ++ [snr])] := by
    simp [afterStatsTasks, rssiOf_config, ← hrssi]
  rw [exec_tasks rfl (.inl hd) rfl, commandTasks, runTasks_readStats hu.2, hbytes, hafter, List.append_nil,
    ((Quiet.regWrite _).cons (Quiet.regWrite _)).finish hcalm]
  simp [RegWrite.apply, State.record, State.respond, bytes16, config, regMap, drawMany_eq, hu.1]

/-! ### Reset -/

/-- Settles O54: the list of reset values, read off the definition. -/
theorem resetValues : Obligations.ResetValues :=
  ⟨rfl, rfl, rfl, rfl, rfl, rfl, rfl, rfl, rfl, rfl, rfl, rfl, rfl, rfl, rfl, rfl, rfl, rfl, rfl, fun _ => rfl, rfl, rfl, rfl, rfl, rfl,
    rfl, fun _ => rfl⟩

/-- Settles O60: nothing is written, emitted or to do at reset, and DETECTED = 0. -/
theorem invariantsHoldAtReset : Obligations.InvariantsHoldAtReset := by
  refine ⟨?caches, ?buffer, ?traffic, ?silent, ?mode⟩
  case caches => exact ⟨.inr rfl, .inr rfl, .inr rfl, fun h => (by cases h), by decide, trivial⟩
  case buffer => exact ⟨rfl, List.forall_mem_nil _, fun _ h => (by cases h), List.forall_mem_nil _, trivial⟩
  case traffic => exact ⟨List.forall_mem_nil _, trivial⟩
  case silent => exact fun _ => ⟨rfl, rfl⟩
  case mode => exact ⟨fun h => (by cases h), rfl, .inl rfl, trivial⟩

end Sys2Proof.Machine
end

