-- ==== Sys2Proof/Proofs/Streams.lean ====
section
/-! SUPPORT. The streams of the machine: the command bytes and the command in SEQ, which no micro-operation touches (20_memory.md R84), and
the port trace, the responses and the events, which only grow (20_memory.md R61, 30_encoding.md R114, R115). -/

namespace Sys2Proof.Machine

variable {c : Config} {s : State}

/-! ### What has gone out only grows -/

/-- A foreground action gives no response, or appends one. -/
theorem foreground_responses_prefix (cmd : Instr) (k : Nat) (t : Task) (rest : List Task) :
    s.responses <+: (foreground c cmd k t rest s).responses := by
  by_cases hr : ∃ st r, t = .respond st r
  · obtain ⟨st, r, rfl⟩ := hr
    exact List.prefix_append _ _
  · obtain ⟨-, hsame⟩ := foreground_goesOn (c := c) (s := s) cmd k t rest fun st r h => hr ⟨st, r, h⟩
    rw [hsame]

/-- `s` has put out at least what `old` has: its trace, responses and events continue those of `old`. -/
structure State.Continues (old s : State) : Prop where
  trace : old.trace <+: s.trace
  responses : old.responses <+: s.responses
  events : old.events <+: s.events

/-- No action of either context takes back or changes what it finds in the three streams: it can only append. -/
theorem continues_kept (old : State) : MicroKeeps c old.Continues where
  sample _ h := ⟨by simpa using h.trace, by simpa using h.responses, by simpa using h.events⟩
  dispatch u ph h _ := by
    refine ⟨?_, by simpa using h.responses, ?_⟩
    · rw [dispatchStep_trace]; exact h.trace.trans (List.prefix_append _ _)
    · rw [dispatchStep_events]; exact h.events.trans (List.prefix_append _ _)
  entry _ h _ _ := ⟨h.trace, h.responses, h.events⟩
  ends _ _ _ h _ := ⟨h.trace, h.responses, h.events⟩
  foreground u cmd k t rest h _ _ _ := by
    refine ⟨?_, h.responses.trans (foreground_responses_prefix cmd k t rest), ?_⟩
    · rw [foreground_trace]; exact h.trace.trans (List.prefix_append _ _)
    · rw [foreground_events]; exact h.events.trans (List.prefix_append _ _)

/-- Settles O39: every micro-operation appends, and at a command boundary a rejection appends its response. -/
theorem streamsOnlyGrow : Obligations.StreamsOnlyGrow := by
  intro s t hstep
  have hself : s.Continues s := ⟨List.prefix_rfl, List.prefix_rfl, List.prefix_rfl⟩
  have h : s.Continues t := by
    refine (continues_kept s).step hself hstep ?stream ?reject ?start
    case stream => exact fun _ _ h => ⟨h.trace, h.responses, h.events⟩
    case reject => exact fun _ _ h => ⟨h.trace, h.responses.trans (List.prefix_append _ _), h.events⟩
    case start => exact fun _ _ _ h _ _ => ⟨h.trace, h.responses, h.events⟩
  exact ⟨h.trace, h.responses, h.events⟩

/-! ### The commands received and yet to come -/

/-- No micro-operation of either context writes the command stream. -/
theorem cmdStream_kept (q : List Byte) : MicroKeeps c fun u => u.cmdStream = q where
  sample _ h := by simpa using h
  dispatch _ _ h _ := by simpa using h
  entry _ h _ _ := h
  ends _ _ _ h _ := h
  foreground _ _ _ _ _ h _ _ _ := by simpa using h

/-- An idle sequencer stays idle: only a command boundary starts a command. -/
theorem idle_kept : MicroKeeps c fun u => u.seq = .idle where
  sample _ h := by simpa using h
  dispatch _ _ h _ := by simpa using h
  entry _ h _ _ := h
  ends _ _ _ _ _ := rfl
  foreground _ _ _ _ _ h _ _ hq := by rw [h] at hq; cases hq

/-- SEQ holds no command other than `cmd`. -/
def State.HoldsOnly (cmd : Instr) (s : State) : Prop := s.seq = .idle ∨ ∃ k todo, s.seq = .busy cmd k todo

theorem foreground_holdsOnly (cmd : Instr) (k : Nat) (t : Task) (rest : List Task) :
    (foreground c cmd k t rest s).HoldsOnly cmd := by
  by_cases hr : ∃ st r, t = .respond st r
  · obtain ⟨st, r, rfl⟩ := hr
    exact .inl rfl
  · obtain ⟨⟨k', hseq⟩, -⟩ := foreground_goesOn (c := c) (s := s) cmd k t rest fun st r h => hr ⟨st, r, h⟩
    exact .inr ⟨k', _, hseq⟩

/-- The command in progress stays in SEQ until it ends. -/
theorem holdsOnly_kept (cmd : Instr) : MicroKeeps c (State.HoldsOnly cmd) where
  sample _ h := by simpa [State.HoldsOnly] using h
  dispatch _ _ h _ := by simpa [State.HoldsOnly] using h
  entry _ h _ _ := h
  ends _ _ _ _ _ := .inl rfl
  foreground u cmd' k t rest h _ _ hq := by
    obtain hidle | ⟨k', todo, hbusy⟩ := h
    · rw [hidle] at hq; cases hq
    · rw [hbusy] at hq; cases hq
      exact foreground_holdsOnly cmd k t rest

end Sys2Proof.Machine

namespace Sys2Proof

/-- The bytes left after what the decoder has read; [] where the stream ends inside a command, of which nothing is consumed. -/
def Decoded.unread : Decoded → List Byte
  | .command _ rest => rest
  | .illegalOpcode _ rest => rest
  | .incomplete => []

/-- Each format takes its operand bytes from the head (30_encoding.md R95 to R100). -/
theorem decodeOperands_unread_suffix (op : Byte) (bs : List Byte) : (decodeOperands op bs).unread <:+ bs := by
  fun_cases decodeOperands op bs <;> simp [Decoded.unread, List.suffix_cons_iff, List.drop_suffix]

theorem decode_unread_suffix (bs : List Byte) : (decode bs).unread <:+ bs := by
  cases bs with
  | nil => exact List.suffix_rfl
  | cons op rest => exact (decodeOperands_unread_suffix op rest).trans (List.suffix_cons op rest)

end Sys2Proof

namespace Sys2Proof.Machine

variable {c : Config} {s t : State}

theorem exec_cmdStream {i : Instr} (h : exec i s = .next t) : t.cmdStream = s.cmdStream := by
  obtain ⟨st, rfl⟩ | hkept := (cmdStream_kept s.cmdStream).exec h fun _ _ _ => rfl
  · rfl
  · exact hkept

theorem runToRest_cmdStream (s : State) : (runToRest c s).cmdStream = s.cmdStream :=
  runToRest_keeps c (fun u => u.cmdStream = s.cmdStream) (cmdStream_kept s.cmdStream).micro s rfl

/-- A step takes the bytes it decodes from the head of the stream, and no others. -/
theorem step_cmdStream_suffix (h : step s = .next t) : t.cmdStream <:+ s.cmdStream := by
  have hunread := decode_unread_suffix s.cmdStream
  obtain ⟨-, rfl⟩ | ⟨-, -, rfl⟩ | ⟨-, -, ⟨i, rest, hdec, he⟩ | ⟨op, rest, hdec, rfl⟩ | ⟨-, rfl⟩⟩ := step_cases s t h
  · rw [runToRest_cmdStream]
  · rw [runToRest_cmdStream]; simp
  · rw [hdec] at hunread; rw [exec_cmdStream he]; exact hunread
  · rw [hdec] at hunread; exact hunread
  · simp

/-- Settles O38: the stream, an idle SEQ and the command in SEQ are each kept by every micro-operation, and a step only decodes from the
head of the stream. -/
theorem commandStreamUntouched : Obligations.CommandStreamUntouched := by
  refine ⟨fun c s => ⟨?stream, ?idle, ?busy⟩, fun _ _ _ => exec_cmdStream, fun _ _ => step_cmdStream_suffix⟩
  case stream => exact (cmdStream_kept s.cmdStream).micro s rfl
  case idle => exact idle_kept.micro s
  case busy => exact fun cmd k todo hq => (holdsOnly_kept cmd).micro s (.inr ⟨k, todo, hq⟩)

end Sys2Proof.Machine
end

