-- ==== Sys2Proof/Proofs/RegisterImage.lean ====
section
/-! SUPPORT. ChipImage (20_memory.md R74): what each transaction does to it, bit by bit for a field write (R66), and that transactions which
do not write a register leave its image alone; so SET_SF leaves REG_MODEM_CONFIG_1 alone (70_reset_and_hazards.md R256). -/

namespace Sys2Proof.Machine

/-! ### One transaction -/

theorem chipImage_append (trace ops : List PortOp) (b : RegAddr) :
    chipImage (trace ++ ops) b = ops.foldl (imageStep b) (chipImage trace b) := List.foldl_append

theorem chipImage_append_one (trace : List PortOp) (op : PortOp) (b : RegAddr) :
    chipImage (trace ++ [op]) b = imageStep b (chipImage trace b) op := chipImage_append trace [op] b

/-- The mask of a field has a 1 at its own bits and at no others: it is a run of ones moved up to `lsb`. -/
theorem getLsbD_fieldMask {msb lsb k : Nat} (h : lsb ≤ msb) (hk : k ≤ 7) :
    (fieldMask msb lsb).getLsbD k = decide (lsb ≤ k ∧ k ≤ msb) := by
  have hrun : 2 ^ (msb + 1) - 2 ^ lsb = 2 ^ lsb * (2 ^ (msb + 1 - lsb) - 1) := by
    rw [Nat.mul_sub_one, ← Nat.pow_add]; congr 2; omega
  rw [fieldMask, hrun, BitVec.getLsbD_ofNat, Nat.testBit_two_pow_mul, Nat.testBit_two_pow_sub_one]
  rw [Bool.eq_iff_iff]
  simp only [Bool.and_eq_true, decide_eq_true_eq]
  omega

/-- A field write and its mask, bit by bit (R66). -/
theorem imageStep_field_value (b : RegAddr) (im : ImageByte) (f : Byte) {msb lsb k : Nat} (h : lsb ≤ msb) (hk : k ≤ 7) :
    (imageStep b im (.field b msb lsb f)).value.getLsbD k =
      if lsb ≤ k ∧ k ≤ msb then f.getLsbD (k - lsb) else im.value.getLsbD k := by
  have hmask := getLsbD_fieldMask h hk
  have hlt : k < 8 := by omega
  simp only [imageStep, if_true, BitVec.getLsbD_or, BitVec.getLsbD_and, BitVec.getLsbD_not, BitVec.getLsbD_shiftLeft, hmask, hlt]
  by_cases hin : lsb ≤ k ∧ k ≤ msb
  · simp [hin]
  · simp [hin]

theorem imageStep_field_known (b : RegAddr) (im : ImageByte) (f : Byte) {msb lsb k : Nat} (h : lsb ≤ msb) (hk : k ≤ 7) :
    (imageStep b im (.field b msb lsb f)).known.getLsbD k =
      if lsb ≤ k ∧ k ≤ msb then true else im.known.getLsbD k := by
  have hmask := getLsbD_fieldMask h hk
  by_cases hin : lsb ≤ k ∧ k ≤ msb <;> simp [imageStep, hmask, hin]

/-- A burst programs each register it covers with the byte at its distance from the first (R64). -/
theorem imageStep_burst {a b : RegAddr} {bytes : List Byte} {i : Nat} {v : Byte} (im : ImageByte) (hv : bytes[i]? = some v)
    (hb : b.toNat = a.toNat + i) : imageStep b im (.burstWrite a bytes) = ⟨0xFF, v⟩ := by
  simp [imageStep, hv, hb]

/-- A transaction that does not write a register leaves its image as it was (R74). -/
theorem imageStep_of_not_writes {b : RegAddr} {op : PortOp} (im : ImageByte) (h : op.writes b = false) : imageStep b im op = im := by
  cases op with
  | write a v => exact if_neg (of_decide_eq_false h)
  | field a msb lsb f => exact if_neg (of_decide_eq_false h)
  | burstWrite a bytes =>
    by_cases hstart : a.toNat ≤ b.toNat
    · have hpast : bytes.length ≤ b.toNat - a.toNat := by
        simp only [PortOp.writes, hstart, decide_true, Bool.true_and, decide_eq_false_iff_not] at h
        omega
      simp [imageStep, hpast]
    · exact if_neg hstart
  | _ => rfl

/-! ### A whole trace -/

/-- Settles O48: `chipImage` goes on by `imageStep`, whose cases are the lemmas above. -/
theorem fieldWriteImage : Obligations.FieldWriteImage := by
  refine ⟨fun _ => rfl, ?write, ?burst, ?field, ?other⟩
  case write =>
    intro trace a b v
    rw [chipImage_append_one]
    simp only [imageStep, eq_comm]
  case burst =>
    intro trace a b bytes
    refine ⟨fun i v hv hb => ?_, fun hout => ?_⟩
    · rw [chipImage_append_one, imageStep_burst _ hv hb]
    · rw [chipImage_append_one, imageStep_of_not_writes]
      simp only [PortOp.writes, Bool.and_eq_false_iff, decide_eq_false_iff_not]
      omega
  case field =>
    intro trace a b msb lsb f k hle _ hk
    rw [chipImage_append_one]
    by_cases hab : b = a
    · subst hab
      simpa using And.intro (imageStep_field_value b _ f hle hk) (imageStep_field_known b _ f hle hk)
    · rw [imageStep_of_not_writes _ (by simpa [PortOp.writes] using Ne.symm hab)]
      simp [hab]
  case other =>
    intro trace op b h
    rw [chipImage_append_one, imageStep_of_not_writes _ h]

theorem chipImage_append_of_not_writes {ops : List PortOp} {b : RegAddr} (h : ∀ op ∈ ops, op.writes b = false)
    (trace : List PortOp) : chipImage (trace ++ ops) b = chipImage trace b := by
  rw [chipImage_append]
  induction ops with
  | nil => rfl
  | cons op ops ih =>
    obtain ⟨hop, hops⟩ := List.forall_mem_cons.mp h
    rw [List.foldl_cons, imageStep_of_not_writes _ hop, ih hops]

/-! ### SET_SF -/

/-- SetSpreadingFactor writes the detection registers and a field of REG_MODEM_CONFIG_2, not REG_MODEM_CONFIG_1 (40_config.md R138). -/
theorem sfTraffic_not_modemConfig1 (sf old : BitVec 4) : ∀ op ∈ sfTraffic sf old, op.writes 0x1D = false := by
  unfold sfTraffic
  split
  · exact List.forall_mem_nil _
  · split <;> simp [PortOp.writes]

/-- SET_SF is rejected, or makes SetSpreadingFactor's traffic (40_config.md R139). -/
theorem exec_setSf_trace {s t : State} {sf : Byte} (hu : s.Undisturbed) (h : exec (.setSf sf) s = .next t) :
    t.trace = s.trace ∨ t.trace = s.trace ++ sfTraffic (sf.extractLsb' 0 4) s.curSf := by
  obtain ⟨st, he⟩ | ⟨hlegal, hready, hcheck, -⟩ := exec_cases (.setSf sf) s
  · rw [he] at h; cases h; exact .inl rfl
  · have hrun := exec_quiet hu hlegal (by simpa [readyFor] using hready) hcheck rfl
      (Quiet.call (quiet_sf (sf.extractLsb' 0 4)))
    rw [hrun] at h; cases h; exact .inr rfl

/-- Settles O47: a rejection makes no transaction, and SetSpreadingFactor's do not write REG_MODEM_CONFIG_1. -/
theorem sfChangeKeepsHeaderMode : Obligations.SfChangeKeepsHeaderMode := by
  intro sf s t hu h
  obtain he | he := exec_setSf_trace hu h
  · rw [he]
  · rw [he, chipImage_append_of_not_writes (sfTraffic_not_modemConfig1 _ _)]

end Sys2Proof.Machine
end

