-- ==== Sys2Proof/Proofs/SetMode.lean ====
section
/-! SUPPORT. SET_MODE with a quiet line (41_mode.md R171, R172). -/

namespace Sys2Proof.Machine

/-- The codes of the five real modes are the operands SET_MODE accepts (30_encoding.md R110). -/
theorem modeOfCode_code {m : Mode} (h : m ≠ .unknown) : modeOfCode (m.code.zeroExtend 8) = some m := by
  revert h; cases m <;> decide

/-- Settles O23: SetMode, then the response. -/
theorem setModeResult : Obligations.SetModeResult := by
  intro mode m s hu hd hm hmode
  have hcode : modeOfCode mode = some m := hmode ▸ modeOfCode_code hm
  have hlegal : operandsLegal config (.setMode mode) = true := by simp [operandsLegal, hcode]
  have hbody : commandTasks config (.setMode mode) s = [.modeCheck m] ++ [.respond .ok []] := by
    simp [commandTasks, setModeTasks, hcode]
  rw [exec_quiet hu hlegal (.inl hd) rfl hbody (quiet_mode m)]
  simp [State.respond, abortsTransmit, hu.1]

end Sys2Proof.Machine
end

