-- ==== Sys2Proof/Proofs/Encoding.lean ====
section
/-! SUPPORT. The decoder and the encoder are inverse to each other (30_encoding.md R91 to R100, R118): one lemma says what each answer of
the decoder means for the stream. From it follow what an illegal opcode is (R111) and that a partial command waits (R266). -/

namespace Sys2Proof

open Machine

/-! ### Decoding an encoding -/

/-- CONFIG's operand bytes, taken apart, are the operands they were joined from (30_encoding.md R99). -/
theorem configOfBytes_encode (o : ConfigOperands) :
    configOfBytes (o.bw ++ o.sf) (configByte2 o) o.pre o.sw o.plen
      (o.freq.extractLsb' 24 8) (o.freq.extractLsb' 16 8) (o.freq.extractLsb' 8 8) (o.freq.extractLsb' 0 8)
      (o.tout.extractLsb' 24 8) (o.tout.extractLsb' 16 8) (o.tout.extractLsb' 8 8) (o.tout.extractLsb' 0 8) = o := by
  obtain ⟨hcr, hiq, hfu, hswp, hrsv⟩ := configByte2_fields o
  simp only [configOfBytes, nibble_high, nibble_low, hcr, hiq, hfu, hswp, hrsv, be32_bytes]

/-- TX's length byte holds the payload count, so it tells the payload from the bytes after it (30_encoding.md R100). -/
theorem decode_encode_tx {data : List Byte} (rest : List Byte) (h : data.length ≤ 255) :
    decode (encode (.tx data) ++ rest) = .command (.tx data) rest := by
  have hlen : (BitVec.ofNat 8 data.length).toNat = data.length := Nat.mod_eq_of_lt (by omega)
  simp [encode, decode, decodeOperands, hlen]

/-- Settles O1: the fields of each format, joined by the encoder, are taken apart by the decoder. -/
theorem decodeOfEncode : Obligations.DecodeOfEncode := by
  intro i rest henc
  cases i with
  | config o => exact congrArg (fun o' => Decoded.command (.config o') rest) (configOfBytes_encode o)
  | setBwCr bw cr rsv => simp [encode, decode, decodeOperands, bwCrByte_bw, bwCrByte_cr, bwCrByte_rsv]
  | setPower rsv pwr => simp [encode, decode, decodeOperands, nibble_high, nibble_low]
  | setFreqHz v | setRxTimeout v | setPpm v => simp [encode, decode, decodeOperands, bytes32, be32_bytes]
  | setFreqReg frf => simp [encode, decode, decodeOperands, bytes24, be24_bytes]
  | setHdrCrc rsv hdr crc =>
    simp [encode, decode, decodeOperands, hdrCrcByte_rsv, hdrCrcByte_hdr, hdrCrcByte_crc, -BitVec.getLsbD_eq_getElem]
  | tx data => exact decode_encode_tx rest (of_decide_eq_true henc)
  | begin | armRx | getStats | getFei | setSf b | setSync b | setPreamble b | setMode b => rfl

/-! ### What the decoder can answer -/

/-- The opcodes of Table 5 (30_encoding.md R93). -/
def opcodes : List Byte :=
  [0x01, 0x02, 0x03, 0x04, 0x05, 0x06, 0x07, 0x08, 0x09, 0x0A, 0x0B, 0x0C, 0x10, 0x11, 0x20, 0x21, 0x22]

/-- What an answer of the decoder says of a stream with the opcode `op` and then the bytes `bs`: a command's bytes stand at its head, or
`op` is outside Table 5 and the one byte read, or `op` is in the table and the stream ends too early. -/
def Decoded.Describes (op : Byte) (bs : List Byte) : Decoded → Prop
  | .command i rest => i.encodable = true ∧ op :: bs = encode i ++ rest
  | .illegalOpcode op' rest => op' = op ∧ rest = bs ∧ op ∉ opcodes
  | .incomplete => op ∈ opcodes

/-- CONFIG's operands, joined again, are the bytes they were taken from (30_encoding.md R99). -/
theorem encode_configOfBytes (b1 b2 b3 b4 b5 b6 b7 b8 b9 b10 b11 b12 b13 : Byte) :
    encode (.config (configOfBytes b1 b2 b3 b4 b5 b6 b7 b8 b9 b10 b11 b12 b13)) =
      [0x02, b1, b2, b3, b4, b5, b6, b7, b8, b9, b10, b11, b12, b13] := by
  simp [encode, configOfBytes, configByte2, nibbles, configByte2_join, bytes32_be, -BitVec.getLsbD_eq_getElem]

/-- The payload that TX's length byte delimits, encoded again: as many bytes as it says, so the length byte is the same. -/
theorem encode_tx_take {l : Byte} {bs : List Byte} (h : l.toNat ≤ bs.length) :
    (Instr.tx (bs.take l.toNat)).encodable = true ∧
      0x10 :: l :: bs = encode (.tx (bs.take l.toNat)) ++ bs.drop l.toNat := by
  have hl := l.isLt
  have hlen : (bs.take l.toNat).length = l.toNat := List.length_take_of_le h
  exact ⟨decide_eq_true (by omega), by simp [encode, hlen]⟩

/-- Every branch of the decoder: a format's fields, joined by the encoder, are the bytes the branch took. -/
theorem decodeOperands_describes (op : Byte) (bs : List Byte) : (decodeOperands op bs).Describes op bs := by
  fun_cases decodeOperands op bs
  -- CONFIG, with its thirteen operand bytes
  case case2 hop _ _ _ _ _ _ _ _ _ _ _ _ _ _ => exact ⟨rfl, by rw [hop, encode_configOfBytes]; rfl⟩
  -- TX, with its payload
  case case24 hop _ _ hlen => exact hop ▸ encode_tx_take hlen
  -- an opcode that is none of Table 5's
  case case32 => exact ⟨rfl, rfl, by simp_all [opcodes]⟩
  -- the other commands, whole, and every command cut short
  all_goals
    simp [*, Decoded.Describes, opcodes, Instr.encodable, encode, bwCrByte, nibbles, bytes24_be, bytes32_be, hdrCrcByte,
      -BitVec.getLsbD_eq_getElem]

theorem decode_describes (op : Byte) (bs : List Byte) : (decode (op :: bs)).Describes op bs := decodeOperands_describes op bs

theorem decodeOperands_of_not_mem {op : Byte} (h : op ∉ opcodes) (bs : List Byte) :
    decodeOperands op bs = .illegalOpcode op bs := by
  simp only [opcodes, List.mem_cons, List.not_mem_nil, or_false, not_or] at h
  simp only [decodeOperands, h, if_false]

/-- Settles O2: the joined fields of each format are the bytes they were taken from. -/
theorem decodedBytesAreTheEncoding : Obligations.DecodedBytesAreTheEncoding := by
  intro bs i rest hdec
  cases bs with
  | nil => cases hdec
  | cons op bs =>
    have hdescribes := decode_describes op bs
    rwa [hdec] at hdescribes

theorem decode_illegal_iff (op : Byte) (bs : List Byte) :
    decode (op :: bs) = .illegalOpcode op bs ↔ op ∉ opcodes := by
  refine ⟨fun hdec => ?_, fun h => decodeOperands_of_not_mem h bs⟩
  have hdescribes := decode_describes op bs
  rw [hdec] at hdescribes
  obtain ⟨-, -, hop⟩ := hdescribes
  exact hop

/-- The opcode byte of an encoding is in Table 5 (30_encoding.md R93). -/
theorem opcode_mem_of_encode {i : Instr} {op : Byte} {bs : List Byte} (h : encode i = op :: bs) : op ∈ opcodes := by
  cases i <;> cases h <;> decide

/-- Settles O3: a command held whole by the first bytes would be read from all of them too, with bytes left over. -/
theorem partialCommandIsIncomplete : Obligations.PartialCommandIsIncomplete := by
  intro i bs more henc hsplit hmore
  cases bs with
  | nil => rfl
  | cons op bs =>
    have hwhole : decode (op :: bs ++ more) = .command i [] := by
      rw [← hsplit, ← List.append_nil (encode i)]; exact decodeOfEncode i [] henc
    have hdescribes := decode_describes op bs
    cases hdec : decode (op :: bs) with
    | incomplete => rfl
    | illegalOpcode op' rest =>
      rw [hdec] at hdescribes
      obtain ⟨-, -, hop⟩ := hdescribes
      exact absurd (opcode_mem_of_encode hsplit) hop
    | command j rest =>
      rw [hdec] at hdescribes
      obtain ⟨henc', hbytes⟩ := hdescribes
      rw [hbytes, List.append_assoc, decodeOfEncode j _ henc'] at hwhole
      simp [hmore] at hwhole

/-! ### Illegal opcodes and partial commands at a command boundary -/

/-- The opcodes outside Table 5, as R111 lists them. -/
theorem not_mem_opcodes_iff (op : Byte) : op ∉ opcodes ↔
    op = 0x00 ∨ (0x0D ≤ op.toNat ∧ op.toNat ≤ 0x0F) ∨ (0x12 ≤ op.toNat ∧ op.toNat ≤ 0x1F) ∨ 0x23 ≤ op.toNat := by
  revert op; decide

/-- With no interrupt to take, a step rejects the illegal opcode at the head of the stream (60_exceptions.md R218). -/
theorem step_of_illegalOpcode {s : State} {op : Byte} {rest : List Byte} (hrest : s.atRest = true)
    (hirq : s.sampleIrq.irqPending = false) (hdec : decode s.cmdStream = .illegalOpcode op rest) :
    step s = .next (rejectOpcode rest s.sampleIrq) := by
  simp [step, boundaryStep, hrest, hirq, hdec]

/-- Settles O7: the illegal opcodes are those outside the table, and the step rejects the one byte read. -/
theorem illegalOpcode : Obligations.IllegalOpcode := by
  intro op rest
  refine ⟨(decode_illegal_iff op rest).trans (not_mem_opcodes_iff op), fun s hrest hirq hstream hdec => ?_⟩
  rw [step_of_illegalOpcode hrest hirq (hstream ▸ hdec)]
  simp [rejectOpcode, State.reject]

/-- Settles O9: nothing is decoded, so the sampled state is the answer. -/
theorem partialStreamWaits : Obligations.PartialStreamWaits := by
  intro s hrest hirq hdec
  simp [step, boundaryStep, hrest, hirq, hdec]

/-! ### Words written out -/

/-- Settles O4: the decoder run on each word. -/
theorem wordsDecode : Obligations.WordsDecode := by
  unfold Obligations.WordsDecode
  decide

end Sys2Proof
end

