-- ==== Sys2Proof/Proofs/Checks.lean ====
section
/-! SUPPORT. The checks before a command runs: which operands are legal (30_encoding.md R96 to R100, R107 to R110), and the order of the
checks with what a rejection writes (R113, 60_exceptions.md R220). -/

namespace Sys2Proof.Machine

variable {s : State}

/-! ### Legal operands -/

theorem bwLegal_iff (bw : BitVec 4) : bwLegal bw = true ↔ bw.toNat ≤ 9 := by simp [bwLegal]

theorem crLegal_iff (cr : BitVec 3) : crLegal cr = true ↔ 1 ≤ cr.toNat ∧ cr.toNat ≤ 4 := by simp [crLegal]

theorem sfLegal_iff (sf : Nat) : sfLegal sf = true ↔ 6 ≤ sf ∧ sf ≤ 12 := by simp [sfLegal]

/-- The bound in Hz that the default parameters give (30_encoding.md R98, 40_config.md R152). -/
theorem hzLegal_config_iff (hz : BitVec 32) : hzLegal config hz = true ↔ hz.toNat ≤ 1023999999 := by
  have hreg : freqToReg config hz.toNat = hz.toNat * 2 ^ 19 / 32000000 := rfl
  rw [hzLegal, decide_eq_true_eq, hreg]
  omega

theorem modeOfCode_isSome_iff (mode : Byte) : (modeOfCode mode).isSome = true ↔ mode ∈ ([0, 1, 3, 5, 6] : List Byte) := by
  revert mode; decide

/-- FREQ[31:24] is 0 exactly for a 24-bit register value (30_encoding.md R99). -/
theorem freqHigh_eq_zero_iff (freq : BitVec 32) : freq.extractLsb' 24 8 = 0 ↔ freq.toNat < 2 ^ 24 := by
  have hlt := freq.isLt
  have hval : (freq.extractLsb' 24 8).toNat = freq.toNat / 2 ^ 24 % 2 ^ 8 := by
    rw [BitVec.extractLsb'_toNat, Nat.shiftRight_eq_div_pow]
  rw [← BitVec.toNat_inj, hval, show (0 : Byte).toNat = 0 from rfl]
  omega

theorem configLegal_iff (o : ConfigOperands) : configLegal config o = true ↔
    o.bw.toNat ≤ 9 ∧ 6 ≤ o.sf.toNat ∧ o.sf.toNat ≤ 12 ∧ 1 ≤ o.cr.toNat ∧ o.cr.toNat ≤ 4 ∧ o.rsv = 0 ∧
      (o.swp = false → o.sw = 0) ∧ o.plen ≠ 0 ∧ (o.fu = false → o.freq.toNat < 2 ^ 24) ∧
      (o.fu = true → o.freq.toNat ≤ 1023999999) := by
  have hsync : (o.swp || decide (o.sw = 0)) = true ↔ (o.swp = false → o.sw = 0) := by cases o.swp <;> simp
  have hfreq : (if o.fu then hzLegal config o.freq else decide (o.freq.extractLsb' 24 8 = 0)) = true ↔
      (o.fu = false → o.freq.toNat < 2 ^ 24) ∧ (o.fu = true → o.freq.toNat ≤ 1023999999) := by
    cases o.fu
    · simpa using freqHigh_eq_zero_iff o.freq
    · simpa using hzLegal_config_iff o.freq
  simp only [configLegal, Bool.and_eq_true, bwLegal_iff, sfLegal_iff, crLegal_iff, hsync, hfreq, decide_eq_true_eq, and_assoc]

/-- Settles O5: each clause is the check of its operand. -/
theorem legalOperands : Obligations.LegalOperands := by
  refine ⟨?bwCr, ?sf, ?power, hzLegal_config_iff, ?hdrCrc, modeOfCode_isSome_iff, ?tx, configLegal_iff, ?always⟩
  case bwCr =>
    intro bw cr rsv
    simp only [operandsLegal, Bool.and_eq_true, bwLegal_iff, crLegal_iff, decide_eq_true_eq, and_assoc]
  case sf => exact fun sf => sfLegal_iff sf.toNat
  case power => exact fun rsv pwr => decide_eq_true_iff
  case hdrCrc => exact fun rsv hdr crc => decide_eq_true_iff
  case tx => intro data; simp only [operandsLegal, Bool.and_eq_true, decide_eq_true_eq]
  case always =>
    intro i hi
    cases i with
    | begin | setSync b | setPreamble b | setFreqReg v | setRxTimeout v | armRx | getStats | getFei | setPpm v => rfl
    | _ => simp [mnemonic] at hi

/-! ### The order of the checks -/

/-- Check 2 (60_exceptions.md R219). -/
theorem exec_illegalOperand {i : Instr} (h : operandsLegal config i = false) :
    exec i s = .next (s.reject .illegalOperand) := by
  simp [exec_eq, command, h]

/-- Check 3 (60_exceptions.md R217): every command but BEGIN needs detection. -/
theorem exec_notReady {i : Instr} (hl : operandsLegal config i = true) (hd : s.detected = false) (hi : i ≠ .begin) :
    exec i s = .next (s.reject .notReady) := by
  simp [exec_eq, command, readyFor, hl, hd, hi]

/-- Check 4 (60_exceptions.md R220). -/
theorem exec_stateCheck {i : Instr} {st : Status} (hl : operandsLegal config i = true) (hd : s.detected = true)
    (hcheck : stateCheck i s = some st) : exec i s = .next (s.reject st) := by
  simp [exec_eq, command, readyFor, hl, hd, hcheck]

/-- Settles O10: each clause is the first of the checks that fails. -/
theorem checkOrder : Obligations.CheckOrder := by
  intro i s reject
  refine ⟨exec_illegalOperand, exec_notReady, ?ppm, ?fei, ?rxTimeout⟩
  case ppm =>
    rintro off rfl hd hfreq
    exact exec_stateCheck rfl hd (if_pos hfreq)
  case fei =>
    rintro rfl hd hbw
    exact exec_stateCheck rfl hd (if_pos hbw)
  case rxTimeout =>
    rintro us rfl hd hus hcache
    exact exec_stateCheck rfl hd (if_pos ⟨hus, hcache⟩)

end Sys2Proof.Machine
end

