-- ==== Sys2Proof/Proofs/Telemetry.lean ====
section
/-! SUPPORT. GET_FEI and SET_PPM with a quiet line (43_telemetry.md R197 to R200). -/

namespace Sys2Proof.Machine

/-! ### GET_FEI -/

/-- The 20-bit two's-complement reading of the three bytes (43_telemetry.md R198). -/
theorem feiDecode_eq (b0 b1 b2 : Byte) :
    feiDecode b0 b1 b2 =
      ((b0.toNat % 16 * 2 ^ 16 + b1.toNat * 2 ^ 8 + b2.toNat : Nat) : Int) - (if b0.getLsbD 3 then 2 ^ 20 else 0) := by
  have hsign : b0.getLsbD 3 = decide (8 ≤ b0.toNat % 16) := by revert b0; decide
  have h1 := b1.isLt
  have h2 := b2.isLt
  have hraw : (b0.extractLsb' 0 4 ++ b1 ++ b2).toNat = b0.toNat % 16 * 2 ^ 16 + b1.toNat * 2 ^ 8 + b2.toNat := by
    simp only [BitVec.toNat_append, BitVec.extractLsb'_toNat, Nat.shiftRight_zero]
    rw [← Nat.shiftLeft_add_eq_or_of_lt h1, ← Nat.shiftLeft_add_eq_or_of_lt h2]
    simp only [Nat.shiftLeft_eq]
    omega
  unfold feiDecode
  rw [BitVec.toInt_eq_toNat_cond, hraw, hsign]
  simp only [decide_eq_true_eq]
  split <;> split <;> omega

/-- An arithmetic shift is a division rounding down (43_telemetry.md R197). -/
theorem feiHz_eq_div (c : Config) (bw : BitVec 4) (fei : Int) :
    feiHz c bw fei = fei / 8 * c.feiNorm.getD bw.toNat 0 / 16 := by
  rw [feiHz, Int.shiftRight_eq_div_pow, Int.shiftRight_eq_div_pow]
  rfl

theorem feiNorm_range (bw : BitVec 4) : 0 ≤ config.feiNorm.getD bw.toNat 0 ∧ config.feiNorm.getD bw.toNat 0 ≤ 1026 := by
  revert bw; decide

/-- A 20-bit error divided by 8, times at most 1026, divided by 16 fits 32 bits. -/
theorem feiHz_fits {fei : Int} (bw : BitVec 4) (hlow : -2 ^ 19 ≤ fei) (hhigh : fei < 2 ^ 19) :
    (BitVec.ofInt 32 (feiHz config bw fei)).toInt = feiHz config bw fei := by
  obtain ⟨hnorm, hnorm'⟩ := feiNorm_range bw
  rw [feiHz_eq_div]
  generalize config.feiNorm.getD bw.toNat 0 = norm at *
  have hquot : -65536 ≤ fei / 8 ∧ fei / 8 ≤ 65535 := by omega
  have hprod : -65536 * 1026 ≤ fei / 8 * norm ∧ fei / 8 * norm ≤ 65535 * 1026 := by constructor <;> nlinarith
  exact BitVec.toInt_ofInt_eq_self (by decide) (by omega) (by omega)

/-- Settles O27: the burst read, then the result register and the response computed from its bytes. -/
theorem getFeiResult : Obligations.GetFeiResult := by
  intro s b0 b1 b2 fei hz hu hd hbw hbytes hfei hhz
  have hvalue : feiHz config s.curBw (feiDecode b0 b1 b2) = hz := by
    rw [feiDecode_eq, ← hfei, feiHz_eq_div, hhz, Int.fdiv_eq_ediv_of_nonneg _ (by decide),
      Int.fdiv_eq_ediv_of_nonneg _ (by decide)]
  have hcheck : stateCheck .getFei s = none := (feiCheck_none s).mpr hbw
  refine ⟨hvalue ▸ feiHz_fits s.curBw (BitVec.le_toInt _) BitVec.toInt_lt, ?_⟩
  have hcalm : ((s.drawMany 3).record (.burstRead config.regs.feiMsb 3 [b0, b1, b2])).Calm := by simpa using hu.2
  have hafter : afterFeiTasks config [b0, b1, b2] s =
      [.regWrite (.lastFeiHz (.ofInt 32 hz))] ++ [.respond .ok (bytes32 (.ofInt 32 hz))] := by
    simp [afterFeiTasks, hvalue]
  rw [exec_tasks rfl (.inl hd) hcheck, commandTasks, runTasks_readFei hu.2, hbytes, hafter,
    List.append_nil, (Quiet.regWrite _).finish hcalm]
  simp [RegWrite.apply, State.record, State.respond, config, regMap, drawMany_eq, hu.1]

/-! ### SET_PPM -/

/-- Settles O28: the write of the PPM register, the result register and the response, with a quotient that saturates within 8 bits. -/
theorem setPpmResult : Obligations.SetPpmResult := by
  intro off s ppm hu hd hfreq hppm
  have hvalue : ppmFromHz config off.toInt s.freqHz.toNat = ppm := hppm.symm
  have hcheck : stateCheck (.setPpm off) s = none := (ppmCheck_none s).mpr hfreq
  refine ⟨BitVec.toInt_ofInt_eq_self (by decide) (by omega) (by omega), ?_⟩
  have hbody : commandTasks config (.setPpm off) s =
      [.portWrite config.regs.ppmCorrection (.ofInt 8 ppm), .regWrite (.lastPpm (.ofInt 8 ppm))]
        ++ [.respond .ok [.ofInt 8 ppm]] := by
    simp [commandTasks, ppmTasks, hvalue]
  rw [exec_quiet hu rfl (.inl hd) hcheck hbody ((Quiet.portWrite _ _).cons (Quiet.regWrite _))]
  simp [RegWrite.apply, State.record, State.respond, config, regMap, hu.1]

end Sys2Proof.Machine
end

