-- ==== Sys2Proof/Proofs/SyncWord.lean ====
section
/-! SUPPORT. The sync-word substitution (40_config.md R132, R140): the scan stops at the first permitted word at or above the request, wrapping
at 8 bits. With 255 permitted it does not wrap, so the word is the smallest permitted one that is not below the request. -/

namespace Sys2Proof.Machine

variable {allowed : List Byte}

/-- The scan ends in a permitted word as soon as it has steps enough to reach one, past the wrap too. -/
theorem syncScan_mem {v : Byte} (hv : v ∈ allowed) (n : Nat) : ∀ w : Byte, (v - w).toNat < n → syncScan allowed n w ∈ allowed := by
  induction n with
  | zero => intro w hn; omega
  | succ n ih =>
    intro w hn
    rw [syncScan]
    split
    · assumption
    · rename_i hw
      have hne : v ≠ w := fun e => hw (e ▸ hv)
      exact ih (w + 1) (by bv_omega)

/-- The scan never goes below its start, nor past a permitted word that is not below its start. -/
theorem syncScan_bounds {v : Byte} (hv : v ∈ allowed) (n : Nat) : ∀ w : Byte, w.toNat ≤ v.toNat →
    w.toNat ≤ (syncScan allowed n w).toNat ∧ (syncScan allowed n w).toNat ≤ v.toNat := by
  induction n with
  | zero => exact fun w hle => ⟨le_rfl, hle⟩
  | succ n ih =>
    intro w hle
    rw [syncScan]
    split
    · exact ⟨le_rfl, hle⟩
    · rename_i hw
      have hne : v ≠ w := fun e => hw (e ▸ hv)
      have hnext : (w + 1).toNat = w.toNat + 1 := by bv_omega
      obtain ⟨hlow, hhigh⟩ := ih (w + 1) (by bv_omega)
      exact ⟨by omega, hhigh⟩

theorem syncSubstitute_bounds {v req : Byte} (hv : v ∈ allowed) (hle : req.toNat ≤ v.toNat) :
    req.toNat ≤ (syncSubstitute allowed req).toNat ∧ (syncSubstitute allowed req).toNat ≤ v.toNat :=
  syncScan_bounds hv 256 req hle

/-- A word that is permitted, not below the request, and the smallest such, is the word the scan ends in. -/
theorem syncSubstitute_eq_of_least {req w : Byte} (hmem : syncSubstitute allowed req ∈ allowed) (hw : w ∈ allowed)
    (hle : req.toNat ≤ w.toNat) (hleast : ∀ v ∈ allowed, req.toNat ≤ v.toNat → w.toNat ≤ v.toNat) :
    syncSubstitute allowed req = w := by
  obtain ⟨hlow, hhigh⟩ := syncSubstitute_bounds hw hle
  exact BitVec.eq_of_toNat_eq (le_antisymm hhigh (hleast _ hmem hlow))

/-- A permitted request is programmed as it is. -/
theorem syncSubstitute_of_mem {req : Byte} (h : req ∈ allowed) : syncSubstitute allowed req = req := if_pos h

/-- The table's last word, which keeps the scan from wrapping (40_config.md R132). -/
theorem allOnes_mem_syncAllowed : 255 ∈ config.syncAllowed := by decide

/-- Settles O51: 255 is permitted, so the bounds hold of every request; and 256 steps reach every byte from every other. -/
theorem smallestPermittedSyncWord : Obligations.SmallestPermittedSyncWord := by
  refine ⟨rfl, fun req => ⟨syncSubstitute_mem req, ?atLeast, ?least⟩, ?anyList⟩
  case atLeast => exact (syncSubstitute_bounds allOnes_mem_syncAllowed (Nat.le_of_lt_succ req.isLt)).1
  case least => exact fun v hv hle => (syncSubstitute_bounds hv hle).2
  case anyList =>
    intro allowed req hne
    obtain ⟨v, hv⟩ := List.exists_mem_of_ne_nil allowed hne
    exact syncScan_mem hv 256 req (v - req).isLt

end Sys2Proof.Machine
end

