-- ==== Sys2Proof/Proofs/Frequency.lean ====
section
/-! SUPPORT. The two frequency conversions at the default parameters (40_config.md R152), and what their round trip loses. -/

namespace Sys2Proof.Machine

theorem freqToReg_config (hz : Nat) : freqToReg config hz = hz * 2 ^ 19 / 32000000 := rfl

theorem regToHz_config (frf : Nat) : regToHz config frf = frf * 32000000 / 2 ^ 19 := rfl

/-- A register unit is 32000000 / 2^19, a little more than 61 Hz: rounding down to it and then to a whole Hz loses at most 62 Hz. -/
theorem roundTrip_bounds (hz : Nat) : regToHz config (freqToReg config hz) ≤ hz ∧
    hz ≤ regToHz config (freqToReg config hz) + 62 := by
  rw [freqToReg_config, regToHz_config]
  omega

/-- Settles O49: the operand check is the bound on the register value. -/
theorem frequencyRoundTrip : Obligations.FrequencyRoundTrip := by
  intro hz hlegal
  exact ⟨of_decide_eq_true hlegal, roundTrip_bounds hz.toNat⟩

/-- Refutes O50: 3479 Hz goes to 56 register units, and these are 3417 Hz (log 27). -/
theorem not_frequencyRoundTripBelow62 : ¬ Obligations.FrequencyRoundTripBelow62 := by
  intro h
  have hlegal : operandsLegal config (.setFreqHz 3479) = true := by decide
  have hreg : freqToReg config (3479 : BitVec 32).toNat = 56 := by decide
  have hback : regToHz config 56 = 3417 := by decide
  have hloss : (3479 : BitVec 32).toNat < regToHz config (freqToReg config (3479 : BitVec 32).toNat) + 62 := h 3479 hlegal
  rw [hreg, hback] at hloss
  exact absurd hloss (by decide)

end Sys2Proof.Machine
end

