-- ==== Sys2Proof/Proofs/Setters.lean ====
section
/-! SUPPORT. The standalone setters with a quiet line (40_config.md R136 to R151): each is one procedure, then the response. -/

namespace Sys2Proof.Machine

variable {s s' : State}

/-- A command that passes its checks and answers OK: the effect of its tasks, STATUS and the response. The command boundary it started
from is the one it ends at. -/
theorem exec_ok {i : Instr} {ts : List Task} (hu : s.Undisturbed) (hl : operandsLegal config i = true)
    (hd : s.detected = true ∨ i = .begin) (hcheck : stateCheck i s = none)
    (hb : commandTasks config i s = ts ++ [.respond .ok []]) (hq : Quiet config ts s s') (hseq : s'.seq = s.seq) :
    exec i s = .next { s' with status := .ok, responses := s'.responses ++ [⟨.ok, []⟩] } := by
  rw [exec_quiet hu hl hd hcheck hb hq, State.respond, ← hu.1, ← hseq]

/-- SetMode(STANDBY) aborts exactly a transmit in flight (10_state.md R46). -/
@[simp] theorem abortsTransmit_standby (s : State) : abortsTransmit .standby s = decide (s.curMode = .transmit) := by
  simp [abortsTransmit]

/-- Settles O14: SetBandwidthCodingRate. -/
theorem setBwCrResult : Obligations.SetBwCrResult := fun bw cr _ hu hd hl =>
  exec_ok hu hl (.inl hd) rfl rfl (.call (quiet_bwCr bw cr)) rfl

/-- Settles O15: SetSpreadingFactor, with the low four bits of the operand, which hold every legal factor. -/
theorem setSfResult : Obligations.SetSfResult := by
  intro sf s hu hd hlow hhigh
  have hlegal : operandsLegal config (.setSf sf) = true := (sfLegal_iff _).mpr ⟨hlow, hhigh⟩
  have hfactor : sf.extractLsb' 0 4 = sf.truncate 4 := (BitVec.setWidth_eq_extractLsb' (by decide)).symm
  rw [← hfactor]
  exact exec_ok hu hlegal (.inl hd) rfl rfl (.call (quiet_sf _)) rfl

/-- Settles O16: SetSyncWord, whose scan ends in the smallest permitted word that is not below the request. -/
theorem setSyncResult : Obligations.SetSyncResult := by
  intro req w s hu hd hw hle hleast
  have hscan : syncSubstitute config.syncAllowed req = w := syncSubstitute_eq_of_least (syncSubstitute_mem req) hw hle hleast
  rw [← hscan]
  exact exec_ok hu rfl (.inl hd) rfl rfl (.call (quiet_sync req)) rfl

/-- Settles O17: SetPreambleLength. -/
theorem setPreambleResult : Obligations.SetPreambleResult := fun n _ hu hd =>
  exec_ok hu rfl (.inl hd) rfl rfl (.call (quiet_preamble n)) rfl

/-- Settles O18: the elision comes before the forced STANDBY. -/
theorem setPowerResult : Obligations.SetPowerResult := by
  intro pwr s hu hd
  refine ⟨fun hsame => ?elided, fun hnew => ?written⟩
  case elided => exact exec_ok hu rfl (.inl hd) rfl rfl (.call (quiet_power_elided pwr hsame)) rfl
  case written =>
    rw [exec_ok hu rfl (.inl hd) rfl rfl (.call (quiet_power pwr hnew)) rfl, abortsTransmit_standby]
    rfl

/-- Settles O19: SetFrequencyHz. -/
theorem setFreqHzResult : Obligations.SetFreqHzResult := by
  rintro hz frf s hu hd hbound rfl
  have hlegal : operandsLegal config (.setFreqHz hz) = true := (hzLegal_config_iff hz).mpr hbound
  rw [exec_ok hu hlegal (.inl hd) rfl rfl (.call (quiet_freqHz hz)) rfl, abortsTransmit_standby,
    freqToReg_config]

/-- Settles O20: SetFrequencyReg. -/
theorem setFreqRegResult : Obligations.SetFreqRegResult := by
  intro frf s hu hd
  rw [exec_ok hu rfl (.inl hd) rfl rfl (.call (quiet_freqReg frf)) rfl, abortsTransmit_standby, regToHz_config]

/-- The count of a timeout that is not 0 is clamped to at least 1, and 10 bits hold it (40_config.md R146). -/
theorem timeoutCount_ne_zero {us : BitVec 32} (sf bw : BitVec 4) (h : us ≠ 0) : timeoutCount sf bw us ≠ 0 := by
  rw [timeoutCount, if_neg h]
  generalize us.toNat / _ = quotient
  bv_omega

/-- Settles O21: SetRxTimeoutUs, where the state check passes. -/
theorem setRxTimeoutResult : Obligations.SetRxTimeoutResult := by
  rintro us n s hu hd hready rfl
  have hcheck : stateCheck (.setRxTimeout us) s = none := (rxTimeoutCheck_none us s).mpr hready
  exact ⟨timeoutCount_ne_zero _ _, exec_ok hu rfl (.inl hd) hcheck rfl (.call (quiet_rxTimeout us)) rfl⟩

/-- Settles O22: the two register writes. -/
theorem setHdrCrcResult : Obligations.SetHdrCrcResult := fun hdr crc _ hu hd =>
  exec_ok hu rfl (.inl hd) rfl rfl ((Quiet.regWrite (.headerExpl hdr)).cons (Quiet.regWrite (.crcEn crc))) rfl

end Sys2Proof.Machine
end

