-- ==== Sys2Proof/Proofs/Configuration.lean ====
section
/-! SUPPORT. CONFIG with a quiet line (40_config.md R135): the whole next state, and that a second CONFIG with the same bandwidth and coding
rate leaves REG_MODEM_CONFIG_1 alone (R136). -/

namespace Sys2Proof.Machine

variable {s : State}

/-! ### The whole command -/

@[simp] theorem modeTraffic_self (m : Mode) : modeTraffic m m = [] := if_pos rfl

/-- CONFIG up to BASELINE, whose own SetMode finds STANDBY (40_config.md R134, R135). -/
theorem quiet_config_baseline (o : ConfigOperands) (req : Byte) : Quiet config
    [.modeCheck .standby, .regWrite (.payloadLen o.plen), .regWrite (.iqInvert o.iq), .call (.baseline o.pre req)] s
    { s with
      curMode := .standby
      faultAbort := s.faultAbort || decide (s.curMode = .transmit)
      payloadLen := o.plen
      iqInvert := o.iq
      curPre := ⟨true, o.pre⟩
      curSync := ⟨true, syncSubstitute config.syncAllowed req⟩
      events := s.events ++ syncLog req (syncSubstitute config.syncAllowed req)
      trace := s.trace ++ modeTraffic .standby s.curMode
        ++ baselineTraffic o.pre (syncSubstitute config.syncAllowed req) o.plen o.iq s } :=
  ((quiet_mode _).cons ((Quiet.regWrite _).cons ((Quiet.regWrite _).cons (Quiet.call (quiet_baseline o.pre req))))).of_eq
    (by simp [RegWrite.apply, baselineTraffic])

/-- CONFIG's frequency step, in either unit, once the mode is STANDBY: its SetMode does nothing more (40_config.md R148, R149). -/
theorem quiet_config_frequency_standby {o : ConfigOperands} {frf : BitVec 24} {hz : BitVec 32} (hmode : s.curMode = .standby)
    (hfrf : frf = (if o.fu then BitVec.ofNat 24 (o.freq.toNat * 2 ^ 19 / 32000000) else o.freq.extractLsb' 0 24))
    (hhz : hz = (if o.fu then o.freq else BitVec.ofNat 32 (frf.toNat * 32000000 / 2 ^ 19))) :
    Quiet config [.call (if o.fu then .setFreqHz o.freq else .setFreqReg (o.freq.extractLsb' 0 24))] s
      { s with freqHz := hz, freqReg := frf, trace := s.trace ++ freqTraffic frf } := by
  cases hfu : o.fu
  · simp only [hfu, Bool.false_eq_true, if_false] at hfrf hhz ⊢
    rw [hhz, ← regToHz_config, hfrf]
    exact (Quiet.call (quiet_freqReg _)).of_eq (by simp [hmode])
  · simp only [hfu, if_true] at hfrf hhz ⊢
    rw [hhz, hfrf, ← freqToReg_config]
    exact (Quiet.call (quiet_freqHz _)).of_eq (by simp [hmode])

/-- Settles O13: the chain of CONFIG's procedures; each meets its own cache as the command found it. -/
theorem configResult : Obligations.ConfigResult := by
  rintro o s req w frf hz n hu hd hl hreq rfl hfrf hhz rfl
  have hsync : configSync config o s = req := hreq.symm
  have hbody : commandTasks config (.config o) s =
      ([.modeCheck .standby, .regWrite (.payloadLen o.plen), .regWrite (.iqInvert o.iq), .call (.baseline o.pre req)]
        ++ [.call (.setSf o.sf), .call (.setBwCr o.bw o.cr),
          .call (if o.fu then .setFreqHz o.freq else .setFreqReg (o.freq.extractLsb' 0 24)), .call (.setRxTimeout o.tout)])
        ++ [.respond .ok []] := by
    rw [← hsync]; rfl
  exact exec_ok hu hl (.inl hd) rfl hbody ((quiet_config_baseline o req).append ((Quiet.call (quiet_sf o.sf)).cons
    ((Quiet.call (quiet_bwCr o.bw o.cr)).cons ((quiet_config_frequency_standby rfl hfrf hhz).cons
    (Quiet.call (quiet_rxTimeout o.tout)))))) rfl

/-! ### A second CONFIG -/

/-- CONFIG's traffic from the state `s`, with the permitted sync word `w` and the frequency `frf` in register units. -/
def configTraffic (o : ConfigOperands) (w : Byte) (frf : BitVec 24) (s : State) : List PortOp :=
  modeTraffic .standby s.curMode ++ baselineTraffic o.pre w o.plen o.iq s ++ sfTraffic o.sf s.curSf
    ++ bwCrTraffic o.bw o.cr o.sf s ++ freqTraffic frf ++ timeoutTraffic o.tout (timeoutCount o.sf o.bw o.tout)

/-- CONFIG completes at a command boundary with a quiet line, the chip still detected, its bandwidth and coding rate cached. -/
theorem exec_config_traffic {o : ConfigOperands} (hu : s.Undisturbed) (hd : s.detected = true)
    (hl : operandsLegal config (.config o) = true) :
    ∃ t w frf, exec (.config o) s = .next t ∧ t.Undisturbed ∧ t.detected = true ∧ t.curBw = o.bw ∧ t.curCr = o.cr ∧
      t.trace = s.trace ++ configTraffic o w frf s :=
  ⟨_, syncSubstitute config.syncAllowed (configSync config o s),
    if o.fu then BitVec.ofNat 24 (o.freq.toNat * 2 ^ 19 / 32000000) else o.freq.extractLsb' 0 24,
    configResult o s (configSync config o s) _ _ _ _ hu hd hl rfl rfl rfl rfl rfl, hu, hd, rfl, rfl,
    by simp only [configTraffic, List.append_assoc]⟩

/-- BASELINE's traffic writes other registers than REG_MODEM_CONFIG_1 (40_config.md R134). -/
theorem baselineTraffic_not_modemConfig1 (pre w plen : Byte) (iq : Bool) (s : State) :
    ∀ op ∈ baselineTraffic pre w plen iq s, op.writes 0x1D = false := by
  have herrata : ∀ op ∈ errataTraffic s.curBw, op.writes 0x1D = false := by
    unfold errataTraffic; split <;> simp [PortOp.writes]
  have hpreamble : ∀ op ∈ preambleTraffic pre s.curPre, op.writes 0x1D = false := by
    unfold preambleTraffic; split <;> simp [PortOp.writes]
  have hsyncWord : ∀ op ∈ syncTraffic w s.curSync, op.writes 0x1D = false := by
    unfold syncTraffic; split <;> simp [PortOp.writes]
  simp only [baselineTraffic, List.forall_mem_append]
  exact ⟨⟨⟨⟨by simp [PortOp.writes], herrata⟩, hpreamble⟩, hsyncWord⟩, by simp [PortOp.writes]⟩

/-- With its bandwidth and coding rate cached already, CONFIG does not write REG_MODEM_CONFIG_1 (40_config.md R136). -/
theorem configTraffic_not_modemConfig1 {o : ConfigOperands} (w : Byte) (frf : BitVec 24) (hbw : s.curBw = o.bw)
    (hcr : s.curCr = o.cr) : ∀ op ∈ configTraffic o w frf s, op.writes 0x1D = false := by
  have hmode : ∀ op ∈ modeTraffic .standby s.curMode, op.writes 0x1D = false := by
    unfold modeTraffic; split <;> simp [PortOp.writes]
  have hbwCr : bwCrTraffic o.bw o.cr o.sf s = [] := if_pos ⟨hbw, hcr⟩
  have hfreq : ∀ op ∈ freqTraffic frf, op.writes 0x1D = false := by simp [freqTraffic, PortOp.writes]
  have htimeout : ∀ op ∈ timeoutTraffic o.tout (timeoutCount o.sf o.bw o.tout), op.writes 0x1D = false := by
    unfold timeoutTraffic; split <;> simp [PortOp.writes]
  simp only [configTraffic, hbwCr, List.append_nil, List.forall_mem_append]
  exact ⟨⟨⟨⟨hmode, baselineTraffic_not_modemConfig1 _ _ _ _ s⟩, sfTraffic_not_modemConfig1 _ _⟩, hfreq⟩, htimeout⟩

/-- Settles O46: the first CONFIG leaves its bandwidth and coding rate in the caches, and the second finds them there. -/
theorem configTwice : Obligations.ConfigTwice := by
  intro o o' s hu hd hl hl' hbw hcr
  obtain ⟨t, -, -, ht, hu_t, hd_t, hbw_t, hcr_t, -⟩ := exec_config_traffic hu hd hl
  obtain ⟨u, w, frf, hu', -, -, -, -, htrace⟩ := exec_config_traffic hu_t hd_t hl'
  exact ⟨t, u, configTraffic o' w frf t, ht, hu', htrace,
    configTraffic_not_modemConfig1 w frf (hbw_t.trans hbw.symm) (hcr_t.trans hcr.symm)⟩

end Sys2Proof.Machine
end

