-- ==== Sys2Proof/Proofs/Probe.lean ====
section
/-! SUPPORT. BEGIN with a quiet line (40_config.md R131): attempts that fail, one after another, and what follows the last of the reads. -/

namespace Sys2Proof.Machine

variable {s : State} {i : Instr} {k : Nat}

/-! ### The bytes drawn, from the last one -/

theorem drawMany_succ (n : Nat) : ∀ s : State, s.drawMany (n + 1) = (s.drawMany n).drawOne := by
  induction n with
  | zero => exact fun _ => rfl
  | succ n ih => intro s; rw [State.drawMany, ih]; rfl

theorem nextBytes_succ (n : Nat) : ∀ s : State, s.nextBytes (n + 1) = s.nextBytes n ++ [(s.drawMany n).nextByte] := by
  induction n with
  | zero => exact fun _ => rfl
  | succ n ih => intro s; rw [State.nextBytes, ih]; rfl

/-- The last of the next bytes, and the bytes before it. -/
theorem nextBytes_eq_concat {bytes : List Byte} {v : Byte} (h : s.nextBytes (bytes.length + 1) = bytes ++ [v]) :
    s.nextBytes bytes.length = bytes ∧ (s.drawMany bytes.length).nextByte = v := by
  rw [nextBytes_succ] at h
  simpa using List.append_inj' h rfl

/-! ### Failed attempts -/

/-- The traffic of attempts that answer the bytes `bad`, each with the delay after it (40_config.md R131). -/
def failedProbes (bad : List Byte) : List PortOp := bad.flatMap fun v => [.read 0x42 v, .delay 200]

/-- The state after attempts that answered the bytes `bad`. -/
def State.probed (s : State) (bad : List Byte) : State :=
  { s.drawMany bad.length with trace := s.trace ++ failedProbes bad }

@[simp] theorem calm_probed (bad : List Byte) : (s.probed bad).Calm ↔ s.Calm := by
  rw [← calm_drawMany (s := s) bad.length]; exact Iff.rfl

theorem probed_cons (v : Byte) (bad : List Byte) : (s.probed [v]).probed bad = s.probed (v :: bad) := by
  have hdraws : s.draws + (1 - s.chipReads.length) + (bad.length - (s.chipReads.length - 1)) =
      s.draws + (bad.length + 1 - s.chipReads.length) := by omega
  simp [State.probed, failedProbes, drawMany_eq, hdraws]

/-- What the chip answers after an attempt. -/
theorem nextBytes_probed (v : Byte) (n : Nat) : (s.probed [v]).nextBytes n = s.drawOne.nextBytes n := nextBytes_congr n rfl rfl

/-- One attempt that fails, with another to come. -/
theorem runTasks_probe_failed {n : Nat} (hc : s.Calm) (hn : n < 3) (hbad : s.nextByte ≠ 0x12) :
    runTasks config i k [.probe n] s = runTasks config i (k + 2) [.probe (n + 1)] (s.probed [s.nextByte]) := by
  have hafter : afterProbeTasks config n s.nextByte = [.delay 200, .probe (n + 1)] := by
    rw [afterProbeTasks, if_neg (show s.nextByte ≠ config.chipId from hbad), if_pos (show n < config.probeTries from hn)]
    rfl
  rw [runTasks_probe n hc, hafter, List.append_nil, runTasks_delay 200 (by simpa using hc)]
  congr 1
  simp [State.probed, failedProbes, State.record, State.drawMany, config, regMap]

/-- Attempts that fail, one after another, with another to come. -/
theorem runTasks_failedProbes (bad : List Byte) : ∀ {n k : Nat} {s : State}, s.Calm → n + bad.length ≤ 3 →
    s.nextBytes bad.length = bad → 0x12 ∉ bad →
    ∃ k', runTasks config i k [.probe n] s = runTasks config i k' [.probe (n + bad.length)] (s.probed bad) := by
  induction bad with
  | nil =>
    intro n k s _ _ _ _
    exact ⟨k, by simp [State.probed, failedProbes, State.drawMany]⟩
  | cons v bad ih =>
    intro n k s hc hn hbytes hbad
    rw [List.length_cons] at hn
    obtain ⟨rfl, hrest⟩ := List.cons.inj hbytes
    obtain ⟨k', hrun⟩ := ih (n := n + 1) (k := k + 2) (s := s.probed [s.nextByte]) (by simpa using hc) (by omega)
      ((nextBytes_probed _ _).trans hrest) (List.not_mem_of_not_mem_cons hbad)
    refine ⟨k', ?_⟩
    rw [runTasks_probe_failed hc (by omega) (Ne.symm (List.ne_of_not_mem_cons hbad)), hrun, probed_cons, List.length_cons,
      Nat.add_right_comm, Nat.add_assoc]

/-! ### The whole command -/

/-- BEGIN up to the read of its last attempt. -/
theorem exec_begin_attempts {bad : List Byte} {v : Byte} (hu : s.Undisturbed) (hlen : bad.length < 3) (hbad : 0x12 ∉ bad)
    (hbytes : s.nextBytes (bad.length + 1) = bad ++ [v]) :
    ∃ k, exec .begin s = .next (runTasks config .begin k (afterProbeTasks config (bad.length + 1) v)
      ((s.probed bad).drawOne.record (.read 0x42 v))) := by
  obtain ⟨hbefore, hlast⟩ := nextBytes_eq_concat hbytes
  have hv : (s.probed bad).nextByte = v := hlast
  obtain ⟨k, hrun⟩ := runTasks_failedProbes (i := .begin) (n := 1) (k := 0) bad hu.2 (by omega) hbefore hbad
  refine ⟨k + 1, ?_⟩
  rw [exec_tasks rfl (.inr rfl) rfl]
  change Host.Outcome.next (runTasks config .begin 0 [.probe 1] s) = _
  rw [hrun, Nat.add_comm 1, runTasks_probe _ (by simpa using hu.2), hv, List.append_nil]
  rfl

/-- The state after the last attempt's read. -/
theorem probed_read (bad : List Byte) (v : Byte) : (s.probed bad).drawOne.record (.read 0x42 v) =
    { s.drawMany (bad.length + 1) with trace := s.trace ++ failedProbes bad ++ [.read 0x42 v] } := by
  rw [drawMany_succ, drawOne_eq, drawOne_eq]
  rfl

/-- Settles O12: the last attempt fails too, and BEGIN answers NOT_DETECTED. -/
theorem beginFails : Obligations.BeginFails := by
  intro s v1 v2 v3 hu hbytes h1 h2 h3
  have hbad : 0x12 ∉ [v1, v2] := by
    rw [List.mem_pair]
    exact not_or.mpr ⟨h1.symm, h2.symm⟩
  obtain ⟨k, hrun⟩ := exec_begin_attempts (bad := [v1, v2]) hu (Nat.lt_succ_self 2) hbad hbytes
  have hafter : afterProbeTasks config 3 v3 = [.regWrite (.detected false)] ++ [.respond .notDetected []] := by
    rw [afterProbeTasks, if_neg (show v3 ≠ config.chipId from h3)]
    rfl
  have hcalm : ((s.probed [v1, v2]).drawOne.record (.read 0x42 v3)).Calm := by simpa using hu.2
  rw [hrun, show [v1, v2].length + 1 = 3 from rfl, hafter, (Quiet.regWrite _).finish hcalm, probed_read]
  simp [RegWrite.apply, State.respond, failedProbes, hu.1]

/-- BEGIN after a successful probe: SLEEP, then BASELINE, whose SetMode leaves SLEEP for STANDBY (40_config.md R131, R134). The sync
default is a permitted word, so nothing is substituted. -/
theorem quiet_detected (s : State) : Quiet config
    [.regWrite (.detected true), .modeCheck .sleep, .call (.baseline config.preambleDefault config.syncDefault)] s
    { s with
      detected := true
      curMode := .standby
      faultAbort := s.faultAbort || decide (s.curMode = .transmit)
      curPre := ⟨true, 8⟩
      curSync := ⟨true, 0x12⟩
      trace := s.trace ++ modeTraffic .sleep s.curMode ++ [.write 0x01 0x81]
        ++ baselineTraffic 8 0x12 s.payloadLen s.iqInvert s } := by
  have hsync : syncSubstitute config.syncAllowed config.syncDefault = 0x12 := syncSubstitute_of_mem (by decide)
  have hpre : config.preambleDefault = 8 := rfl
  have hdefault : config.syncDefault = 0x12 := rfl
  have hstandby : modeTraffic .standby .sleep = [.write 0x01 0x81] := rfl
  have hset : Quiet config [.regWrite (.detected true)] s { s with detected := true } := Quiet.regWrite _
  refine (hset.cons ((quiet_mode _).cons (Quiet.call (quiet_baseline _ _)))).of_eq ?_
  rw [hsync, hpre, hdefault]
  simp [abortsTransmit, syncLog, hstandby, baselineTraffic]

/-- Settles O11: the last attempt answers the chip id. -/
theorem beginDetects : Obligations.BeginDetects := by
  intro s bad hu hlen hbad hbytes
  obtain ⟨k, hrun⟩ := exec_begin_attempts hu hlen hbad hbytes
  have hafter : afterProbeTasks config (bad.length + 1) 0x12 =
      [.regWrite (.detected true), .modeCheck .sleep, .call (.baseline config.preambleDefault config.syncDefault)]
        ++ [.respond .ok []] := if_pos rfl
  have hcalm : ((s.probed bad).drawOne.record (.read 0x42 0x12)).Calm := by simpa using hu.2
  rw [hrun, hafter, (quiet_detected _).finish hcalm, probed_read]
  simp [State.respond, failedProbes, baselineTraffic, hu.1]

end Sys2Proof.Machine
end

