-- ==== Sys2Proof/Proofs/TxRx.lean ====
section
/-! SUPPORT. The pipeline commands TX and ARM_RX with a quiet line (42_txrx.md R181, R182): from the forced STANDBY, the traffic and the mode
write. -/

namespace Sys2Proof.Machine

variable {s : State}

/-- The last step of ARM_RX always writes REG_OP_MODE: neither receive mode is the STANDBY it finds (42_txrx.md R182). -/
theorem modeTraffic_armMode (symbols : BitVec 10) :
    modeTraffic (if symbols = 0 then .rxContinuous else .rxSingle) .standby =
      [.write 0x01 (if symbols = 0 then 0x85 else 0x86)] := by
  split <;> rfl

/-- TX's length check (30_encoding.md R100). -/
theorem operandsLegal_tx {data : List Byte} (hlow : 1 ≤ data.length) (hhigh : data.length ≤ 255) :
    operandsLegal config (.tx data) = true := by
  simp [operandsLegal, hlow, hhigh]

/-- TX up to its response. -/
theorem quiet_tx (data : List Byte) : Quiet config
    [.modeCheck .standby, .txEnable, .portWrite config.regs.fifoAddrPtr config.fifoTxBase, .fifoWrite data, .modeCheck .transmit] s
    { s with
      curMode := .transmit
      faultAbort := s.faultAbort || decide (s.curMode = .transmit)
      trace := s.trace ++ modeTraffic .standby s.curMode ++ [.txEnable, .write 0x0D 0x00, .fifoWrite data, .write 0x01 0x83] } := by
  have htransmit : modeTraffic .transmit .standby = [.write 0x01 0x83] := rfl
  refine ((quiet_mode _).cons (Quiet.txEnable.cons ((Quiet.portWrite _ _).cons ((Quiet.fifoWrite data).cons
    (quiet_mode _))))).of_eq ?_
  simp [State.record, abortsTransmit, htransmit, config, regMap]

/-- ARM_RX up to its response. -/
theorem quiet_armRx : Quiet config
    [.modeCheck .standby, .rxEnable, .portWrite config.regs.fifoAddrPtr config.fifoRxBase, .call .armMode] s
    { s with
      curMode := if s.timeoutSymbols = 0 then .rxContinuous else .rxSingle
      faultAbort := s.faultAbort || decide (s.curMode = .transmit)
      trace := s.trace ++ modeTraffic .standby s.curMode
        ++ [.rxEnable, .write 0x0D 0x00, .write 0x01 (if s.timeoutSymbols = 0 then 0x85 else 0x86)] } := by
  refine ((quiet_mode _).cons (Quiet.rxEnable.cons ((Quiet.portWrite _ _).cons (Quiet.call quiet_armMode)))).of_eq ?_
  simpa [State.record, abortsTransmit, config, regMap] using modeTraffic_armMode s.timeoutSymbols

/-- Settles O24: a legal length starts TX's tasks, and they end in TRANSMIT. -/
theorem txResult : Obligations.TxResult := fun data _ hu hd hlow hhigh =>
  exec_ok hu (operandsLegal_tx hlow hhigh) (.inl hd) rfl rfl (quiet_tx data) rfl

/-- Settles O25: ARM_RX's tasks, the last of which chooses the receive mode by TIMEOUT_SYMBOLS. -/
theorem armRxResult : Obligations.ArmRxResult := fun _ hu hd =>
  exec_ok hu rfl (.inl hd) rfl rfl quiet_armRx rfl

end Sys2Proof.Machine
end

