-- ==== Sys2Proof/Proofs/WriteCount.lean ====
section
/-! SUPPORT. The write-count law of SetMode (41_mode.md R174): each SET_MODE adds one write of REG_OP_MODE or none, and leaves its mode cached
for the next. -/

namespace Sys2Proof.Machine

variable {s t : State}

theorem opModeWrites_append (trace ops : List PortOp) : opModeWrites (trace ++ ops) = opModeWrites trace + opModeWrites ops :=
  List.countP_append

/-- SetMode writes REG_OP_MODE once, or not at all when the mode is the cached one (41_mode.md R171). -/
theorem opModeWrites_modeTraffic (m cur : Mode) : opModeWrites (modeTraffic m cur) = if m = cur then 0 else 1 := by
  by_cases h : m = cur
  · simp [modeTraffic, opModeWrites, h]
  · simp [modeTraffic, opModeWrites, h, Ne.symm h]

/-- SET_MODE completes at a command boundary with a quiet line, the chip still detected, its mode cached. -/
theorem exec_setMode_counts {m : Mode} (hu : s.Undisturbed) (hd : s.detected = true) (hm : m ≠ .unknown) :
    ∃ t, exec (.setMode (m.code.zeroExtend 8)) s = .next t ∧ t.Undisturbed ∧ t.detected = true ∧ t.curMode = m ∧
      opModeWrites t.trace = opModeWrites s.trace + if m = s.curMode then 0 else 1 :=
  ⟨_, setModeResult _ m s hu hd hm rfl, hu, hd, rfl, by rw [opModeWrites_append, opModeWrites_modeTraffic]⟩

/-- The first of several commands runs, then the others from the state it leaves. -/
theorem runCommands_cons {i : Instr} (is : List Instr) (h : exec i s = .next t) : runCommands (i :: is) s = runCommands is t := by
  simp only [runCommands, h]

/-- Settles O45, by induction on the modes: the mode a command leaves cached is the one the next is compared with. -/
theorem writeCountLaw : Obligations.WriteCountLaw := by
  intro ms
  induction ms with
  | nil => exact fun s _ _ _ => ⟨s, rfl, rfl⟩
  | cons m ms ih =>
    intro s hu hd hknown
    obtain ⟨hm, hms⟩ := not_or.mp (List.mem_cons.not.mp hknown)
    obtain ⟨t, hexec, hu_t, hd_t, hmode, hcount⟩ := exec_setMode_counts hu hd (Ne.symm hm)
    obtain ⟨u, hrun, htotal⟩ := ih t hu_t hd_t hms
    refine ⟨u, by rw [List.map_cons, runCommands_cons _ hexec, hrun], ?_⟩
    rw [htotal, hcount, hmode, modeChanges, Nat.add_assoc]

end Sys2Proof.Machine
end

