-- ==== Sys2Proof/Proofs/LostCompletion.lean ====
section
/-! SUPPORT. The completion lost between SetMode's write of REG_OP_MODE and its update of CUR_MODE (70_reset_and_hazards.md R260): the run of
TX is followed by micro-steps into that window, through a dispatch whose guards see the old mode, and out to the response. -/

namespace Sys2Proof.Machine

variable {c : Config} {s : State}

/-! ### A run, by micro-steps -/

/-- A run passes through its micro-steps up to any at which its command is still in SEQ: an idle sequencer would have stayed idle. -/
theorem runToRest_iterate (n : Nat) (s : State) (h : ((micro c)^[n] s).seq ≠ .idle) :
    runToRest c s = runToRest c ((micro c)^[n] s) := by
  induction n with
  | zero => rfl
  | succ n ih =>
    rw [Function.iterate_succ_apply'] at h ⊢
    have hbusy : ((micro c)^[n] s).seq ≠ .idle := mt (idle_kept.micro _) h
    rw [ih hbusy, runToRest_step c _ (Bool.eq_false_iff.mpr (mt seq_of_atRest hbusy))]

/-- The run from a state with a command in SEQ is the run of its tasks. -/
theorem runToRest_eq_runTasks {i : Instr} {k : Nat} {ts : List Task} (h : s.seq = .busy i k ts) :
    runToRest c s = runTasks c i k ts s := by
  rw [runTasks, ← h]

/-- At an interleaving point without an assertion the foreground has its turn. -/
theorem micro_unasserted {later : List Bool} (hd : s.dispatch = none) (hp : s.irqPending = false)
    (hl : s.irqLine = false :: later) :
    micro c s = foregroundStep c { s with irqLine := later } := by
  have hs : s.sampleIrq = { s with irqLine := later } := by simp [State.sampleIrq, hl, hp]
  rw [micro_foreground hd (by simp [hs, hp]), hs]

/-- The last assertion of the schedule may as well have been sampled before the micro-step that samples it. -/
theorem micro_sampleIrq (h : s.sampleIrq.irqLine = []) : micro c s.sampleIrq = micro c s := by
  rw [micro, micro, sampleIrq_quiet h]

/-- What a dispatch leaves that clears the flags and does no more, the last of the schedule (60_exceptions.md R224, R226). -/
def State.flagsIgnored (s : State) : State :=
  { s.drawOne with
    irqPending := false
    irqLine := []
    trace := s.trace ++ [.read 0x12 s.nextByte, .write 0x12 0xFF] }

@[simp] theorem flagsIgnored_seq (s : State) : s.flagsIgnored.seq = s.seq := by simp [State.flagsIgnored]

@[simp] theorem flagsIgnored_events (s : State) : s.flagsIgnored.events = s.events := by simp [State.flagsIgnored]

@[simp] theorem flagsIgnored_trace (s : State) :
    s.flagsIgnored.trace = s.trace ++ [.read 0x12 s.nextByte, .write 0x12 0xFF] := rfl

theorem flagsIgnored_calm (hd : s.dispatch = none) : s.flagsIgnored.Calm := by simp [State.Calm, State.flagsIgnored, hd]

/-- An assertion in a mode that is neither TRANSMIT nor a receive mode causes a dispatch that ignores every flag, and the foreground is
where it was. -/
theorem iterate_micro_ignored (hd : s.dispatch = none) (hdet : s.detected = true) (hl : s.irqLine = [true])
    (htx : s.curMode ≠ .transmit) (hrx : s.curMode ≠ .rxSingle ∧ s.curMode ≠ .rxContinuous) :
    (micro config)^[4] s = s.flagsIgnored := by
  have hs : s.sampleIrq = { s with irqPending := true, irqLine := [] } := by simp [State.sampleIrq, hl, hdet]
  obtain ⟨hrun, -⟩ := ignoredFlags s.sampleIrq _ (by simpa using hd) (by simp [hs]) (by simp [hs]) (fun _ => by simpa using htx)
    (fun _ => by simpa using hrx) rfl
  rw [Function.iterate_succ_apply, micro_sampleIrq (by simp [hs]), ← Function.iterate_succ_apply] at hrun
  rw [hrun, hs]
  simp [drawOne_eq, State.nextByte, State.flagsIgnored]

/-! ### TX from STANDBY -/

/-- TX from STANDBY in the window of its last SetMode: REG_OP_MODE is written, CUR_MODE not yet updated (41_mode.md R171). -/
def State.inTxWindow (s : State) (data : List Byte) : State :=
  { s with
    seq := .busy (.tx data) 6 [.modeCache .transmit, .respond .ok []]
    trace := s.trace ++ [.txEnable, .write 0x0D 0x00, .fifoWrite data, .write 0x01 0x83] }

/-- Six micro-steps, the elided SetMode(STANDBY) first, take TX from STANDBY into the window. -/
theorem iterate_micro_tx (data : List Byte) {later : List Bool} (hd : s.dispatch = none) (hp : s.irqPending = false)
    (hm : s.curMode = .standby) (hl : s.irqLine = List.replicate 6 false ++ later) :
    (micro config)^[6] { s with seq := .busy (.tx data) 0 (txTasks config data) } =
      { s.inTxWindow data with irqLine := later } := by
  have htasks : txTasks config data = [.modeCheck .standby, .txEnable, .portWrite 0x0D 0x00, .fifoWrite data,
    .modeCheck .transmit, .respond .ok []] := rfl
  have hwrite : PortOp.write config.regs.opMode (opModeByte config .transmit) = .write 0x01 0x83 := rfl
  simp [Function.iterate_succ_apply, micro_unasserted, hd, hp, hl, hm, htasks, foregroundStep, foreground, State.record,
    State.advance, State.writeOpMode, hwrite, abortsTransmit, State.inTxWindow]

/-- The assertion in the window finds CUR_MODE = STANDBY, so its dispatch leaves TX in the window. -/
theorem iterate_micro_tx_ignored (data : List Byte) (hd : s.dispatch = none) (hp : s.irqPending = false) (hdet : s.detected = true)
    (hm : s.curMode = .standby) (hl : s.irqLine = List.replicate 6 false ++ [true]) :
    (micro config)^[4 + 6] { s with seq := .busy (.tx data) 0 (txTasks config data) } = (s.inTxWindow data).flagsIgnored := by
  have hstandby : (s.inTxWindow data).curMode = .standby := hm
  rw [Function.iterate_add_apply, iterate_micro_tx data hd hp hm hl,
    iterate_micro_ignored (s := { s.inTxWindow data with irqLine := [true] }) hd hdet rfl (by simp [hstandby]) (by simp [hstandby])]
  simp [State.flagsIgnored, drawOne_eq, State.nextByte]

/-- Settles O36: after the dispatch that ignored TX_DONE, the foreground caches TRANSMIT and responds. -/
theorem lostCompletion : Obligations.LostCompletion := by
  intro data s _ hd hp hdet hm hlow hhigh _ hl
  have hwindow := iterate_micro_tx_ignored data hd hp hdet hm hl
  have hseq : (s.inTxWindow data).flagsIgnored.seq = .busy (.tx data) 6 [.modeCache .transmit, .respond .ok []] :=
    flagsIgnored_seq _
  have hcalm : (s.inTxWindow data).flagsIgnored.Calm := flagsIgnored_calm hd
  have hrun : runTasks config (.tx data) 0 (txTasks config data) s =
      State.respond { (s.inTxWindow data).flagsIgnored with curMode := .transmit } .ok [] := by
    rw [runTasks, runToRest_iterate (4 + 6) _ (by rw [hwindow, hseq]; exact nofun), hwindow, runToRest_eq_runTasks hseq,
      runTasks_modeCache _ hcalm, runTasks_respond _ _ ((calm_curMode _).mpr hcalm)]
  refine ⟨_, (exec_tasks (operandsLegal_tx hlow hhigh) (.inl hdet) rfl).trans (congrArg _ hrun), rfl, ?events, ?trace⟩
  case events => exact flagsIgnored_events _
  case trace => exact List.append_assoc _ _ _

end Sys2Proof.Machine
end

