-- ==== Sys2Proof/Proofs/TelemetryArithmetic.lean ====
section
/-! SUPPORT. The arithmetic of the frequency error and of the PPM correction (43_telemetry.md R198, R200). -/

namespace Sys2Proof.Machine

/-! ### The frequency-error bytes -/

/-- Bit 3 of the first byte, the sign of the 20-bit value, is worth 8 in its low nibble. -/
theorem lowNibble_eq (b : Byte) : b.toNat % 16 = b.toNat % 8 + (if b.getLsbD 3 then 8 else 0) := by
  revert b; decide

/-- Settles O52: the sign bit counts 2^19 in the 20-bit value, so leaving it out leaves 2^19 of the 2^20 to subtract. -/
theorem feiDecoding : Obligations.FeiDecoding := by
  intro b0 b1 b2
  refine ⟨?magnitude, feiDecode_eq b0 b1 b2⟩
  case magnitude =>
    rw [feiDecode_eq, lowNibble_eq]
    split <;> omega

/-! ### The PPM correction -/

theorem satS8_bounds (v : Int) : -128 ≤ satS8 v ∧ satS8 v ≤ 127 := by
  unfold satS8; omega

theorem satS8_of_fits {v : Int} (hlow : -128 ≤ v) (hhigh : v ≤ 127) : satS8 v = v := by
  unfold satS8; omega

/-- With the default table the exact quotient is 0.95 * 10^6 * off / f, written with integer terms (43_telemetry.md R200). -/
theorem ppmFromHz_config (off : Int) (f : Nat) : ppmFromHz config off f = satS8 (Int.tdiv (off * 95000000) (f * 100)) :=
  congrArg (fun x => satS8 (Int.tdiv x (f * 100))) (Int.mul_assoc off 1000000 95)

section
variable {off : Int} {f : Nat} (hf : 1 ≤ f)
include hf

/-- Toward zero is downward for an offset that is not negative; a quotient below 128 is not saturated. -/
theorem ppmFromHz_of_nonneg (hoff : 0 ≤ off) (hlt : off * 95000000 < 128 * (f * 100)) :
    ppmFromHz config off f = off * 95000000 / (f * 100) := by
  have hquot : 0 ≤ off * 95000000 / (f * 100 : Int) := Int.ediv_nonneg (by omega) (by omega)
  have hquot' : off * 95000000 / (f * 100 : Int) < 128 := Int.ediv_lt_of_lt_mul (by omega) hlt
  rw [ppmFromHz_config, Int.tdiv_eq_ediv_of_nonneg (by omega), satS8_of_fits (by omega) (by omega)]

/-- Toward zero is upward for an offset that is not positive; a quotient above -129 is not saturated. -/
theorem ppmFromHz_of_nonpos (hoff : off ≤ 0) (hlt : -129 * (f * 100) < off * 95000000) :
    ppmFromHz config off f = -(-(off * 95000000) / (f * 100)) := by
  have hquot : 0 ≤ -(off * 95000000) / (f * 100 : Int) := Int.ediv_nonneg (by omega) (by omega)
  have hquot' : -(off * 95000000) / (f * 100 : Int) < 129 := Int.ediv_lt_of_lt_mul (by omega) (by omega)
  rw [ppmFromHz_config, ← Int.neg_neg (off * 95000000), Int.neg_tdiv, Int.tdiv_eq_ediv_of_nonneg (by omega),
    satS8_of_fits (by omega) (by omega), Int.neg_neg]

end

/-- Settles O53: where nothing saturates, the correction is the quotient of the magnitudes rounded down, with the offset's sign. -/
theorem ppmTruncates : Obligations.PpmTruncates := by
  intro off f hf
  have hpos : (0 : Int) < f * 100 := by omega
  obtain ⟨hlow, hhigh⟩ := satS8_bounds (Int.tdiv (off * 95000000) (f * 100))
  rw [← ppmFromHz_config] at hlow hhigh
  refine ⟨hlow, hhigh, ?nonneg, ?nonpos⟩
  case nonneg =>
    intro hoff hlt
    rw [ppmFromHz_of_nonneg hf hoff hlt]
    exact ⟨Int.ediv_mul_le _ hpos.ne', Int.lt_ediv_add_one_mul_self _ hpos⟩
  case nonpos =>
    intro hoff hlt
    have hle := Int.ediv_mul_le (-(off * 95000000)) hpos.ne'
    have hgt := Int.lt_ediv_add_one_mul_self (-(off * 95000000)) hpos
    rw [ppmFromHz_of_nonpos hf hoff hlt]
    constructor <;> linarith

end Sys2Proof.Machine
end

