-- ==== Sys2Proof/Proofs/Dispatches.lean ====
section
/-! SUPPORT. A whole dispatch (60_exceptions.md R223 to R232): its entry, the transmit completion with no assertion to come, and that it
returns in bounded time, whatever is asserted meanwhile, with the foreground where it was. -/

namespace Sys2Proof.Machine

variable {c : Config} {s : State} {n : Nat} {ops : List PortOp} {evs : List Event}

/-! ### The entry -/

/-- Settles O29: taking the interrupt is the whole micro-step. -/
theorem dispatchEntry : Obligations.DispatchEntry := by
  intro s hd hp
  rw [micro_entry hd hp]
  exact ⟨rfl, rfl⟩

/-! ### The transmit completion -/

/-- In TRANSMIT with TX_DONE set, the dispatch goes on with the transmit completion (60_exceptions.md R225). -/
theorem afterClearPhase_transmitted {flags : Byte} (hm : s.curMode = .transmit) (hf : flags.getLsbD 3 = true) :
    afterClearPhase config flags s = .txDisable flags := by
  simp [afterClearPhase, txGuard, txDoneFlag, config, hm, hf]

/-- The RX guard does not hold in STANDBY, so after a transmit completion the RX flag causes nothing (60_exceptions.md R227). -/
theorem afterTxPhase_standby {flags : Byte} (hm : s.curMode = .standby) : afterTxPhase c flags s = .leave := by
  simp [afterTxPhase, rxGuard, Mode.isReceive, hm]

/-- What a transmit completion makes of a state (60_exceptions.md R229). -/
def State.transmitted (u : State) : State :=
  { u with
    dispatch := none
    curMode := .standby
    trace := u.trace ++ [.pathsDisable]
    events := u.events ++ [.txDone] }

/-- The transmit completion's three micro-operations and the return. -/
theorem MicroRun.transmit {flags : Byte} (hd : s.dispatch = some (.txDisable flags)) (hl : s.irqLine = []) :
    MicroRun c 4 s s.transmitted := by
  refine .dispatch (.txDisable flags) hd hl (.dispatch (.txStandby flags) rfl hl (.dispatch (.txEmit flags) rfl hl
    (.dispatch .leave ?_ hl (.nil rfl))))
  exact congrArg some (afterTxPhase_standby rfl)

/-- Settles O33: the flags send the dispatch to the transmit completion, which runs to its return. -/
theorem txCompletion : Obligations.TxCompletion := by
  intro s t hd hp hl hm hf ht
  have hend : (s.flagsCleared config (.txDisable s.nextByte)).transmitted = t := by
    subst ht
    simp [State.transmitted, State.flagsCleared, drawOne_eq, hd, config, regMap]
  have hrun : MicroRun config 6 s.enterDispatch t := by
    refine .flags hl ?_
    rw [afterClearPhase_transmitted hm hf, ← hend]
    exact .transmit rfl (by simpa using hl)
  exact hrun.completes hd hp hl (by simp [ht, hd]) (by simp [ht])

/-! ### The return -/

/-- From `s`, with a dispatch in progress, the dispatch is over after `n` micro-steps and not before, with the foreground where it was;
it has made the transactions `ops` and emitted the events `evs`. -/
structure DispatchRun (c : Config) (n : Nat) (s : State) (ops : List PortOp) (evs : List Event) : Prop where
  returned : ((micro c)^[n] s).dispatch = none
  seq : ((micro c)^[n] s).seq = s.seq
  cmdStream : ((micro c)^[n] s).cmdStream = s.cmdStream
  responses : ((micro c)^[n] s).responses = s.responses
  status : ((micro c)^[n] s).status = s.status
  trace : ((micro c)^[n] s).trace = s.trace ++ ops
  events : ((micro c)^[n] s).events = s.events ++ evs
  inside : ∀ m < n, ((micro c)^[m] s).inDispatch = true

/-- One micro-operation is left, the return. -/
theorem DispatchRun.leave (hd : s.dispatch = some .leave) : DispatchRun c 1 s [] [] := by
  refine ⟨?_, ?_, ?_, ?_, ?_, ?_, ?_, fun m hm => ?inside⟩
  case inside =>
    obtain rfl : m = 0 := by omega
    exact inDispatch_eq_true.mpr ⟨_, hd⟩
  all_goals simp [micro_dispatch hd, dispatchStep]

/-- A micro-operation is made, and the dispatch goes on; an assertion sampled on the way is left pending. -/
theorem DispatchRun.step (ph : Phase) (hd : s.dispatch = some ph) (h : DispatchRun c n (dispatchStep c ph s.sampleIrq) ops evs) :
    DispatchRun c (n + 1) s (ph.traffic c s.sampleIrq ++ ops) (ph.emits ++ evs) := by
  have hstep : (micro c)^[n + 1] s = (micro c)^[n] (dispatchStep c ph s.sampleIrq) := by
    rw [Function.iterate_succ_apply, micro_dispatch hd]
  refine ⟨?_, ?_, ?_, ?_, ?_, ?_, ?_, fun m hm => ?inside⟩
  case inside =>
    cases m with
    | zero => exact inDispatch_eq_true.mpr ⟨ph, hd⟩
    | succ m => rw [Function.iterate_succ_apply, micro_dispatch hd]; exact h.inside m (by omega)
  all_goals rw [hstep]
  · exact h.returned
  · simpa using h.seq
  · simpa using h.cmdStream
  · simpa using h.responses
  · simpa using h.status
  · simpa [dispatchStep_trace] using h.trace
  · simpa [dispatchStep_events] using h.events

/-- The transmit completion and the return. -/
theorem DispatchRun.transmit {flags : Byte} (hd : s.dispatch = some (.txDisable flags)) :
    DispatchRun c 4 s [.pathsDisable] [.txDone] := by
  refine .step (.txDisable flags) hd (.step (.txStandby flags) rfl (.step (.txEmit flags) rfl (.leave ?_)))
  simp [dispatchStep, afterTxPhase_standby]

/-- The receive completion and the return: one FIFO read, and the event with the bytes it answered. -/
theorem DispatchRun.receive (hd : s.dispatch = some .rxRead) :
    ∃ (k : Byte) (d : List Byte), DispatchRun c 5 s [.fifoRead k.toNat d] [.rxDone 0x00 k d] :=
  ⟨_, _, .step .rxRead hd (.step (.rxStore _ _) rfl (.step (.rxStandby _ _) rfl (.step (.rxEmit _ _) rfl (.leave rfl))))⟩

/-- After the clear-all write there is at most one completion, and the return. -/
theorem DispatchRun.cleared {flags : Byte} {u : State} (hd : s.dispatch = some (afterClearPhase c flags u)) :
    ∃ n ops evs, DispatchRun c n s ops evs ∧ 1 ≤ n ∧ n ≤ 5 ∧ ops.length ≤ 1 ∧ evs.length ≤ 1 := by
  unfold afterClearPhase afterTxPhase at hd
  split at hd
  · exact ⟨_, _, _, .transmit hd, by decide⟩
  · split at hd
    · obtain ⟨k, d, h⟩ := DispatchRun.receive hd
      exact ⟨_, _, _, h, by decide, by decide, le_rfl, le_rfl⟩
    · exact ⟨_, _, _, .leave hd, by decide⟩

@[simp] theorem sampleIrq_nextByte (s : State) : s.sampleIrq.nextByte = s.nextByte := by simp [State.nextByte]

/-- Every dispatch reads the flags and clears them before anything else (60_exceptions.md R224). -/
theorem DispatchRun.start (hd : s.dispatch = some .readFlags) :
    ∃ n ops evs, DispatchRun c n s (.read c.regs.irqFlags s.nextByte :: .write c.regs.irqFlags 0xFF :: ops) evs ∧
      3 ≤ n ∧ n ≤ 7 ∧ ops.length ≤ 1 ∧ evs.length ≤ 1 := by
  rw [← sampleIrq_nextByte]
  obtain ⟨n, ops, evs, h, hlow, hhigh, hops, hevs⟩ := DispatchRun.cleared (c := c)
    (s := dispatchStep c (.clearFlags s.sampleIrq.nextByte) (dispatchStep c .readFlags s.sampleIrq).sampleIrq) rfl
  exact ⟨n + 2, ops, evs, .step .readFlags hd (.step (.clearFlags _) rfl h), by omega, by omega, hops, hevs⟩

/-- Settles O32: the entry, the two micro-operations on the flags, at most one completion, and the return. -/
theorem dispatchReturns : Obligations.DispatchReturns := by
  intro s hd hp
  obtain ⟨n, ops, evs, h, hlow, hhigh, hops, hevs⟩ := DispatchRun.start (c := config) (enterDispatch_dispatch s.sampleIrq)
  have hbyte : s.sampleIrq.enterDispatch.nextByte = s.nextByte := sampleIrq_nextByte s
  have hentry : ∀ m, (micro config)^[m + 1] s = (micro config)^[m] s.sampleIrq.enterDispatch := fun m => by
    rw [Function.iterate_succ_apply, micro_entry hd hp]
  refine ⟨n + 1, _, by omega, by omega, rfl, ?_⟩
  rw [hentry]
  refine ⟨h.returned, by simpa using h.seq, by simpa using h.cmdStream, by simpa using h.responses, by simpa using h.status,
    ⟨ops, by simpa [hbyte, config, regMap] using h.trace, hops⟩, ⟨evs, by simpa using h.events, hevs⟩, fun m hpos hm => ?_⟩
  obtain ⟨k, rfl⟩ : ∃ k, m = k + 1 := ⟨m - 1, by omega⟩
  rw [hentry]
  exact h.inside k (by omega)

/-! ### A pending interrupt at a command boundary -/

/-- A run passes through the micro-steps of a dispatch to the one after its last. -/
theorem runToRest_iterate_inDispatch (n : Nat) (s : State) (h : ∀ m < n, ((micro c)^[m] s).inDispatch = true) :
    runToRest c s = runToRest c ((micro c)^[n] s) := by
  induction n with
  | zero => rfl
  | succ n ih =>
    have hbusy : ((micro c)^[n] s).atRest = false := by simp [State.atRest, h n (by omega)]
    rw [ih fun m hm => h m (by omega), runToRest_step c _ hbusy, Function.iterate_succ_apply']

/-- At a command boundary, a step with an interrupt to take is the run from its entry (60_exceptions.md R222). -/
theorem step_of_pending (hs : s.atRest = true) (hp : s.sampleIrq.irqPending = true) :
    step s = .next (runToRest config (micro config s)) := by
  rw [micro_entry (dispatch_of_atRest hs) hp]
  simp [step, boundaryStep, hs, hp]

/-- Settles O8: the step is the dispatch and ends where it returns, since the sequencer is still idle there. -/
theorem pendingInterruptGoesFirst : Obligations.PendingInterruptGoesFirst := by
  intro s hs hp
  obtain ⟨n, t, hlow, -, ht, htd, hseq, hstream, hresp, hstatus, ⟨new, htrace, -⟩, -, hinside⟩ :=
    dispatchReturns s (dispatch_of_atRest hs) hp
  have hrest : t.atRest = true := by simp [State.atRest, State.inDispatch, htd, hseq, seq_of_atRest hs, Seq.isIdle]
  obtain ⟨k, rfl⟩ : ∃ k, n = k + 1 := ⟨n - 1, by omega⟩
  have hrun : runToRest config (micro config s) = t := by
    rw [runToRest_iterate_inDispatch k _ fun m hm => hinside (m + 1) (by omega) (by omega), ← Function.iterate_succ_apply, ← ht,
      runToRest_of_atRest config t hrest]
  exact ⟨t, by rw [step_of_pending hs hp, hrun], hrest, hstream, hresp, hstatus, by simp [htrace]⟩

end Sys2Proof.Machine
end
